-- ==== Sys2Proof/Word.lean ====
section
/-!
DEFINITION. The word types of the Limb-slice shift engine and the two small field types of its command word.
-/
namespace Sys2Proof

/-- A 64-bit control register, and the container of one limb: a limb of a 32-bit engine is held zero-extended
(10_state.md R31; log 2). -/
abbrev Word := BitVec 64

/-- One byte of the platform bus (20_memory.md R61). -/
abbrev Byte := BitVec 8

/-- The six rounding modes (00_scope.md R16). -/
inductive RoundMode where
  | down | up | floor | ceiling | nearest | exact
deriving DecidableEq, Repr

/-- The RM field of the command word: a mode, or one of the two reserved values (30_encoding.md R83). -/
inductive RmField where
  | mode (m : RoundMode)
  | reserved6
  | reserved7
deriving DecidableEq, Repr

end Sys2Proof
end

