-- ==== Sys2Proof/Machine/Arith.lean ====
section
/-!
DEFINITION. The integer functions of the rules (00_scope.md R9 to R14). Values are natural numbers of unbounded width.
Counts are 64-bit registers and can be far larger than any operand, so a function of a count never builds a number of
that many bits when its result is small (60_exceptions.md R226): `divPow2 x k` is `x / 2^k`, `modPow2 x k` is
`x % 2^k`, `mulPow2 v k` is `v * 2^k`, `nlenShifted w q k` is `nlen w (q * 2^k)`; Laws/Arith.lean proves each.
-/
namespace Sys2Proof.Machine

/-- The position of the highest set bit plus one; 0 for 0 (00_scope.md R14). -/
def sigbits (v : Nat) : Nat := if v = 0 then 0 else Nat.log2 v + 1

/-- `ceil_div` of 00_scope.md R9. -/
def ceilDiv (a b : Nat) : Nat := (a + b - 1) / b

/-- The number of limbs of `v` once trailing zero limbs are trimmed (00_scope.md R14). -/
def nlen (w v : Nat) : Nat := ceilDiv (sigbits v) w

/-- `x div 2^k`. -/
def divPow2 (x k : Nat) : Nat := if sigbits x ≤ k then 0 else x / 2 ^ k

/-- `x mod 2^k`. -/
def modPow2 (x k : Nat) : Nat := if sigbits x ≤ k then x else x % 2 ^ k

/-- `v * 2^k`. -/
def mulPow2 (v k : Nat) : Nat := if v = 0 then 0 else v * 2 ^ k

/-- `nlen(q * 2^k)`. -/
def nlenShifted (w q k : Nat) : Nat := if q = 0 then 0 else ceilDiv (sigbits q + k) w

/-- `r` compared with `2^k`. -/
def cmpPow2 (r k : Nat) : Ordering := if sigbits r ≤ k then .lt else compare r (2 ^ k)

/-- `NOT_n(v)` of 00_scope.md R10. -/
def notBits (n v : Nat) : Nat := (2 ^ n - 1) - modPow2 v n

/-- `sigbits(NOT_n(v))` for `v < 2^n`. -/
def sigbitsNot (n v : Nat) : Nat := if sigbits v < n then n else sigbits (notBits n v)

end Sys2Proof.Machine
end

