-- ==== Sys2Proof/Config.lean ====
section
/-!
DEFINITION. What one implementation of the engine fixes (its parameters), and the free values the spec leaves open.
-/
namespace Sys2Proof

/-- The two legal limb widths (00_scope.md R5). -/
inductive LimbWidth where
  | w32 | w64
deriving DecidableEq, Repr

/-- The limb width W in bits. -/
def LimbWidth.bits : LimbWidth → Nat
  | .w32 => 32
  | .w64 => 64

/-- The parameters of 00_scope.md R5 to R7. -/
structure Config where
  /-- W (R5). -/
  width   : LimbWidth
  /-- LM_LIMBS (R6). -/
  lmLimbs : Nat
  /-- CSR_BASE, a byte address (R7). -/
  csrBase : Nat
  /-- LM_BASE, a byte address (R7). -/
  lmBase  : Nat
deriving DecidableEq, Repr

/-- The bound of R6 on LM_LIMBS. CSR_BASE and LM_BASE are left open by R7. -/
abbrev Config.wf (c : Config) : Prop := 1 ≤ c.lmLimbs ∧ c.lmLimbs ≤ 2 ^ 32 - 1

/-- The parameters `State.reset` is built with (DESIGN CHOICE, log 1). W and LM_LIMBS are those of the spec's own
test vectors (95_test_vectors.md, Conventions). -/
def Config.sample : Config := { width := .w32, lmLimbs := 64, csrBase := 0, lmBase := 0x800 }

/-- Free value number `k` for one limb: a destination tail limb (20_memory.md R66, log 3) or a limb of an abandoned
destination (70_reset_and_hazards.md R251, log 5). It has no body, so nothing can be proved about it. -/
opaque Config.freeLimb (k : Nat) : Word

/-- Free choice number `k` between the two representations of zero of MULMOD_BNM1 (44_modmul.md R204, log 4). -/
opaque Config.freePick (k : Nat) : Bool

/-- Free value number `k` for the number of host operations between a GO write and the engine step
(70_reset_and_hazards.md R256, log 6). -/
opaque Config.freeDelay (k : Nat) : Nat

end Sys2Proof
end

