-- ==== Sys2Proof/Machine/State.lean ====
section
/-!
DEFINITION. The state of the machine: the engine's control registers, its phase and limb memory (10_state.md), the host
agent that drives it (30_encoding.md R92), and the model's own fields (draws, delay, schedule).
-/
namespace Sys2Proof.Machine

/-- The phase of the engine, which STATUS.BUSY shows (10_state.md R33). -/
inductive Phase where
  | idle | busy
deriving DecidableEq, Repr

/-- The error codes of 60_exceptions.md R221. -/
inductive ErrorCode where
  | eopc | erm | eaddr | eempty | elen | eorder | ezero | ebits | edomain | einexact | ecap
deriving DecidableEq, Repr

/-- The limb memory: (index, limb) cells, indices strictly rising. A limb is listed exactly when it has been written
since power-on (10_state.md R31, R34); an unlisted limb has no value, and reading it faults (log 2). -/
abbrev Memory := List (Nat × Word)

/-- A host operation (30_encoding.md R92), its branch target resolved to an index of the program, and the byte access
of the platform bus (20_memory.md R61). -/
inductive HostOp where
  /-- `csrw n, v`: CsrWrite(n, v). -/
  | csrw (n : Nat) (v : Word)
  /-- `csrr n -> tK`: CsrRead(n). -/
  | csrr (n : Nat) (t : Nat)
  /-- `lmw i, v`: LmWrite(i, v). -/
  | lmw (i : Nat) (v : Word)
  /-- `lmr i -> tK`: LmRead(i). -/
  | lmr (i : Nat) (t : Nat)
  /-- A write of these bytes at a byte address of the platform bus. -/
  | busw (addr : Nat) (bytes : List Byte)
  /-- A read of `width` bytes at a byte address of the platform bus, kept in tK. -/
  | busr (addr : Nat) (width : Nat) (t : Nat)
  /-- `if (tK & m) == k goto target`. -/
  | ifEq (t : Nat) (m k : Word) (target : Nat)
  /-- `if (tK & m) != k goto target`. -/
  | ifNe (t : Nat) (m k : Word) (target : Nat)
  /-- `stop`: ends the program. -/
  | stop
deriving DecidableEq, Repr

/-- The state of the machine. Every field is plain data. -/
structure State where
  /-- The parameters, which no step changes (00_scope.md R5 to R7). -/
  cfg      : Config
  /-- CTRL.IEN (10_state.md R22). -/
  ien      : Bool
  /-- STATUS.BUSY (10_state.md R23, R33). -/
  phase    : Phase
  /-- STATUS.DONE (10_state.md R23). -/
  done     : Bool
  /-- STATUS.ERR (10_state.md R23). -/
  err      : Bool
  /-- STATUS.WERR (10_state.md R23). -/
  werr     : Bool
  /-- STATUS.ECODE (10_state.md R23). -/
  ecode    : BitVec 8
  /-- CMD (10_state.md R24). -/
  cmd      : Word
  /-- XBASE (10_state.md R25). -/
  xbase    : Word
  /-- XLEN (10_state.md R25). -/
  xlen     : Word
  /-- YBASE (10_state.md R25). -/
  ybase    : Word
  /-- YLEN (10_state.md R25). -/
  ylen     : Word
  /-- OBASE (10_state.md R26). -/
  obase    : Word
  /-- OCAP (10_state.md R26). -/
  ocap     : Word
  /-- ARG0 (10_state.md R27). -/
  arg0     : Word
  /-- ARG1 (10_state.md R27). -/
  arg1     : Word
  /-- RLEN (10_state.md R28). -/
  rlen     : Word
  /-- RNLEN (10_state.md R28). -/
  rnlen    : Word
  /-- RAUX (10_state.md R28). -/
  raux     : Word
  /-- LM and its written-since-power-on marks (10_state.md R31, R34). -/
  lm       : Memory
  /-- The model's own: the number of free values drawn so far (log 3). -/
  draws    : Nat
  /-- The host program (30_encoding.md R92, log 7). -/
  program  : List HostOp
  /-- The index of the host's next operation (log 7). -/
  hostPc   : Nat
  /-- The host temporaries tK that are not 0, by K in rising order (30_encoding.md R92, log 8). -/
  temps    : List (Nat × Word)
  /-- The model's own: host operations that may still run before the engine step of the command in flight
  (70_reset_and_hazards.md R256, log 6). -/
  delay    : Nat
  /-- The model's own: delays the environment has fixed for the next GO writes (log 6). -/
  schedule : List Nat
deriving DecidableEq, Repr

/-- Why the machine stops: the host faults of 60_exceptions.md R227. Each ends the run. -/
inductive Fault where
  /-- Raised by a CsrRead or CsrWrite with a number above 255: a bus error (20_memory.md R60). Safe. -/
  | busErrorCsr (n : Nat)
  /-- Raised by an LmRead or LmWrite at or above LM_LIMBS: a bus error (20_memory.md R60). Safe. -/
  | busErrorLm (i : Nat)
  /-- Raised by a byte access of the platform bus that is misaligned, has the wrong width or selects no register or
  limb: a bus error (20_memory.md R61; log 11). Safe. -/
  | busErrorAccess (addr : Nat) (width : Nat)
  /-- Raised by an LmRead, and by a command that reads an operand, at a limb never written since power-on
  (10_state.md R34, 60_exceptions.md R227). Safe. -/
  | neverWritten (i : Nat)
deriving DecidableEq, Repr

/-- Why the model refuses. No command and no host operation of the spec is refused. -/
inductive Refusal where
  /-- Raised by an arm of `exec` whose command has no meaning yet; no arm is left in that form. Safe. -/
  | notModelled (mnemonic : String)
deriving DecidableEq, Repr

/-- The outcome of one step of this machine. -/
abbrev StepResult := Host.Outcome State Fault Refusal

/-- Power-on with parameters `c` (70_reset_and_hazards.md R250): every register at its reset value, no limb written, the
engine IDLE. The host program is empty: the host's program comes from outside the machine (log 7). -/
def State.powerOn (c : Config) : State :=
  { cfg := c
    ien := false, phase := .idle, done := false, err := false, werr := false, ecode := 0
    cmd := 0, xbase := 0, xlen := 0, ybase := 0, ylen := 0, obase := 0, ocap := 0, arg0 := 0, arg1 := 0
    rlen := 0, rnlen := 0, raux := 0
    lm := []
    draws := 0, program := [], hostPc := 0, temps := [], delay := 0, schedule := [] }

/-- The machine right after power-on, with the sample parameters of log 1. -/
def State.reset : State := State.powerOn Config.sample

end Sys2Proof.Machine
end

