-- ==== Sys2Proof/Machine/Flags.lean ====
section
/-!
DEFINITION. The flag computations: the words STATUS, CTRL and ID read as, the interrupt line, the numbers of the error
codes, and the auxiliary results that RAUX carries (10_state.md R21 to R32, 92_eei_decisions.md D29).
-/
namespace Sys2Proof.Machine

/-- The number of an error code (60_exceptions.md R221). -/
def ErrorCode.number : ErrorCode → BitVec 8
  | .eopc => 1
  | .erm => 2
  | .eaddr => 3
  | .eempty => 4
  | .elen => 5
  | .eorder => 6
  | .ezero => 7
  | .ebits => 8
  | .edomain => 9
  | .einexact => 10
  | .ecap => 11

/-- One bit at position `k` of a word. -/
def flagBit (b : Bool) (k : Nat) : Word := if b then BitVec.ofNat 64 (2 ^ k) else 0

/-- STATUS.BUSY (10_state.md R23, R33). -/
def State.busy (s : State) : Bool := s.phase = .busy

/-- ID as it reads (10_state.md R21): W, version 1, LM_LIMBS. -/
def State.idWord (s : State) : Word :=
  BitVec.ofNat 64 (s.cfg.width.bits + 2 ^ 8 * 1 + 2 ^ 32 * s.cfg.lmLimbs)

/-- CTRL as it reads (10_state.md R22): only IEN, at bit 2. -/
def State.ctrlWord (s : State) : Word := flagBit s.ien 2

/-- STATUS as it reads (10_state.md R23). -/
def State.statusWord (s : State) : Word :=
  flagBit s.busy 0 ||| flagBit s.done 1 ||| flagBit s.err 2 ||| flagBit s.werr 3 ||| (s.ecode.setWidth 64 <<< 8)

/-- The interrupt line (10_state.md R32). -/
def State.irq (s : State) : Bool := s.done && s.ien

/-- The ordering code `Ord(a, b)` (42_round_mod.md R153). -/
def orderCode (a b : Nat) : Nat := if a = b then 0 else if a < b then 1 else 2

/-- `Ord(q * 2^k, x)` (42_round_mod.md R156, R157). -/
def orderShifted (q k x : Nat) : Nat :=
  if q ≠ 0 ∧ sigbits x < sigbits q + k then 2 else orderCode (mulPow2 q k) x

/-- The sticky bit of a right shift: a set bit was lost (41_shift.md R135). -/
def stickyFlag (x k : Nat) : Nat := if modPow2 x k = 0 then 0 else 1

/-- The carry limb of a sub-limb left shift of an `n`-limb number by `r` bits (41_shift.md R131). -/
def carryLimb (w n x r : Nat) : Nat := (x * 2 ^ r) / 2 ^ (w * n)

/-- The bits a sub-limb right shift by `r` shifts out, at the top of a limb (41_shift.md R137; log 13). -/
def shiftedOut (w x r : Nat) : Nat := (x % 2 ^ r) * 2 ^ (w - r)

/-- The zero flag of TWOS (43_twos_complement.md R171). -/
def zeroFlag (x : Nat) : Nat := if x = 0 then 1 else 0

/-- The select flag of the EITHER forms: 0 written into X, 1 written into Y (40_logic.md R104). -/
def selectFlag (xl yl : Nat) : Nat := if yl ≤ xl then 0 else 1

end Sys2Proof.Machine
end

