-- ==== Sys2Proof/Machine/Ops.lean ====
section
/-!
DEFINITION. The named operations over the limb memory, and the two completions of a command: success (00_scope.md R13,
60_exceptions.md R225) and error (60_exceptions.md R224), which is this machine's one exception operation. There is no
trap entry and no return from a trap (60_exceptions.md R230, R231); the acknowledgement is a STATUS write (Csr.lean).
-/
namespace Sys2Proof.Machine

/-! ### Cells in canonical form -/

/-- The canonical form of a cell list: keys strictly rising. -/
def Cells.wf : List (Nat × Word) → Bool
  | [] => true
  | [_] => true
  | c :: c' :: cs => decide (c.1 < c'.1) && Cells.wf (c' :: cs)

/-- The value listed at a key. -/
def Cells.get? : List (Nat × Word) → Nat → Option Word
  | [], _ => none
  | c :: cs, k => if c.1 = k then some c.2 else if k < c.1 then none else Cells.get? cs k

/-- The list with the value at a key replaced or inserted. -/
def Cells.put : List (Nat × Word) → Nat → Word → List (Nat × Word)
  | [], k, v => [(k, v)]
  | c :: cs, k, v =>
    if k < c.1 then (k, v) :: c :: cs else if c.1 = k then (k, v) :: cs else c :: Cells.put cs k v

/-- The list without a key. -/
def Cells.drop : List (Nat × Word) → Nat → List (Nat × Word)
  | [], _ => []
  | c :: cs, k => if k < c.1 then c :: cs else if c.1 = k then cs else c :: Cells.drop cs k

/-! ### The limb memory -/

/-- The canonical form of the limb memory. An unlisted limb has no value, so no entry can equal what an unlisted limb
reads as (log 2). -/
def Memory.wf (m : Memory) : Bool := Cells.wf m

/-- `LM[i]`, a number below `2^w`; none for a limb never written since power-on (10_state.md R31, R34). -/
def Memory.limb? (w : Nat) (m : Memory) (i : Nat) : Option Nat := (Cells.get? m i).map fun v => v.toNat % 2 ^ w

/-- `LM[i] <- v mod 2^w` (20_memory.md R60). -/
def Memory.setLimb (w : Nat) (m : Memory) (i v : Nat) : Memory := Cells.put m i (BitVec.ofNat 64 (v % 2 ^ w))

/-- `MemRead(a, n)`: the limbs of a region, least significant first (00_scope.md R11); or the index of the first limb
of it that was never written. -/
def Memory.read (w : Nat) (m : Memory) : Nat → Nat → Except Nat Nat
  | _, 0 => .ok 0
  | a, n + 1 =>
    match Memory.limb? w m a with
    | none => .error a
    | some lo =>
      match Memory.read w m (a + 1) n with
      | .error i => .error i
      | .ok hi => .ok (lo + 2 ^ w * hi)

/-- `MemWrite(a, n, v)` (00_scope.md R11). -/
def Memory.write (w : Nat) (m : Memory) : Nat → Nat → Nat → Memory
  | _, 0, _ => m
  | a, n + 1, v => Memory.write w (Memory.setLimb w m a (v % 2 ^ w)) (a + 1) n (v / 2 ^ w)

/-- `n` limbs from `a` on take free values, the first of them free value number `k` (20_memory.md R66, log 3). The limbs
count as written (92_eei_decisions.md D40). -/
def Memory.drawRegion (w : Nat) (m : Memory) : Nat → Nat → Nat → Memory
  | _, 0, _ => m
  | a, n + 1, k => Memory.drawRegion w (Memory.setLimb w m a (Config.freeLimb k).toNat) (a + 1) n (k + 1)

/-! ### Parameters and limbs of a state -/

/-- W of this engine (00_scope.md R5). -/
def State.w (s : State) : Nat := s.cfg.width.bits

/-- `LM[i]` of a state; none for a limb never written. -/
def State.limb? (s : State) (i : Nat) : Option Nat := Memory.limb? s.w s.lm i

/-! ### The two completions of a command -/

/-- What a command rule gives when it does not raise: the result length L, the value v of the result, the auxiliary
result, and how many free values it used. The value stands behind a function so that L alone decides ECAP
(60_exceptions.md R226). -/
structure CmdResult where
  /-- L. -/
  len   : Nat
  /-- v. -/
  value : Unit → Nat
  /-- aux. -/
  aux   : Nat
  /-- Free values used by the rule. -/
  drawn : Nat := 0

/-- Error completion (60_exceptions.md R224): the one thing that raising a code does. -/
def State.completeError (s : State) (c : ErrorCode) : State :=
  { s with rlen := 0, rnlen := 0, raux := 0, ecode := c.number, err := true, done := true, phase := .idle }

/-- Success completion (60_exceptions.md R225). -/
def State.completeSuccess (s : State) : State :=
  { s with ecode := 0, err := false, done := true, phase := .idle }

/-- `raise Error(CODE)` (00_scope.md R13). -/
def raiseError (c : ErrorCode) (s : State) : StepResult := .next (s.completeError c)

/-- `Commit(d, cap, L, v, aux)` (00_scope.md R13): L result limbs, then a free value in each tail limb, then the result
registers, then the completion. -/
def State.commit (s : State) (d cap : Nat) (o : CmdResult) : State :=
  let v := o.value ()
  let first := s.draws + o.drawn
  let lm := Memory.drawRegion s.w (Memory.write s.w s.lm d o.len v) (d + o.len) (cap - o.len) first
  State.completeSuccess
    { s with
      lm := lm
      draws := first + (cap - o.len)
      rlen := BitVec.ofNat 64 o.len
      rnlen := BitVec.ofNat 64 (nlen s.w v)
      raux := BitVec.ofNat 64 o.aux }

/-- A command word that stands for no command raises EOPC (30_encoding.md R81, R85, R88). -/
def rejectCommand (s : State) : StepResult := raiseError .eopc s

end Sys2Proof.Machine
end

