-- ==== Sys2Proof/Syntax.lean ====
section
/-!
DEFINITION. The commands of the engine: one constructor per row of spec/opcode_table.json (30_encoding.md R81).
Operands are control registers, not fields of the command word (R80, R87), so only the two commands that read RM and
NEG carry anything.
-/
namespace Sys2Proof

/-- A command of the engine. -/
inductive Instr where
  | nop
  | andSl | and | andIpl | andIpe
  | orSl | or | orIpl | orIpe
  | xorSl | xor | xorIpl | xorIpe
  | shl | shlIp | shlSub | shlc | shr | shrIp | shrSub
  | modp | negmodp
  | shrRound (rm : RmField) (neg : Bool)
  | rtm (rm : RmField) (neg : Bool)
  | twos
  | xorNn | xorNnIpl | xorNnIpe | xorPn | xorPln | xorNln
  | getbP | getbN | asgbP | asgbN
  | mul | mullo | modpmul | mulmodBnm1 | mulmodBnp1
deriving DecidableEq, Repr

end Sys2Proof
end

