-- ==== Sys2Proof/Machine/Operands.lean ====
section
/-!
DEFINITION. Operand assembly: what each command reads and where it writes (30_encoding.md R87), the destination kinds and
region checks (20_memory.md R63, R64), and the straight line every command runs through (30_encoding.md R88).
-/
namespace Sys2Proof.Machine

/-- The destination kinds (20_memory.md R63); `none` for NOP. -/
inductive DestKind where
  | none | out | ipl | self | either
deriving DecidableEq, Repr

/-- One row of the operand table (30_encoding.md R87). -/
structure Row where
  /-- The command reads region X. -/
  readsX : Bool
  /-- The command reads region Y. -/
  readsY : Bool
  /-- Its destination kind. -/
  dest   : DestKind
deriving DecidableEq, Repr

/-- The operand table (30_encoding.md R87). -/
def rowOf : Instr → Row
  | .nop => ⟨false, false, .none⟩
  | .andSl => ⟨true, true, .out⟩
  | .and => ⟨true, true, .out⟩
  | .andIpl => ⟨true, true, .ipl⟩
  | .andIpe => ⟨true, true, .either⟩
  | .orSl => ⟨true, true, .out⟩
  | .or => ⟨true, true, .out⟩
  | .orIpl => ⟨true, true, .ipl⟩
  | .orIpe => ⟨true, true, .either⟩
  | .xorSl => ⟨true, true, .out⟩
  | .xor => ⟨true, true, .out⟩
  | .xorIpl => ⟨true, true, .ipl⟩
  | .xorIpe => ⟨true, true, .either⟩
  | .shl => ⟨true, false, .out⟩
  | .shlIp => ⟨true, false, .ipl⟩
  | .shlSub => ⟨true, false, .self⟩
  | .shlc => ⟨true, false, .out⟩
  | .shr => ⟨true, false, .out⟩
  | .shrIp => ⟨true, false, .self⟩
  | .shrSub => ⟨true, false, .self⟩
  | .modp => ⟨true, false, .out⟩
  | .negmodp => ⟨true, false, .out⟩
  | .shrRound _ _ => ⟨true, false, .out⟩
  | .rtm _ _ => ⟨true, false, .out⟩
  | .twos => ⟨true, false, .out⟩
  | .xorNn => ⟨true, true, .out⟩
  | .xorNnIpl => ⟨true, true, .ipl⟩
  | .xorNnIpe => ⟨true, true, .either⟩
  | .xorPn => ⟨true, true, .out⟩
  | .xorPln => ⟨true, false, .out⟩
  | .xorNln => ⟨true, false, .out⟩
  | .getbP => ⟨true, false, .out⟩
  | .getbN => ⟨true, false, .out⟩
  | .asgbP => ⟨true, true, .ipl⟩
  | .asgbN => ⟨true, true, .ipl⟩
  | .mul => ⟨true, true, .out⟩
  | .mullo => ⟨true, true, .out⟩
  | .modpmul => ⟨true, true, .out⟩
  | .mulmodBnm1 => ⟨true, true, .out⟩
  | .mulmodBnp1 => ⟨true, true, .out⟩

/-- The first limb of the destination (20_memory.md R63). -/
def destBase (k : DestKind) (s : State) : Nat :=
  match k with
  | .none => 0
  | .out => s.obase.toNat
  | .ipl => s.xbase.toNat
  | .self => s.xbase.toNat
  | .either => if s.ylen.toNat ≤ s.xlen.toNat then s.xbase.toNat else s.ybase.toNat

/-- The capacity of the destination in limbs (20_memory.md R63). -/
def destCap (k : DestKind) (s : State) : Nat :=
  match k with
  | .none => 0
  | .out => s.ocap.toNat
  | .ipl => s.ocap.toNat
  | .self => s.xlen.toNat
  | .either => if s.ylen.toNat ≤ s.xlen.toNat then s.xlen.toNat else s.ylen.toNat

/-- A region lies in LM, computed without overflow (20_memory.md R64). -/
def inLm (s : State) (base len : Nat) : Bool := base + len ≤ s.cfg.lmLimbs

/-- Every region the command uses lies in LM: X if it reads X, Y if it reads Y, and its destination (20_memory.md R64). -/
def regionsInLm (r : Row) (s : State) : Bool :=
  (!r.readsX || inLm s s.xbase.toNat s.xlen.toNat) &&
  (!r.readsY || inLm s s.ybase.toNat s.ylen.toNat) &&
  inLm s (destBase r.dest s) (destCap r.dest s)

/-- What a command's rule sees (00_scope.md R12). -/
structure Operands where
  /-- W. -/
  w    : Nat
  /-- XL. -/
  xl   : Nat
  /-- YL. -/
  yl   : Nat
  /-- The value of region X; 0 where the command does not read it. -/
  x    : Nat
  /-- The value of region Y; 0 where the command does not read it. -/
  y    : Nat
  /-- A0. -/
  a0   : Nat
  /-- A1. -/
  a1   : Nat
  /-- The capacity of the destination. -/
  cap  : Nat
  /-- A free choice, read by MULMOD_BNM1 only (log 4). -/
  pick : Bool
deriving DecidableEq, Repr

/-- A command's own rule: an error code of 4 to 10, or a result. -/
abbrev Rule := Operands → Except ErrorCode CmdResult

/-- The limb operand `ARG1[W-1:0]`; the higher bits are ignored (10_state.md R27). -/
def Operands.limbArg (o : Operands) : Nat := o.a1 % 2 ^ o.w

/-- An operand region's value if the command reads it (20_memory.md R65), or the index of a limb never written. -/
def readIf (reads : Bool) (s : State) (base len : Nat) : Except Nat Nat :=
  if reads then Memory.read s.w s.lm base len else .ok 0

/-- The operands of a command: X is read first, then Y (30_encoding.md R88). -/
def readOperands (r : Row) (s : State) : Except Nat Operands :=
  match readIf r.readsX s s.xbase.toNat s.xlen.toNat with
  | .error i => .error i
  | .ok x =>
    match readIf r.readsY s s.ybase.toNat s.ylen.toNat with
    | .error i => .error i
    | .ok y =>
      .ok { w := s.w, xl := s.xlen.toNat, yl := s.ylen.toNat, x := x, y := y, a0 := s.arg0.toNat, a1 := s.arg1.toNat,
            cap := destCap r.dest s, pick := Config.freePick s.draws }

/-- The straight line of every command (30_encoding.md R88), after the checks of the command word: the region checks
(EADDR), the operand reads, the command's own rule (codes 4 to 10), ECAP, Commit. A limb never written that the command
reads as an operand is a host fault (60_exceptions.md R227; log 12). -/
def runCommand (r : Row) (rule : Rule) (s : State) : StepResult :=
  if regionsInLm r s then
    match readOperands r s with
    | .error i => .fault (.neverWritten i)
    | .ok o =>
      match rule o with
      | .error c => raiseError c s
      | .ok res =>
        if res.len ≤ destCap r.dest s then .next (s.commit (destBase r.dest s) (destCap r.dest s) res)
        else raiseError .ecap s
  else raiseError .eaddr s

end Sys2Proof.Machine
end

