-- ==== Sys2Proof/Machine/Logic.lean ====
section
/-!
DEFINITION. The logic unit: AND, OR and XOR in four forms each (40_logic.md). The value is the operator on the operand
values, the shorter operand zero-extended (R100).
-/
namespace Sys2Proof.Machine

/-- A bitwise operator on values (00_scope.md R10). -/
abbrev BitOp := Nat → Nat → Nat

/-- The same-length form (R101, R105, R109): ELEN unless XL = YL. -/
def sameLengthRule (f : BitOp) : Rule := fun o =>
  if o.xl ≠ o.yl then .error .elen else .ok { len := o.xl, value := fun _ => f o.x o.y, aux := 0 }

/-- The general form, and the in-place-left form, which differ in the destination only (R102, R103 and their like). -/
def generalRule (f : BitOp) : Rule := fun o =>
  .ok { len := max o.xl o.yl, value := fun _ => f o.x o.y, aux := 0 }

/-- The in-place-either form: RAUX tells which operand was written (R104, R108, R112). -/
def eitherRule (f : BitOp) : Rule := fun o =>
  .ok { len := max o.xl o.yl, value := fun _ => f o.x o.y, aux := selectFlag o.xl o.yl }

/-- AND_SL, R101. -/
def execAndSl (s : State) : StepResult := runCommand (rowOf .andSl) (sameLengthRule (· &&& ·)) s

/-- AND, R102. -/
def execAnd (s : State) : StepResult := runCommand (rowOf .and) (generalRule (· &&& ·)) s

/-- AND_IPL, R103. -/
def execAndIpl (s : State) : StepResult := runCommand (rowOf .andIpl) (generalRule (· &&& ·)) s

/-- AND_IPE, R104. -/
def execAndIpe (s : State) : StepResult := runCommand (rowOf .andIpe) (eitherRule (· &&& ·)) s

/-- OR_SL, R105. -/
def execOrSl (s : State) : StepResult := runCommand (rowOf .orSl) (sameLengthRule (· ||| ·)) s

/-- OR, R106. -/
def execOr (s : State) : StepResult := runCommand (rowOf .or) (generalRule (· ||| ·)) s

/-- OR_IPL, R107. -/
def execOrIpl (s : State) : StepResult := runCommand (rowOf .orIpl) (generalRule (· ||| ·)) s

/-- OR_IPE, R108. -/
def execOrIpe (s : State) : StepResult := runCommand (rowOf .orIpe) (eitherRule (· ||| ·)) s

/-- XOR_SL, R109. -/
def execXorSl (s : State) : StepResult := runCommand (rowOf .xorSl) (sameLengthRule (· ^^^ ·)) s

/-- XOR, R110. -/
def execXor (s : State) : StepResult := runCommand (rowOf .xor) (generalRule (· ^^^ ·)) s

/-- XOR_IPL, R111. -/
def execXorIpl (s : State) : StepResult := runCommand (rowOf .xorIpl) (generalRule (· ^^^ ·)) s

/-- XOR_IPE, R112. -/
def execXorIpe (s : State) : StepResult := runCommand (rowOf .xorIpe) (eitherRule (· ^^^ ·)) s

end Sys2Proof.Machine
end

