-- ==== Sys2Proof/Machine/ModMul.lean ====
section
/-!
DEFINITION. The multiply kernel (44_modmul.md). The choice of algorithm is not observable (R203, R205), so each rule is
the value its pseudocode fixes.
-/
namespace Sys2Proof.Machine

/-- MUL (R200). -/
def mulRule : Rule := fun o => .ok { len := o.xl + o.yl, value := fun _ => o.x * o.y, aux := 0 }

/-- MULLO (R201). -/
def mulloRule : Rule := fun o =>
  if o.xl ≠ o.yl then .error .elen
  else .ok { len := o.xl, value := fun _ => (o.x * o.y) % 2 ^ (o.w * o.xl), aux := 0 }

/-- MODPMUL (R202): `x >= 2^pow` is `pow < sigbits(x)`. -/
def modpmulRule : Rule := fun o =>
  if o.a0 < sigbits o.x ∨ o.a0 < sigbits o.y then .error .edomain
  else
    .ok { len := min (o.xl + o.yl) (ceilDiv o.a0 o.w), value := fun _ => modPow2 (o.x * o.y) o.a0, aux := 0 }

/-- The checks the two products mod B^n - 1 and mod B^n + 1 share (R204, R206). -/
def ringChecks (o : Operands) : Option ErrorCode :=
  if o.xl = 0 ∨ o.yl = 0 then some .eempty
  else if o.xl < o.yl then some .eorder
  else if o.a0 = 0 then some .edomain
  else none

/-- The residue mod `m` as MULMOD_BNM1 writes it: a residue of 0 is written as 0 or as `m`, by a free choice (R204,
log 4). -/
def bnm1Value (p m : Nat) (pick : Bool) : Nat :=
  if p % m ≠ 0 then p % m else if pick then m else 0

/-- MULMOD_BNM1 (R204). One free choice is used, whether or not the residue is 0. -/
def mulmodBnm1Rule : Rule := fun o =>
  match ringChecks o with
  | some c => .error c
  | none =>
    .ok { len := o.a0, value := fun _ => bnm1Value (o.x * o.y) (2 ^ (o.w * o.a0) - 1) o.pick, aux := 0, drawn := 1 }

/-- MULMOD_BNP1 (R206). -/
def mulmodBnp1Rule : Rule := fun o =>
  match ringChecks o with
  | some c => .error c
  | none => .ok { len := o.a0 + 1, value := fun _ => (o.x * o.y) % (2 ^ (o.w * o.a0) + 1), aux := 0 }

/-- MUL, R200. -/
def execMul (s : State) : StepResult := runCommand (rowOf .mul) mulRule s

/-- MULLO, R201. -/
def execMullo (s : State) : StepResult := runCommand (rowOf .mullo) mulloRule s

/-- MODPMUL, R202. -/
def execModpmul (s : State) : StepResult := runCommand (rowOf .modpmul) modpmulRule s

/-- MULMOD_BNM1, R204. -/
def execMulmodBnm1 (s : State) : StepResult := runCommand (rowOf .mulmodBnm1) mulmodBnm1Rule s

/-- MULMOD_BNP1, R206. -/
def execMulmodBnp1 (s : State) : StepResult := runCommand (rowOf .mulmodBnp1) mulmodBnp1Rule s

end Sys2Proof.Machine
end

