-- ==== Sys2Proof/Machine/Nop.lean ====
section
/-!
DEFINITION. NOP (30_encoding.md R90).
-/
namespace Sys2Proof.Machine

/-- `Commit(0, 0, 0, 0, 0)` (R90). -/
def nopRule : Rule := fun _ => .ok { len := 0, value := fun _ => 0, aux := 0 }

/-- NOP, R90. -/
def execNop (s : State) : StepResult := runCommand (rowOf .nop) nopRule s

end Sys2Proof.Machine
end

