-- ==== Sys2Proof/Machine/RoundMod.lean ====
section
/-!
DEFINITION. Rounding and mod 2^k (42_round_mod.md).
-/
namespace Sys2Proof.Machine

/-- The four effective modes (R151). -/
inductive EffMode where
  | down | up | nearest | exact
deriving DecidableEq, Repr

/-- `Eff(rm, neg)` (R152). -/
def effMode (m : RoundMode) (neg : Bool) : EffMode :=
  match m, neg with
  | .down, _ => .down
  | .up, _ => .up
  | .floor, false => .down
  | .floor, true => .up
  | .ceiling, false => .up
  | .ceiling, true => .down
  | .nearest, _ => .nearest
  | .exact, _ => .exact

/-- `RoundQ(x, b, Nearest)` (R151): by the discarded bits against half a unit, ties to even. -/
def roundNearest (x b : Nat) : Nat :=
  let q := divPow2 x b
  if b = 0 then q
  else
    match cmpPow2 (modPow2 x b) (b - 1) with
    | .lt => q
    | .gt => q + 1
    | .eq => q + q % 2

/-- `RoundQ(x, b, m)` (R151). -/
def roundQ (x b : Nat) (m : EffMode) : Except ErrorCode Nat :=
  match m with
  | .down => .ok (divPow2 x b)
  | .up => .ok (divPow2 x b + (if modPow2 x b ≠ 0 then 1 else 0))
  | .nearest => .ok (roundNearest x b)
  | .exact => if modPow2 x b ≠ 0 then .error .einexact else .ok (divPow2 x b)

/-- MODP (R154). -/
def modpRule : Rule := fun o =>
  .ok { len := min o.xl (ceilDiv o.a0 o.w), value := fun _ => modPow2 o.x o.a0, aux := 0 }

/-- NEGMODP (R155). -/
def negmodpRule : Rule := fun o =>
  .ok { len := ceilDiv o.a0 o.w, value := fun _ => (2 ^ o.a0 - modPow2 o.x o.a0) % 2 ^ o.a0, aux := 0 }

/-- SHR_ROUND with a legal mode (R156). -/
def shrRoundRule (m : RoundMode) (neg : Bool) : Rule := fun o =>
  match roundQ o.x o.a0 (effMode m neg) with
  | .error c => .error c
  | .ok v =>
    let lf := o.xl - o.a0 / o.w
    .ok { len := if v < 2 ^ (o.w * lf) then lf else lf + 1, value := fun _ => v, aux := orderShifted v o.a0 o.x }

/-- RTM with a legal mode (R157). -/
def rtmRule (m : RoundMode) (neg : Bool) : Rule := fun o =>
  match roundQ o.x o.a0 (effMode m neg) with
  | .error c => .error c
  | .ok q =>
    .ok { len := max o.xl (nlenShifted o.w q o.a0), value := fun _ => mulPow2 q o.a0
          aux := orderShifted q o.a0 o.x }

/-- MODP, R154. -/
def execModp (s : State) : StepResult := runCommand (rowOf .modp) modpRule s

/-- NEGMODP, R155. -/
def execNegmodp (s : State) : StepResult := runCommand (rowOf .negmodp) negmodpRule s

/-- SHR_ROUND, R156. RM = 6 or 7 raises ERM before any other check but EOPC (30_encoding.md R83, R88). -/
def execShrRound (rm : RmField) (neg : Bool) (s : State) : StepResult :=
  match rm with
  | .mode m => runCommand (rowOf (.shrRound rm neg)) (shrRoundRule m neg) s
  | .reserved6 => raiseError .erm s
  | .reserved7 => raiseError .erm s

/-- RTM, R157. RM = 6 or 7 raises ERM before any other check but EOPC (30_encoding.md R83, R88). -/
def execRtm (rm : RmField) (neg : Bool) (s : State) : StepResult :=
  match rm with
  | .mode m => runCommand (rowOf (.rtm rm neg)) (rtmRule m neg) s
  | .reserved6 => raiseError .erm s
  | .reserved7 => raiseError .erm s

end Sys2Proof.Machine
end

