-- ==== Sys2Proof/Machine/Shift.lean ====
section
/-!
DEFINITION. The shift engine (41_shift.md). A count splits into `q = bits div W` whole limbs and `r = bits mod W` bits
(R130).
-/
namespace Sys2Proof.Machine

/-- The count of a sub-limb-only shift is legal: 1 to W-1 (R130). -/
def subLimbCount (o : Operands) : Bool := 1 ≤ o.a0 && o.a0 ≤ o.w - 1

/-- SHL and SHL_IP (R131, R132). -/
def shlRule : Rule := fun o =>
  let c := carryLimb o.w o.xl o.x (o.a0 % o.w)
  .ok { len := o.xl + o.a0 / o.w + (if c ≠ 0 then 1 else 0), value := fun _ => mulPow2 o.x o.a0, aux := c }

/-- SHL_SUB (R133). -/
def shlSubRule : Rule := fun o =>
  if subLimbCount o then
    .ok { len := o.xl, value := fun _ => (o.x * 2 ^ o.a0) % 2 ^ (o.w * o.xl), aux := carryLimb o.w o.xl o.x o.a0 }
  else .error .ebits

/-- SHLC (R134; the conventions of 92_eei_decisions.md D28, log 13). -/
def shlcRule : Rule := fun o =>
  if subLimbCount o then
    .ok { len := o.xl
          value := fun _ => notBits (o.w * o.xl) ((o.x * 2 ^ o.a0) % 2 ^ (o.w * o.xl))
          aux := carryLimb o.w o.xl o.x o.a0 }
  else .error .ebits

/-- SHR and SHR_IP (R135, R136). -/
def shrRule : Rule := fun o =>
  .ok { len := o.xl - o.a0 / o.w, value := fun _ => divPow2 o.x o.a0, aux := stickyFlag o.x o.a0 }

/-- SHR_SUB (R137; the conventions of 92_eei_decisions.md D28, log 13). -/
def shrSubRule : Rule := fun o =>
  if subLimbCount o then
    .ok { len := o.xl, value := fun _ => o.x / 2 ^ o.a0, aux := shiftedOut o.w o.x o.a0 }
  else .error .ebits

/-- SHL, R131. -/
def execShl (s : State) : StepResult := runCommand (rowOf .shl) shlRule s

/-- SHL_IP, R132. -/
def execShlIp (s : State) : StepResult := runCommand (rowOf .shlIp) shlRule s

/-- SHL_SUB, R133. -/
def execShlSub (s : State) : StepResult := runCommand (rowOf .shlSub) shlSubRule s

/-- SHLC, R134. -/
def execShlc (s : State) : StepResult := runCommand (rowOf .shlc) shlcRule s

/-- SHR, R135. -/
def execShr (s : State) : StepResult := runCommand (rowOf .shr) shrRule s

/-- SHR_IP, R136. -/
def execShrIp (s : State) : StepResult := runCommand (rowOf .shrIp) shrRule s

/-- SHR_SUB, R137. -/
def execShrSub (s : State) : StepResult := runCommand (rowOf .shrSub) shrSubRule s

end Sys2Proof.Machine
end

