-- ==== Sys2Proof/Machine/TwosComplement.lean ====
section
/-!
DEFINITION. The two's-complement unit (43_twos_complement.md). A negative number is held as its magnitude; results are
magnitudes.
-/
namespace Sys2Proof.Machine

/-- TWOS (R171). -/
def twosRule : Rule := fun o =>
  .ok { len := o.xl, value := fun _ => (2 ^ (o.w * o.xl) - o.x) % 2 ^ (o.w * o.xl), aux := zeroFlag o.x }

/-- XOR_NN and its in-place-left form (R172, R173), and with a select flag the in-place-either form (R174). -/
def xorNnRule (aux : Operands → Nat) : Rule := fun o =>
  if o.xl = 0 ∨ o.yl = 0 then .error .eempty
  else if o.x = 0 ∨ o.y = 0 then .error .ezero
  else .ok { len := max o.xl o.yl, value := fun _ => (o.x - 1) ^^^ (o.y - 1), aux := aux o }

/-- The magnitude of a non-negative number XOR a negative one, in `lb` limbs or one more where the + 1 carries out
(R175, R176). -/
def xorPosNeg (w lb x y : Nat) : CmdResult :=
  let v := (x ^^^ (y - 1)) + 1
  { len := if v < 2 ^ (w * lb) then lb else lb + 1, value := fun _ => v, aux := 0 }

/-- XOR_PN (R175). -/
def xorPnRule : Rule := fun o =>
  if o.yl = 0 then .error .eempty
  else if o.y = 0 then .error .ezero
  else .ok (xorPosNeg o.w (max o.xl o.yl) o.x o.y)

/-- XOR_PLN (R176). -/
def xorPlnRule : Rule := fun o =>
  if o.limbArg = 0 then .error .ezero else .ok (xorPosNeg o.w (max o.xl 1) o.x o.limbArg)

/-- XOR_NLN (R177). -/
def xorNlnRule : Rule := fun o =>
  if o.xl = 0 then .error .eempty
  else if o.x = 0 ∨ o.limbArg = 0 then .error .ezero
  else .ok { len := o.xl, value := fun _ => (o.x - 1) ^^^ (o.limbArg - 1), aux := 0 }

/-- GETB_P (R178). -/
def getbPRule : Rule := fun o =>
  if o.a1 < o.a0 then .error .edomain
  else .ok { len := ceilDiv (o.a1 - o.a0) o.w, value := fun _ => modPow2 (divPow2 o.x o.a0) (o.a1 - o.a0), aux := 0 }

/-- GETB_N (R179). The bits [start, end) of TC(x) are the complements of those of `x - 1` (00_scope.md R15), so no number
of `end` bits is built; Laws/Arith.lean proves that this is R179's value. -/
def getbNRule : Rule := fun o =>
  if o.xl = 0 then .error .eempty
  else if o.x = 0 then .error .ezero
  else if o.a1 < o.a0 then .error .edomain
  else
    .ok { len := ceilDiv (o.a1 - o.a0) o.w
          value := fun _ => notBits (o.a1 - o.a0) (divPow2 (o.x - 1) o.a0)
          aux := 0 }

/-- `p` with its bits [start, end) replaced by the number `m`: the shared bit-assignment helper (R180, R181). -/
def spliceBits (p m start fin : Nat) : Nat := p - modPow2 p fin + modPow2 p start + mulPow2 m start

/-- The bits placed at `start`, `n` significant bits of them and not all zero, reach past `k` bits. The result then
cannot fit `k` bits, whatever the rest is (60_exceptions.md R226). -/
def reachesPast (k start n : Nat) : Bool := n ≠ 0 && k < start + n

/-- ASGB_P (R180). -/
def asgbPRule : Rule := fun o =>
  if o.a1 < o.a0 then .error .edomain
  else
    let u := modPow2 o.y (o.a1 - o.a0)
    if reachesPast (o.w * o.cap) o.a0 (sigbits u) then .error .ecap
    else
      let v := spliceBits o.x u o.a0 o.a1
      .ok { len := max o.xl (nlen o.w v), value := fun _ => v, aux := 0 }

/-- ASGB_N (R181): the complemented bits go into `x - 1`, then 1 is added back. -/
def asgbNRule : Rule := fun o =>
  if o.xl = 0 then .error .eempty
  else if o.x = 0 then .error .ezero
  else if o.a1 < o.a0 then .error .edomain
  else
    let u := modPow2 o.y (o.a1 - o.a0)
    if reachesPast (o.w * o.cap) o.a0 (sigbitsNot (o.a1 - o.a0) u) then .error .ecap
    else
      let v := spliceBits (o.x - 1) (notBits (o.a1 - o.a0) u) o.a0 o.a1 + 1
      .ok { len := max o.xl (nlen o.w v), value := fun _ => v, aux := 0 }

/-- TWOS, R171. -/
def execTwos (s : State) : StepResult := runCommand (rowOf .twos) twosRule s

/-- XOR_NN, R172. -/
def execXorNn (s : State) : StepResult := runCommand (rowOf .xorNn) (xorNnRule fun _ => 0) s

/-- XOR_NN_IPL, R173. -/
def execXorNnIpl (s : State) : StepResult := runCommand (rowOf .xorNnIpl) (xorNnRule fun _ => 0) s

/-- XOR_NN_IPE, R174. -/
def execXorNnIpe (s : State) : StepResult :=
  runCommand (rowOf .xorNnIpe) (xorNnRule fun o => selectFlag o.xl o.yl) s

/-- XOR_PN, R175. -/
def execXorPn (s : State) : StepResult := runCommand (rowOf .xorPn) xorPnRule s

/-- XOR_PLN, R176. -/
def execXorPln (s : State) : StepResult := runCommand (rowOf .xorPln) xorPlnRule s

/-- XOR_NLN, R177. -/
def execXorNln (s : State) : StepResult := runCommand (rowOf .xorNln) xorNlnRule s

/-- GETB_P, R178. -/
def execGetbP (s : State) : StepResult := runCommand (rowOf .getbP) getbPRule s

/-- GETB_N, R179. -/
def execGetbN (s : State) : StepResult := runCommand (rowOf .getbN) getbNRule s

/-- ASGB_P, R180. -/
def execAsgbP (s : State) : StepResult := runCommand (rowOf .asgbP) asgbPRule s

/-- ASGB_N, R181. -/
def execAsgbN (s : State) : StepResult := runCommand (rowOf .asgbN) asgbNRule s

end Sys2Proof.Machine
end

