-- ==== Sys2Proof/Machine/Dispatch.lean ====
section
/-!
DEFINITION. The dispatch: one arm per command, each a direct call of its meaning.
-/
namespace Sys2Proof.Machine

def exec (i : Instr) (s : State) : Host.Outcome State Fault Refusal :=
  match i with
  | .nop => Sys2Proof.Machine.execNop s
  | .andSl => Sys2Proof.Machine.execAndSl s
  | .and => Sys2Proof.Machine.execAnd s
  | .andIpl => Sys2Proof.Machine.execAndIpl s
  | .andIpe => Sys2Proof.Machine.execAndIpe s
  | .orSl => Sys2Proof.Machine.execOrSl s
  | .or => Sys2Proof.Machine.execOr s
  | .orIpl => Sys2Proof.Machine.execOrIpl s
  | .orIpe => Sys2Proof.Machine.execOrIpe s
  | .xorSl => Sys2Proof.Machine.execXorSl s
  | .xor => Sys2Proof.Machine.execXor s
  | .xorIpl => Sys2Proof.Machine.execXorIpl s
  | .xorIpe => Sys2Proof.Machine.execXorIpe s
  | .shl => Sys2Proof.Machine.execShl s
  | .shlIp => Sys2Proof.Machine.execShlIp s
  | .shlSub => Sys2Proof.Machine.execShlSub s
  | .shlc => Sys2Proof.Machine.execShlc s
  | .shr => Sys2Proof.Machine.execShr s
  | .shrIp => Sys2Proof.Machine.execShrIp s
  | .shrSub => Sys2Proof.Machine.execShrSub s
  | .modp => Sys2Proof.Machine.execModp s
  | .negmodp => Sys2Proof.Machine.execNegmodp s
  | .shrRound rm neg => Sys2Proof.Machine.execShrRound rm neg s
  | .rtm rm neg => Sys2Proof.Machine.execRtm rm neg s
  | .twos => Sys2Proof.Machine.execTwos s
  | .xorNn => Sys2Proof.Machine.execXorNn s
  | .xorNnIpl => Sys2Proof.Machine.execXorNnIpl s
  | .xorNnIpe => Sys2Proof.Machine.execXorNnIpe s
  | .xorPn => Sys2Proof.Machine.execXorPn s
  | .xorPln => Sys2Proof.Machine.execXorPln s
  | .xorNln => Sys2Proof.Machine.execXorNln s
  | .getbP => Sys2Proof.Machine.execGetbP s
  | .getbN => Sys2Proof.Machine.execGetbN s
  | .asgbP => Sys2Proof.Machine.execAsgbP s
  | .asgbN => Sys2Proof.Machine.execAsgbN s
  | .mul => Sys2Proof.Machine.execMul s
  | .mullo => Sys2Proof.Machine.execMullo s
  | .modpmul => Sys2Proof.Machine.execModpmul s
  | .mulmodBnm1 => Sys2Proof.Machine.execMulmodBnm1 s
  | .mulmodBnp1 => Sys2Proof.Machine.execMulmodBnp1 s

end Sys2Proof.Machine
end

