-- ==== Sys2Proof/WellFormed.lean ====
section
/-!
DEFINITION. Which commands are legal as encodings. The illegal encodings are a reserved OP and a reserved bit, which
no term of `Instr` stands for, and RM = 6 or 7 in SHR_ROUND and RTM (30_encoding.md R85), which is the one check here.
-/
namespace Sys2Proof

/-- RM names one of the six modes (30_encoding.md R83). -/
def RmField.legal : RmField → Bool
  | .mode _ => true
  | .reserved6 => false
  | .reserved7 => false

/-- A legal command (30_encoding.md R85). An ill-formed one still has an effect: it raises ERM. -/
def Instr.wellFormed : Instr → Bool
  | .shrRound rm _ => rm.legal
  | .rtm rm _ => rm.legal
  | _ => true

end Sys2Proof
end

