-- ==== Sys2Proof/Decode.lean ====
section
/-!
DEFINITION. The decoder of the command word, total on every 64-bit word and on every list of bytes, and the encoder.
-/
namespace Sys2Proof

/-- Why a command word stands for no command. Both of the first two raise EOPC (30_encoding.md R85). -/
inductive DecodeReject where
  /-- A bit of CMD[63:12] is 1. -/
  | reservedBits
  /-- OP is none of the 40 opcodes. -/
  | reservedOp
  /-- Not eight bytes: there is one length only (30_encoding.md R80). -/
  | notOneWord
deriving DecidableEq, Repr

/-- OP = CMD[7:0] (30_encoding.md R80). -/
def cmdOp (w : Word) : BitVec 8 := w.extractLsb' 0 8

/-- RM = CMD[10:8]. -/
def cmdRm (w : Word) : BitVec 3 := w.extractLsb' 8 3

/-- NEG = CMD[11]. -/
def cmdNeg (w : Word) : Bool := w.getLsbD 11

/-- CMD[63:12], which must be 0. -/
def cmdReserved (w : Word) : BitVec 52 := w.extractLsb' 12 52

/-- The RM encoding (30_encoding.md R83). -/
def decodeRm (b : BitVec 3) : RmField :=
  match b.toNat with
  | 0 => .mode .down
  | 1 => .mode .up
  | 2 => .mode .floor
  | 3 => .mode .ceiling
  | 4 => .mode .nearest
  | 5 => .mode .exact
  | 6 => .reserved6
  | _ => .reserved7

/-- The opcode map (30_encoding.md R81). Every OP value it does not list is reserved. -/
def decodeOp (op : BitVec 8) (rm : RmField) (neg : Bool) : Option Instr :=
  match op.toNat with
  | 0x00 => some .nop
  | 0x10 => some .andSl
  | 0x11 => some .and
  | 0x12 => some .andIpl
  | 0x13 => some .andIpe
  | 0x14 => some .orSl
  | 0x15 => some .or
  | 0x16 => some .orIpl
  | 0x17 => some .orIpe
  | 0x18 => some .xorSl
  | 0x19 => some .xor
  | 0x1A => some .xorIpl
  | 0x1B => some .xorIpe
  | 0x20 => some .shl
  | 0x21 => some .shlIp
  | 0x22 => some .shlSub
  | 0x23 => some .shlc
  | 0x24 => some .shr
  | 0x25 => some .shrIp
  | 0x26 => some .shrSub
  | 0x30 => some .modp
  | 0x31 => some .negmodp
  | 0x32 => some (.shrRound rm neg)
  | 0x33 => some (.rtm rm neg)
  | 0x40 => some .twos
  | 0x41 => some .xorNn
  | 0x42 => some .xorNnIpl
  | 0x43 => some .xorNnIpe
  | 0x44 => some .xorPn
  | 0x45 => some .xorPln
  | 0x46 => some .xorNln
  | 0x47 => some .getbP
  | 0x48 => some .getbN
  | 0x49 => some .asgbP
  | 0x4A => some .asgbN
  | 0x50 => some .mul
  | 0x51 => some .mullo
  | 0x52 => some .modpmul
  | 0x53 => some .mulmodBnm1
  | 0x54 => some .mulmodBnp1
  | _ => none

/-- Decoding is by OP alone, after the check of the reserved bits; RM and NEG are read by SHR_ROUND and RTM and
ignored by every other command (30_encoding.md R82). -/
def decode (w : Word) : Except DecodeReject Instr :=
  if cmdReserved w = 0 then
    match decodeOp (cmdOp w) (decodeRm (cmdRm w)) (cmdNeg w) with
    | some i => .ok i
    | none => .error .reservedOp
  else .error .reservedBits

/-- The value of bytes in little-endian order, the order of the platform bus (20_memory.md R61). -/
def leValue : List Byte → Nat
  | [] => 0
  | b :: bs => b.toNat + 256 * leValue bs

/-- The command word as the platform bus carries it: eight bytes, little-endian (20_memory.md R61). -/
def decodeBytes (bs : List Byte) : Except DecodeReject Instr :=
  if bs.length = 8 then decode (BitVec.ofNat 64 (leValue bs)) else .error .notOneWord

/-- The OP value of a command (30_encoding.md R81). -/
def Instr.opcode : Instr → BitVec 8
  | .nop => 0x00#8
  | .andSl => 0x10#8
  | .and => 0x11#8
  | .andIpl => 0x12#8
  | .andIpe => 0x13#8
  | .orSl => 0x14#8
  | .or => 0x15#8
  | .orIpl => 0x16#8
  | .orIpe => 0x17#8
  | .xorSl => 0x18#8
  | .xor => 0x19#8
  | .xorIpl => 0x1A#8
  | .xorIpe => 0x1B#8
  | .shl => 0x20#8
  | .shlIp => 0x21#8
  | .shlSub => 0x22#8
  | .shlc => 0x23#8
  | .shr => 0x24#8
  | .shrIp => 0x25#8
  | .shrSub => 0x26#8
  | .modp => 0x30#8
  | .negmodp => 0x31#8
  | .shrRound _ _ => 0x32#8
  | .rtm _ _ => 0x33#8
  | .twos => 0x40#8
  | .xorNn => 0x41#8
  | .xorNnIpl => 0x42#8
  | .xorNnIpe => 0x43#8
  | .xorPn => 0x44#8
  | .xorPln => 0x45#8
  | .xorNln => 0x46#8
  | .getbP => 0x47#8
  | .getbN => 0x48#8
  | .asgbP => 0x49#8
  | .asgbN => 0x4A#8
  | .mul => 0x50#8
  | .mullo => 0x51#8
  | .modpmul => 0x52#8
  | .mulmodBnm1 => 0x53#8
  | .mulmodBnp1 => 0x54#8

/-- The number of a rounding mode (30_encoding.md R83). -/
def RoundMode.number : RoundMode → BitVec 3
  | .down => 0
  | .up => 1
  | .floor => 2
  | .ceiling => 3
  | .nearest => 4
  | .exact => 5

/-- The three bits of an RM field. -/
def RmField.number : RmField → BitVec 3
  | .mode m => m.number
  | .reserved6 => 6
  | .reserved7 => 7

/-- The RM bits a command's word carries: 0 where the command ignores them. -/
def Instr.rmBits : Instr → BitVec 3
  | .shrRound rm _ => rm.number
  | .rtm rm _ => rm.number
  | _ => 0

/-- The NEG bit a command's word carries: 0 where the command ignores it. -/
def Instr.negBit : Instr → Bool
  | .shrRound _ neg => neg
  | .rtm _ neg => neg
  | _ => false

/-- The command word of the fields of 30_encoding.md R80, the reserved bits at 0. -/
def cmdWord (op : BitVec 8) (rm : BitVec 3) (neg : Bool) : Word :=
  (0#52 ++ (BitVec.ofBool neg ++ (rm ++ op)) : BitVec (52 + (1 + (3 + 8))))

/-- The command word of a command, with RM and NEG at 0 where the command ignores them. -/
def encode (i : Instr) : Word := cmdWord i.opcode i.rmBits i.negBit

/-- The bits of the command word that decoding a command depends on: every bit for the two commands that read RM and
NEG, and every bit but 11:8 for the others (30_encoding.md R82). -/
def Instr.careMask : Instr → Word
  | .shrRound _ _ => 0xFFFFFFFFFFFFFFFF#64
  | .rtm _ _ => 0xFFFFFFFFFFFFFFFF#64
  | _ => 0xFFFFFFFFFFFFF0FF#64

/-- The command the decoder reads from an opcode table row's word `w` of `nbits` bits (every bit above `nbits` 0). -/
def decodeTableWord (nbits w : Nat) : Option Instr :=
  (decode (BitVec.ofNat 64 (w % 2 ^ nbits))).toOption

end Sys2Proof
end

