-- ==== Sys2Proof/Machine/Csr.lean ====
section
/-!
DEFINITION. The register file: which number names which register, what a read answers, and what a write does in each
phase (10_state.md R21 to R37); starting a command (R35) and the soft reset (70_reset_and_hazards.md R251).
-/
namespace Sys2Proof.Machine

/-- The 15 defined registers (10_state.md, section 2). -/
inductive Csr where
  | id | ctrl | status | cmd | xbase | xlen | ybase | ylen | obase | ocap | arg0 | arg1 | rlen | rnlen | raux
deriving DecidableEq, Repr

/-- The register a number names; none for the reserved numbers (10_state.md R30). -/
def csrOf (n : Nat) : Option Csr :=
  match n with
  | 0 => some .id
  | 1 => some .ctrl
  | 2 => some .status
  | 3 => some .cmd
  | 4 => some .xbase
  | 5 => some .xlen
  | 6 => some .ybase
  | 7 => some .ylen
  | 8 => some .obase
  | 9 => some .ocap
  | 10 => some .arg0
  | 11 => some .arg1
  | 12 => some .rlen
  | 13 => some .rnlen
  | 14 => some .raux
  | _ => none

/-- The value a register reads as. It is the same in both phases (10_state.md R37). -/
def Csr.value (r : Csr) (s : State) : Word :=
  match r with
  | .id => s.idWord
  | .ctrl => s.ctrlWord
  | .status => s.statusWord
  | .cmd => s.cmd
  | .xbase => s.xbase
  | .xlen => s.xlen
  | .ybase => s.ybase
  | .ylen => s.ylen
  | .obase => s.obase
  | .ocap => s.ocap
  | .arg0 => s.arg0
  | .arg1 => s.arg1
  | .rlen => s.rlen
  | .rnlen => s.rnlen
  | .raux => s.raux

/-- The value CsrRead answers, for a number up to 255: reserved numbers read 0 (10_state.md R30). -/
def csrValue (n : Nat) (s : State) : Word :=
  match csrOf n with
  | some r => r.value s
  | none => 0

/-- GO in a written CTRL value (10_state.md R22). -/
def goBit (v : Word) : Bool := v.getLsbD 0

/-- SRST in a written CTRL value (10_state.md R22). -/
def srstBit (v : Word) : Bool := v.getLsbD 1

/-- IEN in a written CTRL value (10_state.md R22). -/
def ienBit (v : Word) : Bool := v.getLsbD 2

/-- The start of a command (10_state.md R35, 70_reset_and_hazards.md R256): BUSY is set, DONE, ERR and ECODE are cleared,
nothing else changes. 70_reset_and_hazards.md R254 says that ERR and ECODE read as the previous command's values until
completion is seen; the model follows R35 and R256 and clears them (DESIGN CHOICE, log 18). -/
def State.begin (s : State) : State :=
  { s with phase := .busy, done := false, err := false, ecode := 0 }

/-- A GO write in the IDLE phase: the command starts, and the number of host operations before its engine step is taken
from the schedule, or is a free value where the schedule says nothing (70_reset_and_hazards.md R256, log 6). -/
def State.go (s : State) : State :=
  match s.schedule with
  | d :: rest => { s.begin with delay := d, schedule := rest }
  | [] => { s.begin with delay := Config.freeDelay s.draws, draws := s.draws + 1 }

/-- The part of a region that lies in LM. -/
def clipToLm (s : State) (base len : Nat) : Nat := min (base + len) s.cfg.lmLimbs - base

/-- A command in flight is abandoned: every limb of its destination takes a free value (70_reset_and_hazards.md R251 (a)).
A command word that stands for no command has no destination (log 5). -/
def State.abandon (s : State) : State :=
  match decode s.cmd with
  | .error _ => s
  | .ok i =>
    let d := destBase (rowOf i).dest s
    let n := clipToLm s d (destCap (rowOf i).dest s)
    { s with lm := Memory.drawRegion s.w s.lm d n s.draws, draws := s.draws + n }

/-- Every register takes its power-on value and the phase becomes IDLE (70_reset_and_hazards.md R251 (b), (c)). -/
def State.resetCsrs (s : State) : State :=
  { s with
    ien := false, phase := .idle, done := false, err := false, werr := false, ecode := 0
    cmd := 0, xbase := 0, xlen := 0, ybase := 0, ylen := 0, obase := 0, ocap := 0, arg0 := 0, arg1 := 0
    rlen := 0, rnlen := 0, raux := 0 }

/-- The soft reset (70_reset_and_hazards.md R251). -/
def softReset (s : State) : State :=
  match s.phase with
  | .idle => s.resetCsrs
  | .busy => s.abandon.resetCsrs

/-- A write to STATUS clears DONE, ERR and WERR where the written value has a 1 (10_state.md R23). -/
def writeStatus (v : Word) (s : State) : State :=
  { s with done := s.done && !v.getLsbD 1, err := s.err && !v.getLsbD 2, werr := s.werr && !v.getLsbD 3 }

/-- A write to CTRL in the IDLE phase (10_state.md R22, R35): SRST wins over GO; otherwise IEN is stored, and GO starts
the command. -/
def writeCtrlIdle (v : Word) (s : State) : State :=
  if srstBit v then softReset s
  else if goBit v then State.go { s with ien := ienBit v }
  else { s with ien := ienBit v }

/-- A write to CTRL in the BUSY phase (10_state.md R36): IEN and SRST take effect; GO is ignored and sets WERR. -/
def writeCtrlBusy (v : Word) (s : State) : State :=
  if srstBit v then softReset s else { s with ien := ienBit v, werr := s.werr || goBit v }

/-- A write to a register in the IDLE phase (10_state.md R35): read-only registers ignore it. -/
def writeIdle (r : Csr) (v : Word) (s : State) : State :=
  match r with
  | .id => s
  | .ctrl => writeCtrlIdle v s
  | .status => writeStatus v s
  | .cmd => { s with cmd := v }
  | .xbase => { s with xbase := v }
  | .xlen => { s with xlen := v }
  | .ybase => { s with ybase := v }
  | .ylen => { s with ylen := v }
  | .obase => { s with obase := v }
  | .ocap => { s with ocap := v }
  | .arg0 => { s with arg0 := v }
  | .arg1 => { s with arg1 := v }
  | .rlen => s
  | .rnlen => s
  | .raux => s

/-- A write to a register in the BUSY phase (10_state.md R36): only CTRL and STATUS take it; every other register drops
it and sets WERR. -/
def writeBusy (r : Csr) (v : Word) (s : State) : State :=
  match r with
  | .ctrl => writeCtrlBusy v s
  | .status => writeStatus v s
  | _ => { s with werr := true }

/-- CsrWrite, for a number up to 255: reserved numbers ignore it and never set WERR (10_state.md R30). -/
def csrWrite (n : Nat) (v : Word) (s : State) : State :=
  match csrOf n with
  | none => s
  | some r =>
    match s.phase with
    | .idle => writeIdle r v s
    | .busy => writeBusy r v s

/-- `s` with a command word in CMD and that command started, its engine step next: the state a CMD write and a GO write
lead to where the engine step runs at once (log 7). -/
def State.loadCommand (s : State) (w : Word) : State := { s.begin with cmd := w, delay := 0 }

end Sys2Proof.Machine
end

