-- ==== Sys2Proof/Machine/Bus.lean ====
section
/-!
DEFINITION. The four host transactions (20_memory.md R60) and the byte map of the platform bus (R61).
-/
namespace Sys2Proof.Machine

/-- A host transaction (20_memory.md R60). -/
inductive Transaction where
  | csrRead (n : Nat)
  | csrWrite (n : Nat) (v : Word)
  | lmRead (i : Nat)
  | lmWrite (i : Nat) (v : Word)
deriving DecidableEq, Repr

/-- A transaction on the limb memory, which waits while the engine is BUSY (20_memory.md R62). -/
def Transaction.onLm : Transaction → Bool
  | .csrRead _ => false
  | .csrWrite _ _ => false
  | .lmRead _ => true
  | .lmWrite _ _ => true

/-- What a transaction does: the state after it and the value it answers (0 for a write), or the host fault it ends in
(20_memory.md R60, 60_exceptions.md R227). A read changes nothing (20_memory.md R69). -/
def transact (t : Transaction) (s : State) : Except Fault (State × Word) :=
  match t with
  | .csrRead n => if n ≤ 255 then .ok (s, csrValue n s) else .error (.busErrorCsr n)
  | .csrWrite n v => if n ≤ 255 then .ok (csrWrite n v s, 0) else .error (.busErrorCsr n)
  | .lmRead i =>
    if i < s.cfg.lmLimbs then
      match s.limb? i with
      | some v => .ok (s, BitVec.ofNat 64 v)
      | none => .error (.neverWritten i)
    else .error (.busErrorLm i)
  | .lmWrite i v =>
    if i < s.cfg.lmLimbs then .ok ({ s with lm := Memory.setLimb s.w s.lm i v.toNat }, 0)
    else .error (.busErrorLm i)

/-- The CSR number a byte access selects: exactly 8 bytes, naturally aligned, at `CSR_BASE + 8*n` (20_memory.md R61). -/
def busCsr? (c : Config) (addr width : Nat) : Option Nat :=
  if width = 8 ∧ addr % 8 = 0 ∧ c.csrBase ≤ addr ∧ (addr - c.csrBase) % 8 = 0 ∧ (addr - c.csrBase) / 8 ≤ 255 then
    some ((addr - c.csrBase) / 8)
  else none

/-- The limb index a byte access selects: exactly W/8 bytes, naturally aligned, at `LM_BASE + (W/8)*i`
(20_memory.md R61). -/
def busLimb? (c : Config) (addr width : Nat) : Option Nat :=
  let k := c.width.bits / 8
  if width = k ∧ addr % k = 0 ∧ c.lmBase ≤ addr ∧ (addr - c.lmBase) % k = 0 ∧ (addr - c.lmBase) / k < c.lmLimbs then
    some ((addr - c.lmBase) / k)
  else none

/-- The transaction a byte read makes; none is a bus error. An address that selects both a register and a limb, which
only a careless platform map allows, selects neither (log 11). -/
def busRead? (c : Config) (addr width : Nat) : Option Transaction :=
  match busCsr? c addr width, busLimb? c addr width with
  | some n, none => some (.csrRead n)
  | none, some i => some (.lmRead i)
  | _, _ => none

/-- The transaction a byte write makes; none is a bus error. The bytes are in little-endian order (20_memory.md R61). -/
def busWrite? (c : Config) (addr : Nat) (bytes : List Byte) : Option Transaction :=
  let v := BitVec.ofNat 64 (leValue bytes)
  match busCsr? c addr bytes.length, busLimb? c addr bytes.length with
  | some n, none => some (.csrWrite n v)
  | none, some i => some (.lmWrite i v)
  | _, _ => none

end Sys2Proof.Machine
end

