-- ==== Sys2Proof/Machine/HostAgent.lean ====
section
/-!
DEFINITION. The host agent: one operation of the host program (30_encoding.md R92), and which agent moves next
(20_memory.md R62, R73; 70_reset_and_hazards.md R256).
-/
namespace Sys2Proof.Machine

/-- The host's next operation; none when it has run off the end of its program. -/
def State.hostOp (s : State) : Option HostOp := s.program[s.hostPc]?

/-- The host temporary tK (30_encoding.md R92); 0 where nothing has been kept in it (log 8). -/
def State.temp (s : State) (k : Nat) : Word := (Cells.get? s.temps k).getD 0

/-- `s` with tK holding `v`. A temporary that holds 0 is not listed, so equal temporaries are equal lists. -/
def State.setTemp (s : State) (k : Nat) (v : Word) : State :=
  { s with temps := if v = 0 then Cells.drop s.temps k else Cells.put s.temps k v }

/-- The host's program counter moves on. -/
def State.advance (s : State) : State := { s with hostPc := s.hostPc + 1 }

/-- One host operation was performed while the command in flight was still to run (log 6). -/
def State.tick (s : State) : State :=
  match s.phase with
  | .idle => s
  | .busy => { s with delay := s.delay - 1 }

/-- A write transaction by the host, then the next operation. -/
def hostWrite (t : Transaction) (s : State) : StepResult :=
  match transact t s with
  | .error f => .fault f
  | .ok (s', _) => .next s'.advance

/-- A read transaction by the host, its answer kept in tK, then the next operation. -/
def hostRead (t : Transaction) (k : Nat) (s : State) : StepResult :=
  match transact t s with
  | .error f => .fault f
  | .ok (s', v) => .next (s'.setTemp k v).advance

/-- A host branch: no transaction (30_encoding.md R92). -/
def hostBranch (taken : Bool) (target : Nat) (s : State) : StepResult :=
  .next (if taken then { s with hostPc := target } else s.advance)

/-- What one host operation does. -/
def hostPerform (op : HostOp) (s : State) : StepResult :=
  match op with
  | .csrw n v => hostWrite (.csrWrite n v) s
  | .csrr n t => hostRead (.csrRead n) t s
  | .lmw i v => hostWrite (.lmWrite i v) s
  | .lmr i t => hostRead (.lmRead i) t s
  | .busw addr bytes =>
    match busWrite? s.cfg addr bytes with
    | some t => hostWrite t s
    | none => .fault (.busErrorAccess addr bytes.length)
  | .busr addr width t =>
    match busRead? s.cfg addr width with
    | some tr => hostRead tr t s
    | none => .fault (.busErrorAccess addr width)
  | .ifEq t m k target => hostBranch (s.temp t &&& m == k) target s
  | .ifNe t m k target => hostBranch (s.temp t &&& m != k) target s
  | .stop => .next s

/-- The host's step: its next operation, or nothing when its program has ended (log 9). -/
def hostStep (s : State) : StepResult :=
  match s.hostOp with
  | none => .next s
  | some op => hostPerform op s.tick

/-- The operation is a limb-memory transaction: it waits while the engine is BUSY (20_memory.md R62). -/
def HostOp.onLm (c : Config) : HostOp → Bool
  | .lmw _ _ => true
  | .lmr _ _ => true
  | .busw addr bytes => ((busWrite? c addr bytes).map Transaction.onLm).getD false
  | .busr addr width _ => ((busRead? c addr width).map Transaction.onLm).getD false
  | _ => false

/-- The host cannot move before the command in flight has completed: its program has ended, or its next operation waits
(20_memory.md R62; log 10). -/
def State.hostWaits (s : State) : Bool :=
  match s.hostOp with
  | none => true
  | some .stop => true
  | some op => op.onLm s.cfg

/-- The engine moves next: it is BUSY, and either the host waits or the delay of its step is over
(70_reset_and_hazards.md R256, log 6). -/
def State.engineMoves (s : State) : Bool := s.busy && (s.hostWaits || s.delay == 0)

end Sys2Proof.Machine
end

