-- ==== Sys2Proof/Machine/Step.lean ====
section
/-!
DEFINITION. One step of the machine: the engine step where the engine moves (30_encoding.md R88), else one host operation
(20_memory.md R73). `State.withFetchWord` puts a command where the engine takes its next command from (log 7).
-/
namespace Sys2Proof.Machine

/-- The engine step `Execute()` (30_encoding.md R88): the command in CMD runs; a word that stands for no command raises
EOPC. -/
def engineStep (s : State) : Host.Outcome State Fault Refusal :=
  match decode s.cmd with
  | .ok i => exec i s
  | .error _ => rejectCommand s

/-- One step: of the engine, or of the host (log 6). -/
def step (s : State) : Host.Outcome State Fault Refusal :=
  if s.engineMoves then engineStep s else hostStep s

/-- `s` with the command word `w` of `nbits` bits in CMD and started, so that the next step runs it. -/
def State.withFetchWord (s : State) (nbits w : Nat) : State :=
  s.loadCommand (BitVec.ofNat 64 (w % 2 ^ nbits))

end Sys2Proof.Machine
end

