-- ==== Sys2Proof/Machine/Assembler.lean ====
section
/-!
DEFINITION. The assembler of host programs (30_encoding.md R92): lines with labels and pseudo-instructions, expanded to
host operations with their branch targets resolved. The text form of a line (its spelling) is left out: a line is data.
-/
namespace Sys2Proof.Machine

/-- A label: the program's own, or the fresh one of the n-th `wait` (30_encoding.md R92). -/
inductive Label where
  | named (name : String)
  | fresh (n : Nat)
deriving DecidableEq, Repr

/-- A line of a host program (30_encoding.md R92). -/
inductive Line where
  | label (l : Label)
  | csrw (n : Nat) (v : Word)
  | csrr (n : Nat) (t : Nat)
  | lmw (i : Nat) (v : Word)
  | lmr (i : Nat) (t : Nat)
  | ifEq (t : Nat) (m k : Word) (l : Label)
  | ifNe (t : Nat) (m k : Word) (l : Label)
  | stop
  /-- `cmd MN[.MODE][.NEG] [x=XB:XL] [y=YB:YL] [o=OB:OC] [a0=v] [a1=v]`, MN by its OP value. -/
  | cmd (op : BitVec 8) (mode : Option RoundMode) (neg : Bool) (x y o : Option (Word × Word)) (a0 a1 : Option Word)
  | go
  | goi
  | srst
  | wait
  | ack
deriving DecidableEq, Repr

/-- `enc = OP | (RM << 8) | (NEG << 11)`; without MODE, RM = 0 (30_encoding.md R92). -/
def cmdEnc (op : BitVec 8) (mode : Option RoundMode) (neg : Bool) : Word :=
  cmdWord op ((mode.map RoundMode.number).getD 0) neg

/-- The two writes of a `x=`, `y=` or `o=` part: a base register and the register after it. -/
def pairWrites (base : Nat) : Option (Word × Word) → List Line
  | none => []
  | some (b, l) => [.csrw base b, .csrw (base + 1) l]

/-- The write of an `a0=` or `a1=` part. -/
def argWrite (n : Nat) : Option Word → List Line
  | none => []
  | some v => [.csrw n v]

/-- The expansion of one line; `k` numbers the fresh label of a `wait` (30_encoding.md R92). -/
def expandLine (k : Nat) : Line → List Line
  | .cmd op mode neg x y o a0 a1 =>
    pairWrites 4 x ++ pairWrites 6 y ++ pairWrites 8 o ++ argWrite 10 a0 ++ argWrite 11 a1 ++
      [.csrw 3 (cmdEnc op mode neg), .csrw 1 0x1]
  | .go => [.csrw 1 0x1]
  | .goi => [.csrw 1 0x5]
  | .srst => [.csrw 1 0x2]
  | .wait => [.label (.fresh k), .csrr 2 0, .ifEq 0 0x2 0x0 (.fresh k)]
  | .ack => [.csrw 2 0xE]
  | l => [l]

/-- The expansion of a program, its `wait` lines numbered from `k`. -/
def expandLines (k : Nat) : List Line → List Line
  | [] => []
  | l :: ls => expandLine k l ++ expandLines (if l = .wait then k + 1 else k) ls

/-- The index of the operation a label stands before, counting from `at`: the first definition wins (log 14). -/
def labelIndex (pos : Nat) (target : Label) : List Line → Option Nat
  | [] => none
  | .label l :: ls => if l = target then some pos else labelIndex pos target ls
  | _ :: ls => labelIndex (pos + 1) target ls

/-- The operation of an expanded line, its label resolved in the program `all`. A label line gives no operation; an
undefined label, and a line that is not expanded, give none. -/
def resolveLine (all : List Line) : Line → Option (List HostOp)
  | .label _ => some []
  | .csrw n v => some [.csrw n v]
  | .csrr n t => some [.csrr n t]
  | .lmw i v => some [.lmw i v]
  | .lmr i t => some [.lmr i t]
  | .ifEq t m k l => (labelIndex 0 l all).map fun p => [.ifEq t m k p]
  | .ifNe t m k l => (labelIndex 0 l all).map fun p => [.ifNe t m k p]
  | .stop => some [.stop]
  | _ => none

/-- The operations of expanded lines. -/
def resolveLines (all : List Line) : List Line → Option (List HostOp)
  | [] => some []
  | l :: ls =>
    match resolveLine all l, resolveLines all ls with
    | some a, some b => some (a ++ b)
    | _, _ => none

/-- The host program of a list of lines; none where a label is undefined (log 14). -/
def assemble (ls : List Line) : Option (List HostOp) :=
  let all := expandLines 1 ls
  resolveLines all all

end Sys2Proof.Machine
end

