-- ==== Sys2Proof/Safety.lean ====
section
/-!
DEFINITION. What a good state is, and the terms claims are made in: what it means that a region holds a value, that a
command completes with a result, and that it raises a code. These restate the spec's own words (00_scope.md R11 to R13,
20_memory.md R63 to R67, 60_exceptions.md R224, R225) through the model's read of one limb, not through the functions
the machine runs.
-/
namespace Sys2Proof.Machine

/-- The states the machine reaches: the invariant every step keeps. -/
structure State.Inv (s : State) : Prop where
  /-- LM_LIMBS is legal (00_scope.md R6). -/
  cfgWf      : s.cfg.wf
  /-- The limb memory is in canonical form. -/
  lmWf       : Memory.wf s.lm = true
  /-- Every written limb exists and has W bits (10_state.md R31). -/
  lmRange    : ∀ c ∈ s.lm, c.1 < s.cfg.lmLimbs ∧ c.2.toNat < 2 ^ s.w
  /-- The host temporaries are in canonical form. -/
  tempsWf    : Cells.wf s.temps = true
  /-- No temporary that holds 0 is listed. -/
  tempsNz    : ∀ c ∈ s.temps, c.2 ≠ 0
  /-- Codes 12 to 255 are never reported (60_exceptions.md R221). -/
  ecodeMax   : s.ecode.toNat ≤ 11
  /-- ERR is set by an error completion only, which sets ECODE (60_exceptions.md R224). -/
  errCode    : s.err = true → s.ecode ≠ 0
  /-- While a command runs, DONE, ERR and ECODE are clear (10_state.md R35; log 18). -/
  busyClear  : s.phase = .busy → s.done = false ∧ s.err = false ∧ s.ecode = 0
  /-- After an error the result registers are 0 (60_exceptions.md R224). -/
  errResults : s.ecode ≠ 0 → s.rlen = 0 ∧ s.rnlen = 0 ∧ s.raux = 0
  /-- The trimmed length is at most the written length (10_state.md R28). -/
  rnlenLe    : s.rnlen.toNat ≤ s.rlen.toNat
  /-- The written length fits the limb memory (20_memory.md R63, R64). -/
  rlenLe     : s.rlen.toNat ≤ s.cfg.lmLimbs
  /-- The auxiliary result is a limb (10_state.md R28). -/
  rauxLimb   : s.raux.toNat < 2 ^ s.w

/-- `MemRead(base, n) = v`, limb by limb: every limb of the region is written, and limb `j` is digit `j` of `v` in base
`B = 2^W` (00_scope.md R11). -/
abbrev Holds (s : State) (base n v : Nat) : Prop :=
  v < 2 ^ (s.w * n) ∧ ∀ j, j < n → s.limb? (base + j) = some (v / 2 ^ (s.w * j) % 2 ^ s.w)

/-- `t` is `s` after `Commit(d, cap, L, v, aux)` (00_scope.md R13) and the success completion (60_exceptions.md R225). -/
structure Committed (s t : State) (d cap L v aux : Nat) : Prop where
  /-- The value fits its length: it is never truncated (00_scope.md R17). -/
  fits      : v < 2 ^ (s.w * L)
  /-- The length fits the capacity (20_memory.md R63). -/
  room      : L ≤ cap
  /-- The L result limbs. -/
  result    : ∀ j, j < L → t.limb? (d + j) = some (v / 2 ^ (s.w * j) % 2 ^ s.w)
  /-- Each tail limb holds a value, which one is open (20_memory.md R66). -/
  tail      : ∀ j, L ≤ j → j < cap → (t.limb? (d + j)).isSome = true
  /-- No limb outside the destination is written (20_memory.md R67). -/
  elsewhere : ∀ i, i < d ∨ d + cap ≤ i → t.limb? i = s.limb? i
  /-- The result registers, the completion, and that nothing else changes but the count of free values. -/
  registers : t =
    { s with
      lm := t.lm, draws := t.draws
      rlen := BitVec.ofNat 64 L, rnlen := BitVec.ofNat 64 (nlen s.w v), raux := BitVec.ofNat 64 aux
      ecode := 0, err := false, done := true, phase := .idle }

/-- The command answers a next state, with this result written. -/
def Completes (i : Instr) (s : State) (d cap L v aux : Nat) : Prop :=
  ∃ t, exec i s = .next t ∧ Committed s t d cap L v aux

/-- `s` after an error completion with code `c` (60_exceptions.md R224): no limb and no other register changes. -/
def errorState (s : State) (c : BitVec 8) : State :=
  { s with rlen := 0, rnlen := 0, raux := 0, ecode := c, err := true, done := true, phase := .idle }

/-- The command ends in an error completion with this code. -/
def Raises (i : Instr) (s : State) (c : BitVec 8) : Prop := exec i s = .next (errorState s c)

/-- What a command rule of the spec answers, in the spec's own formulas. -/
inductive SpecAnswer where
  /-- `raise Error(CODE)`. -/
  | code (c : BitVec 8)
  /-- `L`, `v`, `aux`. -/
  | result (L v aux : Nat)
  /-- `L`, a value that is one of two, `aux` (44_modmul.md R204). -/
  | eitherOf (L v v' aux : Nat)

/-- The command does what the answer says: it raises the code, or ECAP where L exceeds the capacity, or completes with
the result (30_encoding.md R88). -/
def Meets (i : Instr) (s : State) (d cap : Nat) : SpecAnswer → Prop
  | .code c => Raises i s c
  | .result L v aux => (L ≤ cap → Completes i s d cap L v aux) ∧ (cap < L → Raises i s 11)
  | .eitherOf L v v' aux =>
    (L ≤ cap → Completes i s d cap L v aux ∨ Completes i s d cap L v' aux) ∧ (cap < L → Raises i s 11)

/-- Which operand regions a command of the spec uses, and its destination (30_encoding.md R87, 20_memory.md R63). -/
structure Shape where
  /-- It reads X. -/
  x   : Bool
  /-- It reads Y. -/
  y   : Bool
  /-- The first limb of the destination. -/
  d   : State → Nat
  /-- The capacity of the destination. -/
  cap : State → Nat

/-- Destination OUT. -/
def Shape.out (x y : Bool) : Shape := ⟨x, y, fun s => s.obase.toNat, fun s => s.ocap.toNat⟩

/-- Destination IPL. -/
def Shape.ipl (x y : Bool) : Shape := ⟨x, y, fun s => s.xbase.toNat, fun s => s.ocap.toNat⟩

/-- Destination SELF. -/
def Shape.self (x y : Bool) : Shape := ⟨x, y, fun s => s.xbase.toNat, fun s => s.xlen.toNat⟩

/-- Destination EITHER. -/
def Shape.either (x y : Bool) : Shape :=
  ⟨x, y, fun s => if s.xlen.toNat ≥ s.ylen.toNat then s.xbase.toNat else s.ybase.toNat,
    fun s => max s.xlen.toNat s.ylen.toNat⟩

/-- Every region the command uses lies in LM (20_memory.md R64). -/
abbrev Inside (h : Shape) (s : State) : Prop :=
  (h.x = true → s.xbase.toNat + s.xlen.toNat ≤ s.cfg.lmLimbs) ∧
  (h.y = true → s.ybase.toNat + s.ylen.toNat ≤ s.cfg.lmLimbs) ∧
  h.d s + h.cap s ≤ s.cfg.lmLimbs

/-- The operand regions the command reads hold `x` and `y`. -/
abbrev Operand (h : Shape) (s : State) (x y : Nat) : Prop :=
  (h.x = true → Holds s s.xbase.toNat s.xlen.toNat x) ∧ (h.y = true → Holds s s.ybase.toNat s.ylen.toNat y)

/-- A rule of the spec: from the state (its operand registers) and the operand values to an answer. -/
abbrev SpecRule := State → Nat → Nat → SpecAnswer

/-- Command `i`, whose command word is `word`, follows a rule of the spec: the decoder reads `i` from `word`; a region
outside LM raises EADDR (3); and in every other state whose operand limbs are written, it does what the rule says. -/
def Follows (word : Word) (i : Instr) (h : Shape) (rule : SpecRule) : Prop :=
  decode word = .ok i ∧
  ∀ s : State,
    (¬ Inside h s → Raises i s 3) ∧
    (Inside h s → ∀ x y, Operand h s x y → Meets i s (h.d s) (h.cap s) (rule s x y))

/-- `RoundQ(x, b, m)` with the effective mode of (m, neg), in the formulas of 42_round_mod.md R150 to R152; none where
it raises EINEXACT. -/
def specRound (x b : Nat) (m : RoundMode) (neg : Bool) : Option Nat :=
  let q := x / 2 ^ b
  let rm := x % 2 ^ b
  let up := if rm = 0 then q else q + 1
  match m with
  | .down => some q
  | .up => some up
  | .floor => some (if neg then up else q)
  | .ceiling => some (if neg then q else up)
  | .nearest =>
    some (if b = 0 ∨ rm < 2 ^ (b - 1) then q else if rm > 2 ^ (b - 1) then q + 1 else q + q % 2)
  | .exact => if rm = 0 then some q else none

/-- `Ord(a, b)` (42_round_mod.md R153). -/
def specOrd (a b : Nat) : Nat := if a = b then 0 else if a < b then 1 else 2

/-- The error codes a command may report (60_exceptions.md R221), EOPC apart, which belongs to command words that stand
for no command. -/
def specCodes : Instr → List Nat
  | .nop => []
  | .andSl => [3, 5, 11]
  | .and => [3, 11]
  | .andIpl => [3, 11]
  | .andIpe => [3]
  | .orSl => [3, 5, 11]
  | .or => [3, 11]
  | .orIpl => [3, 11]
  | .orIpe => [3]
  | .xorSl => [3, 5, 11]
  | .xor => [3, 11]
  | .xorIpl => [3, 11]
  | .xorIpe => [3]
  | .shl => [3, 11]
  | .shlIp => [3, 11]
  | .shlSub => [3, 8]
  | .shlc => [3, 8, 11]
  | .shr => [3, 11]
  | .shrIp => [3]
  | .shrSub => [3, 8]
  | .modp => [3, 11]
  | .negmodp => [3, 11]
  | .shrRound _ _ => [2, 3, 10, 11]
  | .rtm _ _ => [2, 3, 10, 11]
  | .twos => [3, 11]
  | .xorNn => [3, 4, 7, 11]
  | .xorNnIpl => [3, 4, 7, 11]
  | .xorNnIpe => [3, 4, 7]
  | .xorPn => [3, 4, 7, 11]
  | .xorPln => [3, 7, 11]
  | .xorNln => [3, 4, 7, 11]
  | .getbP => [3, 9, 11]
  | .getbN => [3, 4, 7, 9, 11]
  | .asgbP => [3, 9, 11]
  | .asgbN => [3, 4, 7, 9, 11]
  | .mul => [3, 11]
  | .mullo => [3, 5, 11]
  | .modpmul => [3, 9, 11]
  | .mulmodBnm1 => [3, 4, 6, 9, 11]
  | .mulmodBnp1 => [3, 4, 6, 9, 11]

/-- Which of the scalar registers ARG0 and ARG1 a command reads (30_encoding.md R87). -/
def specArgs : Instr → Bool × Bool
  | .shl => (true, false)
  | .shlIp => (true, false)
  | .shlSub => (true, false)
  | .shlc => (true, false)
  | .shr => (true, false)
  | .shrIp => (true, false)
  | .shrSub => (true, false)
  | .modp => (true, false)
  | .negmodp => (true, false)
  | .shrRound _ _ => (true, false)
  | .rtm _ _ => (true, false)
  | .xorPln => (false, true)
  | .xorNln => (false, true)
  | .getbP => (true, true)
  | .getbN => (true, true)
  | .asgbP => (true, true)
  | .asgbN => (true, true)
  | .modpmul => (true, false)
  | .mulmodBnm1 => (true, false)
  | .mulmodBnp1 => (true, false)
  | _ => (false, false)

/-- Two states agree on everything a command may read: the parameters, LM, and the registers its row of the operand
table names (30_encoding.md R87). The count of free values is the model's own and is included. -/
def SameInputs (i : Instr) (s s' : State) : Prop :=
  s.cfg = s'.cfg ∧ s.lm = s'.lm ∧ s.draws = s'.draws ∧
  ((rowOf i).readsX = true → s.xbase = s'.xbase ∧ s.xlen = s'.xlen) ∧
  ((rowOf i).readsY = true → s.ybase = s'.ybase ∧ s.ylen = s'.ylen) ∧
  ((rowOf i).dest = .out → s.obase = s'.obase ∧ s.ocap = s'.ocap) ∧
  ((rowOf i).dest = .ipl → s.ocap = s'.ocap) ∧
  ((specArgs i).1 = true → s.arg0 = s'.arg0) ∧
  ((specArgs i).2 = true → s.arg1 = s'.arg1)

/-- Two outcomes of a command agree on everything it may write (00_scope.md R13, 60_exceptions.md R224, R225). -/
def SameResults : StepResult → StepResult → Prop
  | .next t, .next t' =>
    t.lm = t'.lm ∧ t.rlen = t'.rlen ∧ t.rnlen = t'.rnlen ∧ t.raux = t'.raux ∧ t.ecode = t'.ecode ∧ t.err = t'.err ∧
    t.done = t'.done ∧ t.phase = t'.phase
  | .fault f, .fault f' => f = f'
  | _, _ => False

/-- A run never stops in a fault before step `n`: what a safe run is. -/
def SafeFor (n : Nat) (s : State) : Prop := ∃ t, Host.Core.run Sys2Proof.core n s = .next t

end Sys2Proof.Machine
end

