-- ==== Sys2Proof/Certificates/Slice0/Obligations.lean ====
section
/-!
DEFINITION. The statements for the provers. Each docstring names the rule of spec/ it formalises. W is `s.w`, B is `2^W`,
and the spec's operand names XB, XL, YL, A0, A1 are the registers of `s` read as numbers.
-/
open Sys2Proof Sys2Proof.Machine

/-! ### The command word -/

/-- 30_encoding.md R93, the example words, which the spec derives from R80, R81 and R83, and the word of
every rounding mode of R83, written out from its table. -/
def Obligations.SpecExampleWordsDecode : Prop :=
  decode 0x0000000000000132#64 = .ok (.shrRound (.mode .up) false) ∧
  decode 0x0000000000000C32#64 = .ok (.shrRound (.mode .nearest) true) ∧
  decode 0x0000000000000533#64 = .ok (.rtm (.mode .exact) false) ∧
  decode 0x0000000000000041#64 = .ok .xorNn ∧
  decode 0x0000000000000053#64 = .ok .mulmodBnm1 ∧
  decode 0x0000000000000032#64 = .ok (.shrRound (.mode .down) false) ∧
  decode 0x0000000000000232#64 = .ok (.shrRound (.mode .floor) false) ∧
  decode 0x0000000000000332#64 = .ok (.shrRound (.mode .ceiling) false) ∧
  decode 0x0000000000000432#64 = .ok (.shrRound (.mode .nearest) false) ∧
  decode 0x0000000000000532#64 = .ok (.shrRound (.mode .exact) false) ∧
  decode 0x0000000000000033#64 = .ok (.rtm (.mode .down) false) ∧
  decode 0x0000000000000133#64 = .ok (.rtm (.mode .up) false) ∧
  decode 0x0000000000000A33#64 = .ok (.rtm (.mode .floor) true) ∧
  decode 0x0000000000000B33#64 = .ok (.rtm (.mode .ceiling) true) ∧
  decode 0x0000000000000433#64 = .ok (.rtm (.mode .nearest) false) ∧
  (∀ s : State, s.engineMoves = true → s.cmd = 0x0000000000001019#64 → step s = .next (errorState s 1)) ∧
  (∀ s : State, s.engineMoves = true → s.cmd = 0x0000000000000632#64 → step s = .next (errorState s 2))

/-- 30_encoding.md R82: decoding is by OP and the reserved bits; bits 11:8 are operands of SHR_ROUND and RTM, and
don't-care for every other command. Decoding an encoded command gives it back, whatever the don't-care bits are. -/
def Obligations.DecodeAcceptsExactlyTheEncodings : Prop :=
  ∀ (w : Word) (i : Instr),
    (decode w = .ok i ↔ w &&& i.careMask = encode i) ∧
    (encode i).toNat = i.opcode.toNat + 2 ^ 8 * i.rmBits.toNat + 2 ^ 11 * i.negBit.toNat

/-- 30_encoding.md R85: the illegal encodings are a set reserved bit, a reserved OP (the list of R81), and RM = 6 or 7 in
SHR_ROUND and RTM. The first two raise EOPC (1), the third raises ERM (2), and no other word is illegal: it decodes to a
well-formed command, which raises neither. -/
def Obligations.IllegalWordsAreExactlyThese : Prop :=
  let reserved : Nat → Prop := fun op =>
    (0x01 ≤ op ∧ op ≤ 0x0F) ∨ (0x1C ≤ op ∧ op ≤ 0x1F) ∨ (0x27 ≤ op ∧ op ≤ 0x2F) ∨ (0x34 ≤ op ∧ op ≤ 0x3F) ∨
    (0x4B ≤ op ∧ op ≤ 0x4F) ∨ (0x55 ≤ op ∧ op ≤ 0xFF)
  let badMode : Word → Prop := fun w =>
    (w.toNat % 2 ^ 8 = 0x32 ∨ w.toNat % 2 ^ 8 = 0x33) ∧ (w.toNat / 2 ^ 8 % 2 ^ 3 = 6 ∨ w.toNat / 2 ^ 8 % 2 ^ 3 = 7)
  (∀ w : Word, decode w = .error .reservedBits ↔ 2 ^ 12 ≤ w.toNat) ∧
  (∀ w : Word, w.toNat < 2 ^ 12 → (decode w = .error .reservedOp ↔ reserved (w.toNat % 2 ^ 8))) ∧
  (∀ w : Word, w.toNat < 2 ^ 12 → ¬ reserved (w.toNat % 2 ^ 8) →
    ∃ i, decode w = .ok i ∧ (i.wellFormed = false ↔ badMode w)) ∧
  (∀ s : State, s.engineMoves = true → (∀ i, decode s.cmd ≠ .ok i) → step s = .next (errorState s 1)) ∧
  (∀ s : State, s.engineMoves = true → s.cmd.toNat < 2 ^ 12 → badMode s.cmd → step s = .next (errorState s 2)) ∧
  (∀ (i : Instr) (s : State), i.wellFormed = false → Raises i s 2) ∧
  (∀ (i : Instr) (s : State), i.wellFormed = true → ¬ Raises i s 1 ∧ ¬ Raises i s 2)

/-- 30_encoding.md R88: when the engine moves, a step is `exec` of the command that CMD decodes to, and nothing else
happens in that step. -/
def Obligations.StepRunsTheDecodedCommand : Prop :=
  ∀ (s : State) (i : Instr),
    s.phase = .busy → (s.hostWaits = true ∨ s.delay = 0) → decode s.cmd = .ok i → step s = exec i s

/-! ### Reset and the invariant -/

/-- 70_reset_and_hazards.md R250: the power-on values. -/
def Obligations.PowerOnValues : Prop :=
  ∀ c : Config,
    csrValue 0 (State.powerOn c) = BitVec.ofNat 64 (c.width.bits ||| (1 <<< 8) ||| (c.lmLimbs <<< 32)) ∧
    (∀ n, 1 ≤ n → n ≤ 255 → csrValue n (State.powerOn c) = 0) ∧
    (State.powerOn c).phase = .idle ∧ (State.powerOn c).irq = false ∧
    ∀ i, (State.powerOn c).limb? i = none

/-- The power-on state of every engine with legal parameters meets the invariant. -/
def Obligations.PowerOnMeetsInv : Prop := ∀ c : Config, c.wf → (State.powerOn c).Inv

/-- Every step keeps the invariant: written limbs exist and have W bits, memory and temporaries stay canonical, only
codes 0 to 11 are reported, DONE, ERR and ECODE are clear while BUSY, results are 0 after an error, RNLEN is at most RLEN,
RLEN fits LM and RAUX is a limb. -/
def Obligations.StepKeepsInv : Prop := ∀ s t : State, s.Inv → step s = .next t → t.Inv

/-! ### The register file -/

/-- 10_state.md R21: the fields of ID, and that nothing changes it. -/
def Obligations.IdRegisterIsFixed : Prop :=
  ∀ s : State, s.cfg.wf →
    ((csrValue 0 s).extractLsb' 0 8).toNat = s.w ∧ (csrValue 0 s).extractLsb' 8 8 = 1 ∧
    (csrValue 0 s).extractLsb' 16 16 = 0 ∧ ((csrValue 0 s).extractLsb' 32 32).toNat = s.cfg.lmLimbs ∧
    (∀ v, s.phase = .idle → csrWrite 0 v s = s) ∧
    ∀ t, step s = .next t → csrValue 0 t = csrValue 0 s

/-- 10_state.md R23: where the bits of STATUS stand, and what a host write to it does, in both phases. -/
def Obligations.StatusBitsAndWriteOneToClear : Prop :=
  ∀ (s : State) (v : Word),
    (∀ k, (csrValue 2 s).getLsbD k =
      if k = 0 then decide (s.phase = .busy) else if k = 1 then s.done else if k = 2 then s.err
      else if k = 3 then s.werr else if 8 ≤ k ∧ k < 16 then s.ecode.getLsbD (k - 8) else false) ∧
    csrWrite 2 v s =
      { s with
        done := if v.getLsbD 1 then false else s.done
        err := if v.getLsbD 2 then false else s.err
        werr := if v.getLsbD 3 then false else s.werr }

/-- 10_state.md R24 to R27, R30 and R35: in the IDLE phase a write to CMD, XBASE to ARG1 stores every bit and changes no
other register; a write to a read-only or reserved number changes nothing. -/
def Obligations.IdleRegisterWrites : Prop :=
  ∀ (s : State) (n : Nat) (v : Word), s.phase = .idle → n ≤ 255 →
    ((3 ≤ n ∧ n ≤ 11) → csrValue n (csrWrite n v s) = v ∧ (csrWrite n v s).lm = s.lm ∧
      ∀ m, m ≠ n → csrValue m (csrWrite n v s) = csrValue m s) ∧
    ((n = 0 ∨ 12 ≤ n) → csrWrite n v s = s)

/-- 10_state.md R22: what CTRL reads as, its three bits, that its other bits take no write, that SRST wins over GO, and
that GO starts a command. That a write with SRST = 1 does not store its IEN bit is read from 70_reset_and_hazards.md
R251 (b) (log 15). -/
def Obligations.CtrlBitsAndPulses : Prop :=
  ∀ (s : State) (v : Word),
    (∀ k, (csrValue 1 s).getLsbD k = (decide (k = 2) && s.ien)) ∧
    csrWrite 1 (v &&& 7) s = csrWrite 1 v s ∧
    (v.getLsbD 1 = true → csrWrite 1 v s = softReset s) ∧
    (v.getLsbD 1 = false → csrValue 1 (csrWrite 1 v s) = if v.getLsbD 2 then 4 else 0) ∧
    (s.phase = .idle → ((csrWrite 1 v s).phase = .busy ↔ v.getLsbD 0 = true ∧ v.getLsbD 1 = false)) ∧
    ∀ c, csrValue 1 (State.powerOn c) = 0

/-- 10_state.md R35: a CTRL write in the IDLE phase with GO = 1 and SRST = 0 starts a command and stores IEN; WERR, the
result registers and all else keep their values. The delay of the engine step is open (log 6).
That ERR and ECODE are cleared, against the words of 70_reset_and_hazards.md R254, is log 18. -/
def Obligations.GoStartsACommand : Prop :=
  ∀ (s : State) (v : Word), s.phase = .idle → v.getLsbD 0 = true → v.getLsbD 1 = false →
    csrWrite 1 v s =
      { s with
        ien := v.getLsbD 2, phase := .busy, done := false, err := false, ecode := 0
        delay := (csrWrite 1 v s).delay, schedule := (csrWrite 1 v s).schedule, draws := (csrWrite 1 v s).draws }

/-- 10_state.md R36: which writes take effect in the BUSY phase; every other one is dropped and sets WERR.
That a CTRL write with SRST = 1 does not store its IEN bit is read from 70_reset_and_hazards.md R251 (b) (log 15). -/
def Obligations.BusyRegisterWrites : Prop :=
  ∀ (s : State) (n : Nat) (v : Word), s.phase = .busy → n ≤ 255 →
    (n = 2 → csrWrite n v s =
      { s with
        done := if v.getLsbD 1 then false else s.done
        err := if v.getLsbD 2 then false else s.err
        werr := if v.getLsbD 3 then false else s.werr }) ∧
    (n = 1 → v.getLsbD 1 = true → csrWrite n v s = softReset s) ∧
    (n = 1 → v.getLsbD 1 = false → v.getLsbD 0 = true → csrWrite n v s = { s with ien := v.getLsbD 2, werr := true }) ∧
    (n = 1 → v.getLsbD 1 = false → v.getLsbD 0 = false → csrWrite n v s = { s with ien := v.getLsbD 2 }) ∧
    (15 ≤ n → csrWrite n v s = s) ∧
    (n ≠ 1 → n ≠ 2 → n < 15 → csrWrite n v s = { s with werr := true })

/-- 70_reset_and_hazards.md R251 and 10_state.md R22: a CTRL write with SRST = 1, in either phase and whatever GO is. That
CTRL reads 0 afterwards although the written IEN bit was 1 is read from R251 (b) (log 15). The destination is that of the
command in CMD, even where that command would have raised, and only its limbs that lie in LM take free values; where CMD
stands for no command there is none (log 5). That the host agent is untouched is the model's own clause, of a host that
R251 does not speak of (log 7). -/
def Obligations.SoftResetEffect : Prop :=
  ∀ (s : State) (v : Word), v.getLsbD 1 = true →
    let t := csrWrite 1 v s
    (∀ n, n ≤ 255 → csrValue n t = csrValue n (State.powerOn s.cfg)) ∧
    t.phase = .idle ∧ t.irq = false ∧ t.cfg = s.cfg ∧
    t.program = s.program ∧ t.hostPc = s.hostPc ∧ t.temps = s.temps ∧
    (s.phase = .idle → t.lm = s.lm) ∧
    (s.phase = .busy → ∀ e, decode s.cmd = .error e → t.lm = s.lm) ∧
    (s.phase = .busy → ∀ i, decode s.cmd = .ok i →
      (∀ k, k < destBase (rowOf i).dest s ∨ destBase (rowOf i).dest s + destCap (rowOf i).dest s ≤ k →
        t.limb? k = s.limb? k) ∧
      (∀ k, destBase (rowOf i).dest s ≤ k → k < destBase (rowOf i).dest s + destCap (rowOf i).dest s →
        k < s.cfg.lmLimbs → (t.limb? k).isSome = true))

/-- 10_state.md R32: the interrupt line, and when it rises and falls. -/
def Obligations.InterruptLine : Prop :=
  ∀ s : State,
    s.irq = ((csrValue 2 s).getLsbD 1 && (csrValue 1 s).getLsbD 2) ∧
    (∀ i t, exec i s = .next t → t.irq = s.ien) ∧
    (∀ v, v.getLsbD 0 = false → v.getLsbD 1 = false → (csrWrite 1 v s).irq = (s.done && v.getLsbD 2)) ∧
    (∀ v, v.getLsbD 1 = true → (csrWrite 2 v s).irq = false ∧ (csrWrite 1 v s).irq = false) ∧
    ∀ c, (State.powerOn c).irq = false

/-! ### Host transactions -/

/-- 20_memory.md R60: the four transactions and their bus errors, which stop the run. An LmRead of a limb never written
is the host fault of 60_exceptions.md R227, not of this rule. -/
def Obligations.HostTransactions : Prop :=
  ∀ s : State,
    (∀ n, n ≤ 255 → transact (.csrRead n) s = .ok (s, csrValue n s)) ∧
    (∀ n v, n ≤ 255 → transact (.csrWrite n v) s = .ok (csrWrite n v s, 0)) ∧
    (∀ i v, i < s.cfg.lmLimbs → s.limb? i = some v → transact (.lmRead i) s = .ok (s, BitVec.ofNat 64 v)) ∧
    (∀ i v, i < s.cfg.lmLimbs → ∃ t, transact (.lmWrite i v) s = .ok (t, 0) ∧ t = { s with lm := t.lm } ∧
      t.limb? i = some (v.toNat % 2 ^ s.w) ∧ ∀ k, k ≠ i → t.limb? k = s.limb? k) ∧
    (∀ n v, 255 < n → transact (.csrRead n) s = .error (.busErrorCsr n) ∧
      transact (.csrWrite n v) s = .error (.busErrorCsr n)) ∧
    (∀ i v, s.cfg.lmLimbs ≤ i → transact (.lmRead i) s = .error (.busErrorLm i) ∧
      transact (.lmWrite i v) s = .error (.busErrorLm i)) ∧
    (s.phase = .idle → ∀ n k v,
      (255 < n → s.hostOp = some (.csrr n k) ∨ s.hostOp = some (.csrw n v) → step s = .fault (.busErrorCsr n)) ∧
      (s.cfg.lmLimbs ≤ n → s.hostOp = some (.lmr n k) ∨ s.hostOp = some (.lmw n v) → step s = .fault (.busErrorLm n)))

/-- 20_memory.md R62: a host limb transaction made while BUSY waits, whether it is made as such or as a byte access that
selects a limb (log 10): the engine step comes first, and then the transaction is performed on the state the command
left. A CSR transaction, or a byte access that selects a register, does not wait: it is performed at once while the
engine step is still to come, which the model counts in `delay` (log 6). A byte access that selects nothing stops the run
at once (log 10). A register read made while BUSY answers the current value (10_state.md R37), and a host branch is
performed at once too. The premise on the temporaries is part of the invariant `State.Inv`. -/
def Obligations.LimbTransactionsWaitWhileBusy : Prop :=
  ∀ s : State, s.phase = .busy →
    (∀ i k, s.hostOp = some (.lmr i k) → step s = engineStep s ∧
      ∀ t, step s = .next t → step t = hostRead (.lmRead i) k t) ∧
    (∀ i v, s.hostOp = some (.lmw i v) → step s = engineStep s ∧
      ∀ t, step s = .next t → step t = hostWrite (.lmWrite i v) t) ∧
    (∀ addr width k i, s.hostOp = some (.busr addr width k) → busRead? s.cfg addr width = some (.lmRead i) →
      step s = engineStep s ∧ ∀ t, step s = .next t → step t = hostRead (.lmRead i) k t) ∧
    (∀ addr bytes i v, s.hostOp = some (.busw addr bytes) → busWrite? s.cfg addr bytes = some (.lmWrite i v) →
      step s = engineStep s ∧ ∀ t, step s = .next t → step t = hostWrite (.lmWrite i v) t) ∧
    (0 < s.delay →
      let s' := { s with delay := s.delay - 1 }
      (∀ n k, s.hostOp = some (.csrr n k) → step s = hostRead (.csrRead n) k s') ∧
      (∀ n v, s.hostOp = some (.csrw n v) → step s = hostWrite (.csrWrite n v) s') ∧
      (∀ n k, n ≤ 255 → Cells.wf s.temps = true → s.hostOp = some (.csrr n k) →
        ∃ t, step s = .next t ∧ t = { s' with hostPc := s.hostPc + 1, temps := t.temps } ∧ t.temp k = csrValue n s ∧
          ∀ j, j ≠ k → t.temp j = s.temp j) ∧
      (∀ n v, n ≤ 255 → s.hostOp = some (.csrw n v) →
        step s = .next { csrWrite n v s' with hostPc := s.hostPc + 1 }) ∧
      (∀ k m c p, s.hostOp = some (.ifEq k m c p) →
        step s = .next { s' with hostPc := if s.temp k &&& m = c then p else s.hostPc + 1 }) ∧
      (∀ k m c p, s.hostOp = some (.ifNe k m c p) →
        step s = .next { s' with hostPc := if s.temp k &&& m = c then s.hostPc + 1 else p }) ∧
      (∀ addr width k n, s.hostOp = some (.busr addr width k) → busRead? s.cfg addr width = some (.csrRead n) →
        step s = hostRead (.csrRead n) k s') ∧
      (∀ addr bytes n v, s.hostOp = some (.busw addr bytes) → busWrite? s.cfg addr bytes = some (.csrWrite n v) →
        step s = hostWrite (.csrWrite n v) s') ∧
      (∀ addr width k, s.hostOp = some (.busr addr width k) → busRead? s.cfg addr width = none →
        step s = .fault (.busErrorAccess addr width)) ∧
      (∀ addr bytes, s.hostOp = some (.busw addr bytes) → busWrite? s.cfg addr bytes = none →
        step s = .fault (.busErrorAccess addr bytes.length)))

/-- 20_memory.md R69: no read has a side effect: a host read changes its temporary and the host's own place in its
program, and nothing of the engine. The premise on the temporaries is part of the invariant `State.Inv`. -/
def Obligations.ReadsHaveNoSideEffect : Prop :=
  ∀ (s t : State) (n a k w : Nat), Cells.wf s.temps = true → s.engineMoves = false →
    (s.hostOp = some (.csrr n k) ∨ s.hostOp = some (.lmr n k) ∨ s.hostOp = some (.busr a w k)) →
    step s = .next t →
    t = { s with temps := t.temps, hostPc := s.hostPc + 1, delay := t.delay } ∧
    ∀ j, j ≠ k → t.temp j = s.temp j

/-- 20_memory.md R61: the byte map. Where the two windows do not overlap, a byte access is legal exactly when it has the
register's or the limb's width, is naturally aligned and stands at that register's or limb's address; the bytes are in
little-endian order, byte j of a written value being the j-th byte of the access and every higher bit 0. -/
def Obligations.PlatformByteMap : Prop :=
  ∀ (c : Config) (addr width : Nat) (bytes : List Byte),
    (c.csrBase + 2048 ≤ c.lmBase ∨ c.lmBase + c.width.bits / 8 * c.lmLimbs ≤ c.csrBase) →
    (∀ n, busRead? c addr width = some (.csrRead n) ↔
      width = 8 ∧ addr % 8 = 0 ∧ n ≤ 255 ∧ addr = c.csrBase + 8 * n) ∧
    (∀ i, busRead? c addr width = some (.lmRead i) ↔
      width = c.width.bits / 8 ∧ addr % (c.width.bits / 8) = 0 ∧ i < c.lmLimbs ∧
      addr = c.lmBase + c.width.bits / 8 * i) ∧
    (∀ n v, busWrite? c addr bytes = some (.csrWrite n v) ↔
      busRead? c addr bytes.length = some (.csrRead n) ∧ v = BitVec.ofNat 64 (leValue bytes)) ∧
    (∀ i v, busWrite? c addr bytes = some (.lmWrite i v) ↔
      busRead? c addr bytes.length = some (.lmRead i) ∧ v = BitVec.ofNat 64 (leValue bytes)) ∧
    (∀ n v, busWrite? c addr bytes = some (.csrWrite n v) →
      bytes.length = 8 ∧ ∀ j (h : j < bytes.length), v.extractLsb' (8 * j) 8 = bytes[j]) ∧
    (∀ i v, busWrite? c addr bytes = some (.lmWrite i v) →
      bytes.length = c.width.bits / 8 ∧ v.toNat < 2 ^ c.width.bits ∧
      ∀ j (h : j < bytes.length), v.extractLsb' (8 * j) 8 = bytes[j]) ∧
    (∀ s k, s.cfg = c → s.phase = .idle → s.hostOp = some (.busr addr width k) → busRead? c addr width = none →
      step s = .fault (.busErrorAccess addr width)) ∧
    (∀ s, s.cfg = c → s.phase = .idle → s.hostOp = some (.busw addr bytes) → busWrite? c addr bytes = none →
      step s = .fault (.busErrorAccess addr bytes.length))

/-- 30_encoding.md R92 and 20_memory.md R61: the host operations in the IDLE phase: `csrw`, `csrr`, `lmw`, `lmr`, the
byte accesses that select a register or a limb, the branches, and `stop` and the end of the program, which leave the state
as it is (log 9). What a host read or write makes of its transaction is said for both phases (10_state.md R37). The premise
on the temporaries is part of the invariant `State.Inv`. -/
def Obligations.HostOperationsWhileIdle : Prop :=
  ∀ s : State, Cells.wf s.temps = true →
    (∀ tr t v, transact tr s = .ok (t, v) →
      hostWrite tr s = .next { t with hostPc := s.hostPc + 1 } ∧
      ∀ k, ∃ u, hostRead tr k s = .next u ∧ u = { t with hostPc := s.hostPc + 1, temps := u.temps } ∧ u.temp k = v ∧
        ∀ j, j ≠ k → u.temp j = s.temp j) ∧
    (∀ tr f, transact tr s = .error f → hostWrite tr s = .fault f ∧ ∀ k, hostRead tr k s = .fault f) ∧
    (s.phase = .idle →
      (∀ n v, n ≤ 255 → s.hostOp = some (.csrw n v) →
        step s = .next { csrWrite n v s with hostPc := s.hostPc + 1 }) ∧
      (∀ n k, n ≤ 255 → s.hostOp = some (.csrr n k) →
        ∃ t, step s = .next t ∧ t.temp k = csrValue n s ∧ t.hostPc = s.hostPc + 1) ∧
      (∀ i v, i < s.cfg.lmLimbs → s.hostOp = some (.lmw i v) →
        ∃ t, step s = .next t ∧ t.limb? i = some (v.toNat % 2 ^ s.w) ∧ t.hostPc = s.hostPc + 1) ∧
      (∀ i k v, i < s.cfg.lmLimbs → s.limb? i = some v → s.hostOp = some (.lmr i k) →
        ∃ t, step s = .next t ∧ (t.temp k).toNat = v ∧ t.hostPc = s.hostPc + 1) ∧
      (∀ addr width k tr, s.hostOp = some (.busr addr width k) → busRead? s.cfg addr width = some tr →
        step s = hostRead tr k s) ∧
      (∀ addr bytes tr, s.hostOp = some (.busw addr bytes) → busWrite? s.cfg addr bytes = some tr →
        step s = hostWrite tr s) ∧
      (∀ k m c p, s.hostOp = some (.ifEq k m c p) →
        step s = .next { s with hostPc := if s.temp k &&& m = c then p else s.hostPc + 1 }) ∧
      (∀ k m c p, s.hostOp = some (.ifNe k m c p) →
        step s = .next { s with hostPc := if s.temp k &&& m = c then s.hostPc + 1 else p }) ∧
      (∀ n v, s.hostOp = some (.csrw n v) → step s = hostWrite (.csrWrite n v) s) ∧
      (∀ n k, s.hostOp = some (.csrr n k) → step s = hostRead (.csrRead n) k s) ∧
      (∀ i v, s.hostOp = some (.lmw i v) → step s = hostWrite (.lmWrite i v) s) ∧
      (∀ i k, s.hostOp = some (.lmr i k) → step s = hostRead (.lmRead i) k s) ∧
      (s.hostOp = some .stop → step s = .next s) ∧ (s.hostOp = none → step s = .next s))

/-- 30_encoding.md R92: the command word `enc = OP | (RM << 8) | (NEG << 11)` of a `cmd` line, and the expansions of the
pseudo-instructions. -/
def Obligations.PseudoInstructionExpansions : Prop :=
  (∀ (op : BitVec 8) (m : RoundMode) (neg : Bool),
    (cmdEnc op (some m) neg).toNat = op.toNat ||| (m.number.toNat <<< 8) ||| (neg.toNat <<< 11) ∧
    (cmdEnc op none neg).toNat = op.toNat ||| (neg.toNat <<< 11)) ∧
  (∀ k op m neg x y o a b,
    expandLine k (.cmd op m neg x y o a b) =
      (match x with | some (base, len) => [.csrw 4 base, .csrw 5 len] | none => []) ++
      (match y with | some (base, len) => [.csrw 6 base, .csrw 7 len] | none => []) ++
      (match o with | some (base, cap) => [.csrw 8 base, .csrw 9 cap] | none => []) ++
      (match a with | some v => [.csrw 10 v] | none => []) ++
      (match b with | some v => [.csrw 11 v] | none => []) ++
      [.csrw 3 (cmdEnc op m neg), .csrw 1 1]) ∧
  (∀ k, expandLine k .go = [.csrw 1 1] ∧ expandLine k .goi = [.csrw 1 5] ∧ expandLine k .srst = [.csrw 1 2] ∧
    expandLine k .wait = [.label (.fresh k), .csrr 2 0, .ifEq 0 2 0 (.fresh k)] ∧ expandLine k .ack = [.csrw 2 14])

/-! ### Every command -/

/-- 30_encoding.md R89: every command ends in exactly one of two completions and leaves the engine IDLE; else it read a
limb never written, which is a host fault (60_exceptions.md R227). It is never refused. -/
def Obligations.EveryCommandEndsInOneCompletion : Prop :=
  ∀ (i : Instr) (s : State),
    (∃ t, exec i s = .next t ∧ t.phase = .idle ∧ t.done = true ∧ t.werr = s.werr ∧
      ((t.ecode = 0 ∧ t.err = false) ∨
       (1 ≤ t.ecode.toNat ∧ t.ecode.toNat ≤ 11 ∧ t.err = true))) ∨
    (∃ k, exec i s = .fault (.neverWritten k) ∧ s.limb? k = none)

/-- 60_exceptions.md R224 and R220: a command that raises changes the completion fields and nothing else. -/
def Obligations.FailingCommandIsPrecise : Prop :=
  ∀ (i : Instr) (s t : State), exec i s = .next t → t.ecode ≠ 0 →
    t = { s with rlen := 0, rnlen := 0, raux := 0, ecode := t.ecode, err := true, done := true, phase := .idle }

/-- 60_exceptions.md R221: which commands can report which code. -/
def Obligations.ReportedCodesAreThoseOfTheTable : Prop :=
  ∀ (i : Instr) (s t : State), exec i s = .next t → t.ecode ≠ 0 → t.ecode.toNat ∈ specCodes i

/-- 20_memory.md R67: a command writes no limb outside its destination region, and no limb at all if it raises. -/
def Obligations.NoLimbOutsideTheDestinationIsWritten : Prop :=
  ∀ (i : Instr) (s t : State), exec i s = .next t →
    (∀ k, k < destBase (rowOf i).dest s ∨ destBase (rowOf i).dest s + destCap (rowOf i).dest s ≤ k →
      t.limb? k = s.limb? k) ∧
    (t.ecode ≠ 0 → ∀ k, t.limb? k = s.limb? k)

/-- 30_encoding.md R87: a command reads no register that its row marks unused, so those may hold anything. -/
def Obligations.UnusedRegistersDoNotMatter : Prop :=
  ∀ (i : Instr) (s s' : State), SameInputs i s s' → SameResults (exec i s) (exec i s')

/-- 60_exceptions.md R227 (b): a host LmRead of a limb never written, made as such or as a byte access, and a command that
reads such a limb as an operand, stop in a host fault. The fault of a command names the first such limb of X, or of Y where
X is written (log 12). -/
def Obligations.NeverWrittenOperandFaults : Prop :=
  (∀ (s : State) (k : Nat), k < s.cfg.lmLimbs → s.limb? k = none →
    transact (.lmRead k) s = .error (.neverWritten k) ∧
    (s.phase = .idle →
      (∀ j, s.hostOp = some (.lmr k j) → step s = .fault (.neverWritten k)) ∧
      (∀ addr width j, s.hostOp = some (.busr addr width j) → busRead? s.cfg addr width = some (.lmRead k) →
        step s = .fault (.neverWritten k)))) ∧
  ∀ (i : Instr) (s : State) (j : Nat), i.wellFormed = true → regionsInLm (rowOf i) s = true →
    ((rowOf i).readsX = true → j < s.xlen.toNat → s.limb? (s.xbase.toNat + j) = none →
      (∀ k, k < j → (s.limb? (s.xbase.toNat + k)).isSome = true) →
      exec i s = .fault (.neverWritten (s.xbase.toNat + j))) ∧
    ((rowOf i).readsY = true → (∀ k, k < s.xlen.toNat → (s.limb? (s.xbase.toNat + k)).isSome = true) →
      j < s.ylen.toNat → s.limb? (s.ybase.toNat + j) = none →
      (∀ k, k < j → (s.limb? (s.ybase.toNat + k)).isSome = true) →
      exec i s = .fault (.neverWritten (s.ybase.toNat + j)))

/-- 60_exceptions.md R237: nothing wakes the engine but a GO: a step out of IDLE into BUSY is a host write to CTRL with
GO = 1 and SRST = 0. -/
def Obligations.OnlyGoWakesTheEngine : Prop :=
  ∀ s t : State, s.phase = .idle → step s = .next t → t.phase = .busy →
    ∃ v : Word, v.getLsbD 0 = true ∧ v.getLsbD 1 = false ∧
      (s.hostOp = some (.csrw 1 v) ∨
        ∃ addr bytes, s.hostOp = some (.busw addr bytes) ∧ busWrite? s.cfg addr bytes = some (.csrWrite 1 v))

/-- 70_reset_and_hazards.md R253, 10_state.md R36: while a command runs, no step changes an operand register, a result
register or a limb. -/
def Obligations.NothingMovesWhileBusy : Prop :=
  ∀ s t : State, s.phase = .busy → step s = .next t → t.phase = .busy →
    t.lm = s.lm ∧ ∀ n, n ≠ 1 → n ≠ 2 → csrValue n t = csrValue n s

/-- 70_reset_and_hazards.md R256: fairness. Within `delay + 1` steps of a BUSY state the engine is IDLE again, or the run
has stopped in a fault. -/
def Obligations.EveryCommandFinishes : Prop :=
  ∀ s : State, s.phase = .busy →
    ∃ k, k ≤ s.delay + 1 ∧
      ((∃ f, Host.Core.run core k s = .fault f) ∨ ∃ t : State, Host.Core.run core k s = .next t ∧ t.phase = .idle)

/-- 00_scope.md R14: `sigbits` is the number of bits of a value, and `nlen` the number of limbs left after trimming. -/
def Obligations.SigbitsAndTrimmedLength : Prop :=
  (∀ v n, sigbits v ≤ n ↔ v < 2 ^ n) ∧ ∀ w v n, 0 < w → (nlen w v ≤ n ↔ v < 2 ^ (w * n))

/-! ### One statement per command, or per group of one shape -/

/-- 30_encoding.md R90: NOP completes in every state, and its word with a reserved bit set raises EOPC. -/
def Obligations.NopCompletes : Prop :=
  Follows 0x00#64 .nop ⟨false, false, fun _ => 0, fun _ => 0⟩ (fun _ _ _ => .result 0 0 0) ∧
  ∀ s : State, s.engineMoves = true → cmdOp s.cmd = 0 → 2 ^ 12 ≤ s.cmd.toNat → step s = .next (errorState s 1)

/-- 40_logic.md R101, R105, R109: the same-length forms. -/
def Obligations.SameLengthLogic : Prop :=
  let rule (f : Nat → Nat → Nat) : SpecRule := fun s x y =>
    if s.xlen ≠ s.ylen then .code 5 else .result s.xlen.toNat (f x y) 0
  Follows 0x10#64 .andSl (.out true true) (rule (· &&& ·)) ∧
  Follows 0x14#64 .orSl (.out true true) (rule (· ||| ·)) ∧
  Follows 0x18#64 .xorSl (.out true true) (rule (· ^^^ ·))

/-- 40_logic.md R102, R103, R106, R107, R110, R111: the general and the in-place-left forms. -/
def Obligations.GeneralAndInPlaceLeftLogic : Prop :=
  let rule (f : Nat → Nat → Nat) : SpecRule := fun s x y => .result (max s.xlen.toNat s.ylen.toNat) (f x y) 0
  Follows 0x11#64 .and (.out true true) (rule (· &&& ·)) ∧
  Follows 0x12#64 .andIpl (.ipl true true) (rule (· &&& ·)) ∧
  Follows 0x15#64 .or (.out true true) (rule (· ||| ·)) ∧
  Follows 0x16#64 .orIpl (.ipl true true) (rule (· ||| ·)) ∧
  Follows 0x19#64 .xor (.out true true) (rule (· ^^^ ·)) ∧
  Follows 0x1A#64 .xorIpl (.ipl true true) (rule (· ^^^ ·))

/-- 40_logic.md R104, R108, R112: the in-place-either forms. -/
def Obligations.InPlaceEitherLogic : Prop :=
  let rule (f : Nat → Nat → Nat) : SpecRule := fun s x y =>
    .result (max s.xlen.toNat s.ylen.toNat) (f x y) (if s.xlen.toNat ≥ s.ylen.toNat then 0 else 1)
  Follows 0x13#64 .andIpe (.either true true) (rule (· &&& ·)) ∧
  Follows 0x17#64 .orIpe (.either true true) (rule (· ||| ·)) ∧
  Follows 0x1B#64 .xorIpe (.either true true) (rule (· ^^^ ·))

/-- 41_shift.md R131, R132. -/
def Obligations.ShlMultipliesByAPowerOfTwo : Prop :=
  let rule : SpecRule := fun s x _ =>
    let q := s.arg0.toNat / s.w
    let r := s.arg0.toNat % s.w
    let c := x * 2 ^ r / 2 ^ (s.w * s.xlen.toNat)
    .result (s.xlen.toNat + q + if c ≠ 0 then 1 else 0) (x * 2 ^ s.arg0.toNat) c
  Follows 0x20#64 .shl (.out true false) rule ∧ Follows 0x21#64 .shlIp (.ipl true false) rule

/-- 41_shift.md R133, R134: the sub-limb left shifts; SHLC complements every written limb and not the carry,
a convention of 92_eei_decisions.md D28 (log 13). -/
def Obligations.SubLimbLeftShifts : Prop :=
  let rule (complement : Bool) : SpecRule := fun s x _ =>
    let n := s.w * s.xlen.toNat
    let a0 := s.arg0.toNat
    if a0 < 1 ∨ a0 > s.w - 1 then .code 8
    else
      let v := x * 2 ^ a0 % 2 ^ n
      .result s.xlen.toNat (if complement then 2 ^ n - 1 - v else v) (x * 2 ^ a0 / 2 ^ n)
  Follows 0x22#64 .shlSub (.self true false) (rule false) ∧ Follows 0x23#64 .shlc (.out true false) (rule true)

/-- 41_shift.md R135, R136: the full right shifts and their sticky bit. -/
def Obligations.ShrDividesByAPowerOfTwo : Prop :=
  let rule : SpecRule := fun s x _ =>
    .result (s.xlen.toNat - s.arg0.toNat / s.w) (x / 2 ^ s.arg0.toNat) (if x % 2 ^ s.arg0.toNat ≠ 0 then 1 else 0)
  Follows 0x24#64 .shr (.out true false) rule ∧ Follows 0x25#64 .shrIp (.self true false) rule

/-- 41_shift.md R137; where RAUX places the bits shifted out is a convention of 92_eei_decisions.md D28 (log 13). -/
def Obligations.SubLimbRightShift : Prop :=
  Follows 0x26#64 .shrSub (.self true false) fun s x _ =>
    let r := s.arg0.toNat
    if r < 1 ∨ r > s.w - 1 then .code 8
    else .result s.xlen.toNat (x / 2 ^ r) (x % 2 ^ r * 2 ^ (s.w - r))

/-- 42_round_mod.md R154. -/
def Obligations.ModpKeepsLowBits : Prop :=
  Follows 0x30#64 .modp (.out true false) fun s x _ =>
    .result (min s.xlen.toNat ((s.arg0.toNat + s.w - 1) / s.w)) (x % 2 ^ s.arg0.toNat) 0

/-- 42_round_mod.md R155. -/
def Obligations.NegmodpNegatesLowBits : Prop :=
  Follows 0x31#64 .negmodp (.out true false) fun s x _ =>
    .result ((s.arg0.toNat + s.w - 1) / s.w)
      ((2 ^ s.arg0.toNat - x % 2 ^ s.arg0.toNat) % 2 ^ s.arg0.toNat) 0

/-- 42_round_mod.md R156, with the rounding of R151, the effective mode of R152 (which the spec derives from R151) and
the ordering code of R153. -/
def Obligations.ShrRoundRounds : Prop :=
  (∀ (m : RoundMode) (neg : Bool),
    Follows (BitVec.ofNat 64 (0x32 + 2 ^ 8 * m.number.toNat + 2 ^ 11 * neg.toNat)) (.shrRound (.mode m) neg)
      (.out true false) fun s x _ =>
        match specRound x s.arg0.toNat m neg with
        | none => .code 10
        | some v =>
          let lf := s.xlen.toNat - s.arg0.toNat / s.w
          .result (if v < 2 ^ (s.w * lf) then lf else lf + 1) v (specOrd (v * 2 ^ s.arg0.toNat) x)) ∧
  ∀ (neg : Bool) (s : State), Raises (.shrRound .reserved6 neg) s 2 ∧ Raises (.shrRound .reserved7 neg) s 2

/-- 42_round_mod.md R157, with the rounding of R151, the effective mode of R152 (which the spec derives from R151) and
the ordering code of R153. -/
def Obligations.RtmRoundsToAMultiple : Prop :=
  (∀ (m : RoundMode) (neg : Bool),
    Follows (BitVec.ofNat 64 (0x33 + 2 ^ 8 * m.number.toNat + 2 ^ 11 * neg.toNat)) (.rtm (.mode m) neg)
      (.out true false) fun s x _ =>
        match specRound x s.arg0.toNat m neg with
        | none => .code 10
        | some q =>
          let v := q * 2 ^ s.arg0.toNat
          .result (max s.xlen.toNat (nlen s.w v)) v (specOrd v x)) ∧
  ∀ (neg : Bool) (s : State), Raises (.rtm .reserved6 neg) s 2 ∧ Raises (.rtm .reserved7 neg) s 2

/-- 43_twos_complement.md R171. -/
def Obligations.TwosNegatesASlice : Prop :=
  Follows 0x40#64 .twos (.out true false) fun s x _ =>
    let n := s.w * s.xlen.toNat
    .result s.xlen.toNat ((2 ^ n - x) % 2 ^ n) (if x = 0 then 1 else 0)

/-- 43_twos_complement.md R172, R173, R174. -/
def Obligations.XorOfTwoNegatives : Prop :=
  let rule (select : Bool) : SpecRule := fun s x y =>
    if s.xlen.toNat = 0 ∨ s.ylen.toNat = 0 then .code 4
    else if x = 0 ∨ y = 0 then .code 7
    else .result (max s.xlen.toNat s.ylen.toNat) ((x - 1) ^^^ (y - 1))
      (if select then (if s.xlen.toNat ≥ s.ylen.toNat then 0 else 1) else 0)
  Follows 0x41#64 .xorNn (.out true true) (rule false) ∧
  Follows 0x42#64 .xorNnIpl (.ipl true true) (rule false) ∧
  Follows 0x43#64 .xorNnIpe (.either true true) (rule true)

/-- 43_twos_complement.md R175, which the spec derives from 00_scope.md R15. -/
def Obligations.XorOfPositiveAndNegative : Prop :=
  Follows 0x44#64 .xorPn (.out true true) fun s x y =>
    if s.ylen.toNat = 0 then .code 4
    else if y = 0 then .code 7
    else
      let v := (x ^^^ (y - 1)) + 1
      let lb := max s.xlen.toNat s.ylen.toNat
      .result (if v < 2 ^ (s.w * lb) then lb else lb + 1) v 0

/-- 43_twos_complement.md R176, R177: the one-limb negative operand is `ARG1[W-1:0]`. The spec derives
both from 00_scope.md R15. -/
def Obligations.XorWithAOneLimbNegative : Prop :=
  (Follows 0x45#64 .xorPln (.out true false) fun s x _ =>
    let y := s.arg1.toNat % 2 ^ s.w
    if y = 0 then .code 7
    else
      let v := (x ^^^ (y - 1)) + 1
      let lb := max s.xlen.toNat 1
      .result (if v < 2 ^ (s.w * lb) then lb else lb + 1) v 0) ∧
  (Follows 0x46#64 .xorNln (.out true false) fun s x _ =>
    let y := s.arg1.toNat % 2 ^ s.w
    if s.xlen.toNat = 0 then .code 4
    else if x = 0 ∨ y = 0 then .code 7
    else .result s.xlen.toNat ((x - 1) ^^^ (y - 1)) 0)

/-- 43_twos_complement.md R178. -/
def Obligations.GetbOfAPositive : Prop :=
  Follows 0x47#64 .getbP (.out true false) fun s x _ =>
    let a0 := s.arg0.toNat
    let a1 := s.arg1.toNat
    if a0 > a1 then .code 9
    else .result ((a1 - a0 + s.w - 1) / s.w) (x / 2 ^ a0 % 2 ^ (a1 - a0)) 0

/-- 43_twos_complement.md R179. -/
def Obligations.GetbOfANegative : Prop :=
  Follows 0x48#64 .getbN (.out true false) fun s x _ =>
    let a0 := s.arg0.toNat
    let a1 := s.arg1.toNat
    if s.xlen.toNat = 0 then .code 4
    else if x = 0 then .code 7
    else if a0 > a1 then .code 9
    else
      let n := max a1 (s.w * s.xlen.toNat) + 1
      .result ((a1 - a0 + s.w - 1) / s.w) ((2 ^ n - x) / 2 ^ a0 % 2 ^ (a1 - a0)) 0

/-- 43_twos_complement.md R180. -/
def Obligations.AsgbOnAPositive : Prop :=
  Follows 0x49#64 .asgbP (.ipl true true) fun s x y =>
    let a0 := s.arg0.toNat
    let a1 := s.arg1.toNat
    if a0 > a1 then .code 9
    else
      let u := y % 2 ^ (a1 - a0)
      let v := x - x % 2 ^ a1 + x % 2 ^ a0 + u * 2 ^ a0
      .result (max s.xlen.toNat (nlen s.w v)) v 0

/-- 43_twos_complement.md R181; the spec derives from 00_scope.md R15 that the complement of the bits is written. -/
def Obligations.AsgbOnANegative : Prop :=
  Follows 0x4A#64 .asgbN (.ipl true true) fun s x y =>
    let a0 := s.arg0.toNat
    let a1 := s.arg1.toNat
    if s.xlen.toNat = 0 then .code 4
    else if x = 0 then .code 7
    else if a0 > a1 then .code 9
    else
      let u := y % 2 ^ (a1 - a0)
      let p := x - 1
      let v := p - p % 2 ^ a1 + p % 2 ^ a0 + (2 ^ (a1 - a0) - 1 - u) * 2 ^ a0 + 1
      .result (max s.xlen.toNat (nlen s.w v)) v 0

/-- 44_modmul.md R200. -/
def Obligations.MulIsTheFullProduct : Prop :=
  Follows 0x50#64 .mul (.out true true) fun s x y => .result (s.xlen.toNat + s.ylen.toNat) (x * y) 0

/-- 44_modmul.md R201. -/
def Obligations.MulloIsTheLowHalf : Prop :=
  Follows 0x51#64 .mullo (.out true true) fun s x y =>
    if s.xlen ≠ s.ylen then .code 5 else .result s.xlen.toNat (x * y % 2 ^ (s.w * s.xlen.toNat)) 0

/-- 44_modmul.md R202. -/
def Obligations.ModpmulReducesTheProduct : Prop :=
  Follows 0x52#64 .modpmul (.out true true) fun s x y =>
    let a0 := s.arg0.toNat
    if x ≥ 2 ^ a0 ∨ y ≥ 2 ^ a0 then .code 9
    else .result (min (s.xlen.toNat + s.ylen.toNat) ((a0 + s.w - 1) / s.w)) (x * y % 2 ^ a0) 0

/-- 44_modmul.md R204: a product congruent to 0 may be written as 0 or as B^n - 1; which one is a free choice (log 4). -/
def Obligations.MulmodBnm1IsAResidue : Prop :=
  Follows 0x53#64 .mulmodBnm1 (.out true true) fun s x y =>
    let n := s.arg0.toNat
    let m := 2 ^ (s.w * n) - 1
    if s.xlen.toNat = 0 ∨ s.ylen.toNat = 0 then .code 4
    else if s.ylen.toNat > s.xlen.toNat then .code 6
    else if n = 0 then .code 9
    else if x * y % m ≠ 0 then .result n (x * y % m) 0
    else .eitherOf n 0 m 0

/-- 44_modmul.md R206. -/
def Obligations.MulmodBnp1IsTheCanonicalResidue : Prop :=
  Follows 0x54#64 .mulmodBnp1 (.out true true) fun s x y =>
    let n := s.arg0.toNat
    if s.xlen.toNat = 0 ∨ s.ylen.toNat = 0 then .code 4
    else if s.ylen.toNat > s.xlen.toNat then .code 6
    else if n = 0 then .code 9
    else .result (n + 1) (x * y % (2 ^ (s.w * n) + 1)) 0

/-! ### Laws of the families -/

/-- 41_shift.md R138 (a), which the spec derives from R131 and R135: SHR, by the same count, of what SHL wrote
gives x back, with no bit lost. The second command reads the first one's result region and runs where its regions lie in
LM and its capacity holds the result. -/
def Obligations.ShrAfterShlGivesXBack : Prop :=
  ∀ (s t : State) (x : Nat) (ob oc : Word), Holds s s.xbase.toNat s.xlen.toNat x →
    exec .shl s = .next t → t.ecode = 0 →
    ob.toNat + oc.toNat ≤ s.cfg.lmLimbs → t.rlen.toNat - s.arg0.toNat / s.w ≤ oc.toNat →
    Completes .shr { t with xbase := s.obase, xlen := t.rlen, obase := ob, ocap := oc } ob.toNat oc.toNat
      (t.rlen.toNat - s.arg0.toNat / s.w) x 0

/-- 42_round_mod.md R158, which the spec derives from R151 and R152: the laws of the rounding SHR_ROUND and RTM use. -/
def Obligations.RoundingLaws : Prop :=
  ∀ (x b : Nat) (neg : Bool),
    let q := x / 2 ^ b
    let rm := x % 2 ^ b
    let round (m : RoundMode) := roundQ x b (effMode m neg)
    let lower := if neg then round .ceiling else round .floor
    let upper := if neg then round .floor else round .ceiling
    (rm = 0 → ∀ m, round m = .ok q) ∧
    (rm ≠ 0 → lower = .ok q ∧ upper = .ok (q + 1) ∧
      (2 * rm < 2 ^ b → round .nearest = .ok q) ∧ (2 * rm > 2 ^ b → round .nearest = .ok (q + 1)) ∧
      (2 * rm = 2 ^ b → round .nearest = .ok (if q % 2 = 0 then q else q + 1))) ∧
    (round .exact = .error .einexact ↔ round .down ≠ round .up)

/-- 43_twos_complement.md R183, which the spec derives from R170 and R172: the limb-wise form of XOR_NN. `ix` and `iy`
are the pivots of X and Y, P is the operand of the lower pivot, whichever it is, and Q is the other. -/
def Obligations.XorOfTwoNegativesLimbByLimb : Prop :=
  ∀ (s t : State) (x y ix iy i : Nat), Operand (.out true true) s x y → exec .xorNn s = .next t → t.ecode = 0 →
    let B := 2 ^ s.w
    let X := fun j => x / B ^ j % B
    let Y := fun j => y / B ^ j % B
    X ix ≠ 0 → (∀ j, j < ix → X j = 0) → Y iy ≠ 0 → (∀ j, j < iy → Y j = 0) → i < max s.xlen.toNat s.ylen.toNat →
    let lo := min ix iy
    let hi := max ix iy
    let P := if ix ≤ iy then X else Y
    let Q := if ix ≤ iy then Y else X
    t.limb? (s.obase.toNat + i) = some
      (if i < lo then 0
       else if i = lo then (if lo < hi then (B - P lo) % B else (X lo - 1) ^^^ (Y lo - 1))
       else if i < hi then B - 1 - P i
       else if i = hi then P hi ^^^ (Q hi - 1)
       else X i ^^^ Y i)

/-- 43_twos_complement.md R184, which the spec derives from R179: the three cases of GETB_N, `tz` being the number of
trailing zero bits of x. -/
def Obligations.GetbOfANegativeThreeCases : Prop :=
  ∀ (s t : State) (x tz : Nat), Holds s s.xbase.toNat s.xlen.toNat x → exec .getbN s = .next t → t.ecode = 0 →
    x % 2 ^ tz = 0 → x / 2 ^ tz % 2 = 1 →
    let a0 := s.arg0.toNat
    let a1 := s.arg1.toNat
    let w := a1 - a0
    let k := x / 2 ^ a0
    Holds t s.obase.toNat t.rlen.toNat
      (if tz ≥ a1 then 0
       else if a0 ≥ s.w * s.xlen.toNat then 2 ^ w - 1
       else if a0 ≤ tz then (2 ^ w - k % 2 ^ w) % 2 ^ w
       else 2 ^ w - 1 - k % 2 ^ w)
end

