-- ==== Sys2Proof/Laws/Arith.lean ====
section
/-!
SUPPORT. The functions of counts equal the spec's formulas (00_scope.md R9 to R15), which they compute without building
numbers of that many bits.
-/
namespace Sys2Proof.Machine

theorem sigbits_le_iff (v n : Nat) : sigbits v ≤ n ↔ v < 2 ^ n := by
  unfold sigbits
  split
  · simp_all
  · next h => rw [Nat.succ_le_iff, Nat.log2_lt h]

theorem lt_two_pow_sigbits (v : Nat) : v < 2 ^ sigbits v := (sigbits_le_iff v _).1 le_rfl

theorem lt_sigbits_iff (v n : Nat) : n < sigbits v ↔ 2 ^ n ≤ v := by
  rw [← not_le, sigbits_le_iff, not_lt]

@[simp] theorem sigbits_zero : sigbits 0 = 0 := rfl

theorem sigbits_eq_zero_iff (v : Nat) : sigbits v = 0 ↔ v = 0 := by
  have h := sigbits_le_iff v 0
  simp only [Nat.le_zero, pow_zero, Nat.lt_one_iff] at h
  exact h

theorem ceilDiv_le_iff {a b n : Nat} (hb : 0 < b) : ceilDiv a b ≤ n ↔ a ≤ b * n := by
  unfold ceilDiv
  rw [← Nat.lt_succ_iff, Nat.div_lt_iff_lt_mul hb, Nat.succ_mul, Nat.mul_comm n b]
  omega

theorem nlen_le_iff {w : Nat} (hw : 0 < w) (v n : Nat) : nlen w v ≤ n ↔ v < 2 ^ (w * n) := by
  rw [nlen, ceilDiv_le_iff hw, sigbits_le_iff]

@[simp] theorem divPow2_eq (x k : Nat) : divPow2 x k = x / 2 ^ k := by
  unfold divPow2
  split
  · next h => exact (Nat.div_eq_of_lt ((sigbits_le_iff x k).1 h)).symm
  · rfl

@[simp] theorem modPow2_eq (x k : Nat) : modPow2 x k = x % 2 ^ k := by
  unfold modPow2
  split
  · next h => exact (Nat.mod_eq_of_lt ((sigbits_le_iff x k).1 h)).symm
  · rfl

@[simp] theorem mulPow2_eq (v k : Nat) : mulPow2 v k = v * 2 ^ k := by
  unfold mulPow2
  split <;> simp_all

theorem sigbits_mul_two_pow {q : Nat} (hq : q ≠ 0) (k : Nat) : sigbits (q * 2 ^ k) = sigbits q + k := by
  apply le_antisymm
  · rw [sigbits_le_iff, pow_add]
    exact Nat.mul_lt_mul_of_pos_right (lt_two_pow_sigbits q) (by positivity)
  · have h1 : 0 < sigbits q := Nat.pos_of_ne_zero fun h => hq ((sigbits_eq_zero_iff q).1 h)
    have h2 : 2 ^ (sigbits q - 1) ≤ q := (lt_sigbits_iff q _).1 (by omega)
    have h3 : 2 ^ (sigbits q - 1 + k) ≤ q * 2 ^ k := by
      rw [pow_add]; exact Nat.mul_le_mul_right _ h2
    have := (lt_sigbits_iff (q * 2 ^ k) _).2 h3
    omega

@[simp] theorem nlenShifted_eq (w q k : Nat) (hw : 0 < w) : nlenShifted w q k = nlen w (q * 2 ^ k) := by
  unfold nlenShifted nlen
  split
  · next h =>
    subst h
    simp only [zero_mul, sigbits_zero, ceilDiv]
    exact (Nat.div_eq_of_lt (by omega)).symm
  · next h => rw [sigbits_mul_two_pow h]

@[simp] theorem cmpPow2_eq (r k : Nat) : cmpPow2 r k = compare r (2 ^ k) := by
  unfold cmpPow2
  split
  · next h => exact (compare_lt_iff_lt.2 ((sigbits_le_iff r k).1 h)).symm
  · rfl

@[simp] theorem notBits_eq (n v : Nat) : notBits n v = 2 ^ n - 1 - v % 2 ^ n := by
  simp [notBits]

theorem sigbitsNot_eq {n v : Nat} (hv : v < 2 ^ n) : sigbitsNot n v = sigbits (2 ^ n - 1 - v) := by
  unfold sigbitsNot
  have hm : v % 2 ^ n = v := Nat.mod_eq_of_lt hv
  split
  · next h =>
    obtain ⟨m, rfl⟩ : ∃ m, n = m + 1 := ⟨n - 1, by omega⟩
    have h1 : v < 2 ^ m := (sigbits_le_iff v m).1 (by omega)
    have h2 : (2 : Nat) ^ (m + 1) = 2 ^ m + 2 ^ m := by rw [pow_succ]; omega
    apply le_antisymm
    · have := (lt_sigbits_iff (2 ^ (m + 1) - 1 - v) m).2 (by omega)
      omega
    · rw [sigbits_le_iff]
      have : 0 < (2 : Nat) ^ m := by positivity
      omega
  · rw [notBits_eq, hm]

@[simp] theorem orderShifted_eq (q k x : Nat) : orderShifted q k x = orderCode (q * 2 ^ k) x := by
  unfold orderShifted
  split
  · next h =>
    obtain ⟨hq, hlt⟩ := h
    rw [← sigbits_mul_two_pow hq k, lt_sigbits_iff] at hlt
    have hx := lt_two_pow_sigbits x
    unfold orderCode
    rw [if_neg (by omega), if_neg (by omega)]
  · rw [mulPow2_eq]

@[simp] theorem stickyFlag_eq (x k : Nat) : stickyFlag x k = if x % 2 ^ k = 0 then 0 else 1 := by
  simp [stickyFlag]

/-- The bits of TC(x) in a window (43_twos_complement.md R179, 00_scope.md R15), `n` being any number with `x ≤ 2^n`
that reaches past the window: they are the complements of the bits of `x - 1`. -/
theorem twosComplement_window {x n start w : Nat} (hx : 0 < x) (hn : x ≤ 2 ^ n) (hw : start + w ≤ n) :
    (2 ^ n - x) / 2 ^ start % 2 ^ w = 2 ^ w - 1 - (x - 1) / 2 ^ start % 2 ^ w := by
  obtain ⟨p, rfl⟩ : ∃ p, x = p + 1 := ⟨x - 1, by omega⟩
  apply Nat.eq_of_testBit_eq
  intro i
  have hlt : (p / 2 ^ start % 2 ^ w) < 2 ^ w := Nat.mod_lt _ (by positivity)
  rw [Nat.add_sub_cancel, Nat.sub_sub, Nat.add_comm 1]
  rw [Nat.testBit_two_pow_sub_succ hlt, Nat.testBit_mod_two_pow, Nat.testBit_mod_two_pow, Nat.testBit_div_two_pow,
    Nat.testBit_div_two_pow, Nat.testBit_two_pow_sub_succ (by omega)]
  by_cases hi : i < w
  · have : start + i < n := by omega
    simp [hi, this, Nat.add_comm]
  · simp [hi]

/-- The limbs of `p - 1` by the pivot `lo` of `p` (43_twos_complement.md R170): all ones below it, one less at it, those of
`p` above it. -/
theorem digit_sub_one {w lo p : Nat} (hp : p / (2 ^ w) ^ lo % 2 ^ w ≠ 0)
    (hz : ∀ j, j < lo → p / (2 ^ w) ^ j % 2 ^ w = 0) (j : Nat) :
    (p - 1) / (2 ^ w) ^ j % 2 ^ w =
      if j < lo then 2 ^ w - 1 else if j = lo then p / (2 ^ w) ^ lo % 2 ^ w - 1 else p / (2 ^ w) ^ j % 2 ^ w := by
  have hB : 0 < 2 ^ w := by positivity
  have hm : ∀ k, k ≤ lo → p % (2 ^ w) ^ k = 0 := by
    intro k
    induction k with
    | zero => simp [Nat.mod_one]
    | succ k ih => intro hk; rw [pow_succ, Nat.mod_mul, ih (by omega), hz k (by omega)]; simp
  obtain ⟨c, hc⟩ := Nat.dvd_of_mod_eq_zero (hm lo le_rfl)
  have hBl : 0 < (2 ^ w) ^ lo := by positivity
  have hcd : p / (2 ^ w) ^ lo = c := by rw [hc]; exact Nat.mul_div_cancel_left _ hBl
  rw [hcd] at hp ⊢
  have hc0 : c ≠ 0 := by rintro rfl; simp at hp
  obtain ⟨d, rfl⟩ : ∃ d, c = d + 1 := ⟨c - 1, by omega⟩
  have e : p - 1 = (2 ^ w) ^ lo * d + ((2 ^ w) ^ lo - 1) := by rw [hc, Nat.mul_succ]; omega
  rcases lt_trichotomy j lo with h | h | h
  · rw [if_pos h, e]
    obtain ⟨k, rfl⟩ := Nat.exists_eq_add_of_lt h
    have e1 : (2 ^ w) ^ (j + k + 1) = (2 ^ w) ^ j * (2 ^ w * (2 ^ w) ^ k) := by rw [← pow_succ', ← pow_add]; rfl
    have hq : 0 < (2 ^ w) ^ j := by positivity
    have hk : 0 < (2 ^ w) ^ k := by positivity
    have e2 : (2 ^ w) ^ (j + k + 1) * d + ((2 ^ w) ^ (j + k + 1) - 1) =
        ((2 ^ w) ^ j - 1) + (2 ^ w) ^ j * (2 ^ w * (2 ^ w) ^ k * d + (2 ^ w * (2 ^ w) ^ k - 1)) := by
      rw [e1, Nat.mul_add, Nat.mul_sub, mul_assoc]
      have : (2 ^ w) ^ j * 1 ≤ (2 ^ w) ^ j * (2 ^ w * (2 ^ w) ^ k) := Nat.mul_le_mul_left _ (Nat.mul_pos hB hk)
      omega
    have e3 : 2 ^ w * (2 ^ w) ^ k * d + (2 ^ w * (2 ^ w) ^ k - 1) =
        (2 ^ w - 1) + 2 ^ w * ((2 ^ w) ^ k * d + ((2 ^ w) ^ k - 1)) := by
      rw [Nat.mul_add, Nat.mul_sub, mul_assoc]
      have : 2 ^ w * 1 ≤ 2 ^ w * (2 ^ w) ^ k := Nat.mul_le_mul_left _ hk
      omega
    rw [e2, Nat.add_mul_div_left _ _ hq, Nat.div_eq_of_lt (by omega), zero_add, e3, Nat.add_mul_mod_self_left,
      Nat.mod_eq_of_lt (by omega)]
  · subst h
    rw [if_neg (lt_irrefl _), if_pos rfl, e, Nat.add_comm, Nat.add_mul_div_left _ _ hBl, Nat.div_eq_of_lt (by omega),
      zero_add]
    have hlt := Nat.mod_lt d hB
    have hne : d % 2 ^ w + 1 ≠ 2 ^ w := fun hl => hp (by rw [← Nat.mod_add_mod, hl, Nat.mod_self])
    rw [← Nat.mod_add_mod, Nat.mod_eq_of_lt (show d % 2 ^ w + 1 < 2 ^ w by omega)]
    rfl
  · rw [if_neg (by omega), if_neg (by omega)]
    obtain ⟨k, rfl⟩ := Nat.exists_eq_add_of_lt h
    have e1 : (2 ^ w) ^ (lo + k + 1) = (2 ^ w) ^ lo * (2 ^ w * (2 ^ w) ^ k) := by rw [← pow_succ', ← pow_add]; rfl
    have hdv : d / 2 ^ w = (d + 1) / 2 ^ w := by
      rw [Nat.succ_div, if_neg fun hd => hp (Nat.mod_eq_zero_of_dvd hd), Nat.add_zero]
    rw [e1, ← Nat.div_div_eq_div_mul, ← Nat.div_div_eq_div_mul p, hcd, e, Nat.add_comm ((2 ^ w) ^ lo * d),
      Nat.add_mul_div_left _ _ hBl, Nat.div_eq_of_lt (show (2 ^ w) ^ lo - 1 < (2 ^ w) ^ lo by omega), zero_add,
      ← Nat.div_div_eq_div_mul, ← Nat.div_div_eq_div_mul, hdv]

end Sys2Proof.Machine
end

