-- ==== Sys2Proof/Laws/Memory.lean ====
section
/-!
SUPPORT. The laws of the cell lists and of the limb memory: read after write, that every operation keeps the canonical
form, and what reading, writing and drawing a region do, limb by limb.
-/
namespace Sys2Proof.Machine

/-! ### Cells -/

/-- The keys of a canonical list lie above `k`. -/
def Cells.above (k : Nat) (cs : List (Nat × Word)) : Prop := ∀ c ∈ cs, k < c.1

theorem Cells.wf_cons {c : Nat × Word} {cs : List (Nat × Word)} :
    Cells.wf (c :: cs) = true ↔ Cells.above c.1 cs ∧ Cells.wf cs = true := by
  induction cs generalizing c with
  | nil => simp [Cells.wf, Cells.above]
  | cons d ds ih =>
    simp only [Cells.wf, Bool.and_eq_true, decide_eq_true_eq]
    constructor
    · rintro ⟨h1, h2⟩
      refine ⟨?_, h2⟩
      intro e he
      rcases List.mem_cons.1 he with rfl | he
      · exact h1
      · exact lt_trans h1 ((ih.1 h2).1 e he)
    · rintro ⟨h1, h2⟩
      exact ⟨h1 d (by simp), h2⟩

theorem Cells.get?_put (cs : List (Nat × Word)) (k : Nat) (v : Word) (j : Nat) :
    Cells.get? (Cells.put cs k v) j = if j = k then some v else Cells.get? cs j := by
  induction cs with
  | nil => by_cases h : j = k <;> simp [Cells.put, Cells.get?, h, show k = j ↔ j = k from eq_comm]
  | cons c cs ih =>
    simp only [Cells.put]
    rcases lt_trichotomy k c.1 with h | h | h
    · rw [if_pos h]
      by_cases hj : j = k
      · simp [Cells.get?, hj]
      · rcases Nat.lt_or_gt_of_ne hj with hl | hg
        · simp [Cells.get?, hj, Ne.symm hj, hl, show c.1 ≠ j by omega, show j < c.1 by omega]
        · simp [Cells.get?, hj, Ne.symm hj, show ¬ j < k by omega]
    · rw [if_neg (by omega), if_pos h.symm]
      by_cases hj : j = k
      · simp [Cells.get?, hj]
      · simp [Cells.get?, hj, Ne.symm hj, ← h]
    · rw [if_neg (by omega), if_neg (by omega)]
      simp only [Cells.get?]
      rw [ih]
      by_cases hj : j = k
      · simp [hj, show c.1 ≠ k by omega, show ¬ k < c.1 by omega]
      · simp [hj]

theorem Cells.mem_put {cs : List (Nat × Word)} {k : Nat} {v : Word} {c : Nat × Word} (h : c ∈ Cells.put cs k v) :
    c = (k, v) ∨ c ∈ cs := by
  induction cs with
  | nil => simpa [Cells.put] using h
  | cons d ds ih =>
    simp only [Cells.put] at h
    split at h
    · simpa using h
    · split at h
      · rcases List.mem_cons.1 h with h | h
        · exact .inl h
        · exact .inr (List.mem_cons_of_mem _ h)
      · rcases List.mem_cons.1 h with h | h
        · exact .inr (h ▸ List.mem_cons_self)
        · exact (ih h).imp id (List.mem_cons_of_mem _)

theorem Cells.wf_put {cs : List (Nat × Word)} (h : Cells.wf cs = true) (k : Nat) (v : Word) :
    Cells.wf (Cells.put cs k v) = true := by
  induction cs with
  | nil => rfl
  | cons c cs ih =>
    obtain ⟨ha, hw⟩ := Cells.wf_cons.1 h
    simp only [Cells.put]
    split
    · next hk =>
      exact Cells.wf_cons.2 ⟨fun e he => by
        rcases List.mem_cons.1 he with rfl | he
        · exact hk
        · exact lt_trans hk (ha e he), h⟩
    · split
      · next hk => exact Cells.wf_cons.2 ⟨fun e he => hk ▸ ha e he, hw⟩
      · refine Cells.wf_cons.2 ⟨fun e he => ?_, ih hw⟩
        rcases Cells.mem_put he with rfl | he
        · show c.1 < k
          omega
        · exact ha e he

theorem Cells.mem_drop {cs : List (Nat × Word)} {k : Nat} {c : Nat × Word} (h : c ∈ Cells.drop cs k) : c ∈ cs := by
  induction cs with
  | nil => simp [Cells.drop] at h
  | cons d ds ih =>
    simp only [Cells.drop] at h
    split at h
    · exact h
    · split at h
      · exact List.mem_cons_of_mem _ h
      · rcases List.mem_cons.1 h with h | h
        · exact h ▸ List.mem_cons_self
        · exact List.mem_cons_of_mem _ (ih h)

theorem Cells.wf_drop {cs : List (Nat × Word)} (h : Cells.wf cs = true) (k : Nat) : Cells.wf (Cells.drop cs k) = true := by
  induction cs with
  | nil => rfl
  | cons c cs ih =>
    obtain ⟨ha, hw⟩ := Cells.wf_cons.1 h
    simp only [Cells.drop]
    split
    · exact h
    · split
      · exact hw
      · exact Cells.wf_cons.2 ⟨fun e he => ha e (Cells.mem_drop he), ih hw⟩

theorem Cells.get?_of_above {cs : List (Nat × Word)} {k j : Nat} (h : Cells.above k cs) (hj : j ≤ k) :
    Cells.get? cs j = none := by
  cases cs with
  | nil => rfl
  | cons c cs =>
    have := h c (by simp)
    simp [Cells.get?, show c.1 ≠ j by omega, show j < c.1 by omega]

theorem Cells.get?_drop {cs : List (Nat × Word)} (h : Cells.wf cs = true) (k j : Nat) :
    Cells.get? (Cells.drop cs k) j = if j = k then none else Cells.get? cs j := by
  induction cs with
  | nil => simp [Cells.drop, Cells.get?]
  | cons c cs ih =>
    obtain ⟨ha, hw⟩ := Cells.wf_cons.1 h
    simp only [Cells.drop]
    rcases lt_trichotomy k c.1 with hk | hk | hk
    · rw [if_pos hk]
      by_cases hj : j = k
      · simp [Cells.get?, hj, show c.1 ≠ k by omega, hk]
      · simp [hj]
    · rw [if_neg (by omega), if_pos hk.symm]
      by_cases hj : j = k
      · simp [hj, Cells.get?_of_above ha (show k ≤ c.1 by omega)]
      · rcases Nat.lt_or_gt_of_ne hj with hl | hg
        · simp [hj, Cells.get?, show c.1 ≠ j by omega, show j < c.1 by omega,
            Cells.get?_of_above ha (show j ≤ c.1 by omega)]
        · simp [hj, Cells.get?, show c.1 ≠ j by omega, show ¬ j < c.1 by omega]
    · rw [if_neg (by omega), if_neg (by omega)]
      simp only [Cells.get?, ih hw]
      by_cases hj : j = k
      · simp [hj, show c.1 ≠ k by omega, show ¬ k < c.1 by omega]
      · simp [hj]

/-- Equal contents are equal lists: the canonical form is one form. -/
theorem Cells.ext_of_wf {cs ds : List (Nat × Word)} (hc : Cells.wf cs = true) (hd : Cells.wf ds = true)
    (h : ∀ k, Cells.get? cs k = Cells.get? ds k) : cs = ds := by
  induction cs generalizing ds with
  | nil =>
    cases ds with
    | nil => rfl
    | cons d ds => simpa [Cells.get?] using h d.1
  | cons c cs ih =>
    cases ds with
    | nil => simpa [Cells.get?] using h c.1
    | cons d ds =>
      obtain ⟨hca, hcw⟩ := Cells.wf_cons.1 hc
      obtain ⟨hda, hdw⟩ := Cells.wf_cons.1 hd
      have hkey : c.1 = d.1 := by
        have h1 := h c.1
        have h2 := h d.1
        simp only [Cells.get?] at h1 h2
        by_contra hne
        rcases Nat.lt_or_gt_of_ne hne with hl | hg
        · simp [show d.1 ≠ c.1 by omega, hl] at h1
        · simp [show c.1 ≠ d.1 by omega, show d.1 < c.1 by omega] at h2
      have hval : c.2 = d.2 := by simpa [Cells.get?, hkey] using h c.1
      have hcd : c = d := Prod.ext hkey hval
      subst hcd
      refine congrArg _ (ih hcw hdw fun k => ?_)
      have hk := h k
      simp only [Cells.get?] at hk
      by_cases hlt : k ≤ c.1
      · rw [Cells.get?_of_above hca hlt, Cells.get?_of_above hda hlt]
      · simpa [show c.1 ≠ k by omega, show ¬ k < c.1 by omega] using hk

/-! ### One limb -/

theorem Memory.limb?_lt {w : Nat} {m : Memory} {i v : Nat} (h : Memory.limb? w m i = some v) : v < 2 ^ w := by
  simp only [Memory.limb?, Option.map_eq_some_iff] at h
  obtain ⟨u, -, rfl⟩ := h
  exact Nat.mod_lt _ (by positivity)

/-- Read after write, of the same limb and of every other one. -/
theorem Memory.limb?_setLimb {w : Nat} (hw : w ≤ 64) (m : Memory) (i v j : Nat) :
    Memory.limb? w (Memory.setLimb w m i v) j = if j = i then some (v % 2 ^ w) else Memory.limb? w m j := by
  have h64 : v % 2 ^ w < 2 ^ 64 :=
    lt_of_lt_of_le (Nat.mod_lt _ (by positivity)) (Nat.pow_le_pow_right (by omega) hw)
  simp only [Memory.limb?, Memory.setLimb, Cells.get?_put]
  split
  · simp only [Option.map_some, BitVec.toNat_ofNat, Nat.mod_eq_of_lt h64, Nat.mod_mod]
  · rfl

theorem Memory.wf_setLimb {w : Nat} {m : Memory} (h : Memory.wf m = true) (i v : Nat) :
    Memory.wf (Memory.setLimb w m i v) = true := Cells.wf_put h _ _

/-- The limbs listed lie below `n` and have `w` bits. -/
def Memory.inRange (w n : Nat) (m : Memory) : Prop := ∀ c ∈ m, c.1 < n ∧ c.2.toNat < 2 ^ w

theorem Memory.inRange_setLimb {w n : Nat} {m : Memory} (h : Memory.inRange w n m) {i : Nat} (hi : i < n) (v : Nat) :
    Memory.inRange w n (Memory.setLimb w m i v) := by
  intro c hc
  rcases Cells.mem_put hc with rfl | hc
  · refine ⟨hi, ?_⟩
    rw [BitVec.toNat_ofNat]
    exact lt_of_le_of_lt (Nat.mod_le _ _) (Nat.mod_lt _ (by positivity))
  · exact h c hc

/-! ### Regions -/

/-- `MemRead` answers a value exactly when every limb of the region is written, and then the value whose digits in base
`2^w` the limbs are. -/
theorem Memory.read_eq_ok_iff {w : Nat} {m : Memory} {a n v : Nat} :
    Memory.read w m a n = .ok v ↔
      v < 2 ^ (w * n) ∧ ∀ j, j < n → Memory.limb? w m (a + j) = some (v / 2 ^ (w * j) % 2 ^ w) := by
  induction n generalizing a v with
  | zero => simp [Memory.read, Except.ok.injEq, eq_comm]
  | succ n ih =>
    have hpow : ∀ j, (2 : Nat) ^ (w * (j + 1)) = 2 ^ w * 2 ^ (w * j) := fun j => by rw [← pow_add]; congr 1; ring
    have hpos : (0 : Nat) < 2 ^ w := by positivity
    constructor
    · intro h
      simp only [Memory.read] at h
      split at h
      · cases h
      · next lo hlo =>
        split at h
        · cases h
        · next hi hhi =>
          cases h
          obtain ⟨hlt, hd⟩ := ih.1 hhi
          have hlo' := Memory.limb?_lt hlo
          refine ⟨?_, fun j hj => ?_⟩
          · rw [hpow]
            calc lo + 2 ^ w * hi < 2 ^ w + 2 ^ w * hi := by omega
              _ = 2 ^ w * (hi + 1) := by ring
              _ ≤ 2 ^ w * 2 ^ (w * n) := Nat.mul_le_mul_left _ hlt
          · cases j with
            | zero => simpa [Nat.add_mul_mod_self_left, Nat.mod_eq_of_lt hlo'] using hlo
            | succ j =>
              rw [hpow, ← Nat.div_div_eq_div_mul, Nat.add_mul_div_left _ _ hpos, Nat.div_eq_of_lt hlo', zero_add,
                ← hd j (by omega)]
              congr 1; omega
    · rintro ⟨hlt, hd⟩
      have h0 := hd 0 (by omega)
      simp only [add_zero, mul_zero, pow_zero, Nat.div_one] at h0
      have hhi : Memory.read w m (a + 1) n = .ok (v / 2 ^ w) := by
        refine ih.2 ⟨?_, fun j hj => ?_⟩
        · rw [Nat.div_lt_iff_lt_mul hpos, Nat.mul_comm, ← hpow]; exact hlt
        · rw [Nat.div_div_eq_div_mul, ← hpow, ← hd (j + 1) (by omega)]
          congr 1; omega
      simp only [Memory.read, h0, hhi]
      exact congrArg _ (Nat.mod_add_div v (2 ^ w))

theorem Memory.read_lt {w : Nat} {m : Memory} {a n v : Nat} (h : Memory.read w m a n = .ok v) : v < 2 ^ (w * n) :=
  (Memory.read_eq_ok_iff.1 h).1

/-- `MemRead` names the first limb of the region that was never written. -/
theorem Memory.read_eq_error_iff {w : Nat} {m : Memory} {a n i : Nat} :
    Memory.read w m a n = .error i ↔
      ∃ j, j < n ∧ i = a + j ∧ Memory.limb? w m (a + j) = none ∧
        ∀ k, k < j → (Memory.limb? w m (a + k)).isSome = true := by
  induction n generalizing a with
  | zero => simp [Memory.read]
  | succ n ih =>
    simp only [Memory.read]
    cases hlo : Memory.limb? w m a with
    | none =>
      constructor
      · intro h
        cases h
        exact ⟨0, by omega, rfl, hlo, by simp⟩
      · rintro ⟨j, -, rfl, -, hk⟩
        cases j with
        | zero => rfl
        | succ j => simpa [hlo] using hk 0 (by omega)
    | some lo =>
      simp only
      have step : (∃ j, j < n ∧ i = a + 1 + j ∧ Memory.limb? w m (a + 1 + j) = none ∧
            ∀ k, k < j → (Memory.limb? w m (a + 1 + k)).isSome = true) ↔
          ∃ j, j < n + 1 ∧ i = a + j ∧ Memory.limb? w m (a + j) = none ∧
            ∀ k, k < j → (Memory.limb? w m (a + k)).isSome = true := by
        constructor
        · rintro ⟨j, hj, rfl, hn, hk⟩
          refine ⟨j + 1, by omega, by omega, by rw [← hn]; congr 1; omega, fun k hk' => ?_⟩
          cases k with
          | zero => simp [hlo]
          | succ k => rw [show a + (k + 1) = a + 1 + k by omega]; exact hk k (by omega)
        · rintro ⟨j, hj, rfl, hn, hk⟩
          cases j with
          | zero => simp [hlo] at hn
          | succ j =>
            refine ⟨j, by omega, by omega, by rw [← hn]; congr 1; omega, fun k hk' => ?_⟩
            rw [show a + 1 + k = a + (k + 1) by omega]; exact hk (k + 1) (by omega)
      rw [← step, ← ih]
      cases Memory.read w m (a + 1) n <;> simp

/-- `MemWrite` sets the limbs of the region to the digits of the value, and no other limb. -/
theorem Memory.limb?_write {w : Nat} (hw : w ≤ 64) (m : Memory) (a n v i : Nat) :
    Memory.limb? w (Memory.write w m a n v) i =
      if a ≤ i ∧ i < a + n then some (v / 2 ^ (w * (i - a)) % 2 ^ w) else Memory.limb? w m i := by
  induction n generalizing m a v with
  | zero => simp [Memory.write, show ¬ (a ≤ i ∧ i < a) by omega]
  | succ n ih =>
    simp only [Memory.write, ih, Memory.limb?_setLimb hw]
    by_cases h1 : i = a
    · subst h1
      simp [show ¬ (i + 1 ≤ i) by omega, show i < i + (n + 1) by omega]
    · by_cases h2 : a + 1 ≤ i ∧ i < a + 1 + n
      · rw [if_pos h2, if_pos (by omega), Nat.div_div_eq_div_mul, ← pow_add]
        congr 4
        rw [show i - a = i - (a + 1) + 1 by omega]; ring
      · rw [if_neg h2, if_neg h1, if_neg (by omega)]

theorem Memory.wf_write {w : Nat} {m : Memory} (h : Memory.wf m = true) (a n v : Nat) :
    Memory.wf (Memory.write w m a n v) = true := by
  induction n generalizing m a v with
  | zero => exact h
  | succ n ih => exact ih (Memory.wf_setLimb h _ _) _ _

theorem Memory.inRange_write {w k : Nat} {m : Memory} (h : Memory.inRange w k m) {a n : Nat} (hk : a + n ≤ k) (v : Nat) :
    Memory.inRange w k (Memory.write w m a n v) := by
  induction n generalizing m a v with
  | zero => exact h
  | succ n ih => exact ih (Memory.inRange_setLimb h (by omega) _) (by omega) _

/-- Drawing a region puts free values, counted on from `k`, in its limbs, and changes no other limb. -/
theorem Memory.limb?_drawRegion {w : Nat} (hw : w ≤ 64) (m : Memory) (a n k i : Nat) :
    Memory.limb? w (Memory.drawRegion w m a n k) i =
      if a ≤ i ∧ i < a + n then some ((Config.freeLimb (k + (i - a))).toNat % 2 ^ w) else Memory.limb? w m i := by
  induction n generalizing m a k with
  | zero => simp [Memory.drawRegion, show ¬ (a ≤ i ∧ i < a) by omega]
  | succ n ih =>
    simp only [Memory.drawRegion, ih, Memory.limb?_setLimb hw]
    by_cases h1 : i = a
    · subst h1
      simp [show ¬ (i + 1 ≤ i) by omega, show i < i + (n + 1) by omega]
    · by_cases h2 : a + 1 ≤ i ∧ i < a + 1 + n
      · rw [if_pos h2, if_pos (by omega), show k + 1 + (i - (a + 1)) = k + (i - a) by omega]
      · rw [if_neg h2, if_neg h1, if_neg (by omega)]

theorem Memory.wf_drawRegion {w : Nat} {m : Memory} (h : Memory.wf m = true) (a n k : Nat) :
    Memory.wf (Memory.drawRegion w m a n k) = true := by
  induction n generalizing m a k with
  | zero => exact h
  | succ n ih => exact ih (Memory.wf_setLimb h _ _) _ _

theorem Memory.inRange_drawRegion {w l : Nat} {m : Memory} (h : Memory.inRange w l m) {a n : Nat} (hl : a + n ≤ l)
    (k : Nat) : Memory.inRange w l (Memory.drawRegion w m a n k) := by
  induction n generalizing m a k with
  | zero => exact h
  | succ n ih => exact ih (Memory.inRange_setLimb h (by omega) _) (by omega) _

theorem State.reset_lm_wf : Memory.wf State.reset.lm = true := rfl

end Sys2Proof.Machine
end

