-- ==== Sys2Proof/Laws/State.lean ====
section
/-!
SUPPORT. One lemma per field per update of the state, each true by `rfl`: what each named update writes and what it leaves
alone.
-/
namespace Sys2Proof.Machine

/-! ### Fields after the error completion (60_exceptions.md R224) -/

@[simp] theorem State.completeError_cfg (s : State) (c : ErrorCode) : (s.completeError c).cfg = s.cfg := rfl
@[simp] theorem State.completeError_ien (s : State) (c : ErrorCode) : (s.completeError c).ien = s.ien := rfl
@[simp] theorem State.completeError_phase (s : State) (c : ErrorCode) : (s.completeError c).phase = .idle := rfl
@[simp] theorem State.completeError_done (s : State) (c : ErrorCode) : (s.completeError c).done = true := rfl
@[simp] theorem State.completeError_err (s : State) (c : ErrorCode) : (s.completeError c).err = true := rfl
@[simp] theorem State.completeError_werr (s : State) (c : ErrorCode) : (s.completeError c).werr = s.werr := rfl
@[simp] theorem State.completeError_ecode (s : State) (c : ErrorCode) : (s.completeError c).ecode = c.number := rfl
@[simp] theorem State.completeError_cmd (s : State) (c : ErrorCode) : (s.completeError c).cmd = s.cmd := rfl
@[simp] theorem State.completeError_xbase (s : State) (c : ErrorCode) : (s.completeError c).xbase = s.xbase := rfl
@[simp] theorem State.completeError_xlen (s : State) (c : ErrorCode) : (s.completeError c).xlen = s.xlen := rfl
@[simp] theorem State.completeError_ybase (s : State) (c : ErrorCode) : (s.completeError c).ybase = s.ybase := rfl
@[simp] theorem State.completeError_ylen (s : State) (c : ErrorCode) : (s.completeError c).ylen = s.ylen := rfl
@[simp] theorem State.completeError_obase (s : State) (c : ErrorCode) : (s.completeError c).obase = s.obase := rfl
@[simp] theorem State.completeError_ocap (s : State) (c : ErrorCode) : (s.completeError c).ocap = s.ocap := rfl
@[simp] theorem State.completeError_arg0 (s : State) (c : ErrorCode) : (s.completeError c).arg0 = s.arg0 := rfl
@[simp] theorem State.completeError_arg1 (s : State) (c : ErrorCode) : (s.completeError c).arg1 = s.arg1 := rfl
@[simp] theorem State.completeError_rlen (s : State) (c : ErrorCode) : (s.completeError c).rlen = 0 := rfl
@[simp] theorem State.completeError_rnlen (s : State) (c : ErrorCode) : (s.completeError c).rnlen = 0 := rfl
@[simp] theorem State.completeError_raux (s : State) (c : ErrorCode) : (s.completeError c).raux = 0 := rfl
@[simp] theorem State.completeError_lm (s : State) (c : ErrorCode) : (s.completeError c).lm = s.lm := rfl
@[simp] theorem State.completeError_draws (s : State) (c : ErrorCode) : (s.completeError c).draws = s.draws := rfl
@[simp] theorem State.completeError_program (s : State) (c : ErrorCode) : (s.completeError c).program = s.program := rfl
@[simp] theorem State.completeError_hostPc (s : State) (c : ErrorCode) : (s.completeError c).hostPc = s.hostPc := rfl
@[simp] theorem State.completeError_temps (s : State) (c : ErrorCode) : (s.completeError c).temps = s.temps := rfl
@[simp] theorem State.completeError_delay (s : State) (c : ErrorCode) : (s.completeError c).delay = s.delay := rfl
@[simp] theorem State.completeError_schedule (s : State) (c : ErrorCode) : (s.completeError c).schedule = s.schedule := rfl

/-! ### Fields after the success completion (60_exceptions.md R225) -/

@[simp] theorem State.completeSuccess_cfg (s : State) : s.completeSuccess.cfg = s.cfg := rfl
@[simp] theorem State.completeSuccess_ien (s : State) : s.completeSuccess.ien = s.ien := rfl
@[simp] theorem State.completeSuccess_phase (s : State) : s.completeSuccess.phase = .idle := rfl
@[simp] theorem State.completeSuccess_done (s : State) : s.completeSuccess.done = true := rfl
@[simp] theorem State.completeSuccess_err (s : State) : s.completeSuccess.err = false := rfl
@[simp] theorem State.completeSuccess_werr (s : State) : s.completeSuccess.werr = s.werr := rfl
@[simp] theorem State.completeSuccess_ecode (s : State) : s.completeSuccess.ecode = 0 := rfl
@[simp] theorem State.completeSuccess_cmd (s : State) : s.completeSuccess.cmd = s.cmd := rfl
@[simp] theorem State.completeSuccess_xbase (s : State) : s.completeSuccess.xbase = s.xbase := rfl
@[simp] theorem State.completeSuccess_xlen (s : State) : s.completeSuccess.xlen = s.xlen := rfl
@[simp] theorem State.completeSuccess_ybase (s : State) : s.completeSuccess.ybase = s.ybase := rfl
@[simp] theorem State.completeSuccess_ylen (s : State) : s.completeSuccess.ylen = s.ylen := rfl
@[simp] theorem State.completeSuccess_obase (s : State) : s.completeSuccess.obase = s.obase := rfl
@[simp] theorem State.completeSuccess_ocap (s : State) : s.completeSuccess.ocap = s.ocap := rfl
@[simp] theorem State.completeSuccess_arg0 (s : State) : s.completeSuccess.arg0 = s.arg0 := rfl
@[simp] theorem State.completeSuccess_arg1 (s : State) : s.completeSuccess.arg1 = s.arg1 := rfl
@[simp] theorem State.completeSuccess_rlen (s : State) : s.completeSuccess.rlen = s.rlen := rfl
@[simp] theorem State.completeSuccess_rnlen (s : State) : s.completeSuccess.rnlen = s.rnlen := rfl
@[simp] theorem State.completeSuccess_raux (s : State) : s.completeSuccess.raux = s.raux := rfl
@[simp] theorem State.completeSuccess_lm (s : State) : s.completeSuccess.lm = s.lm := rfl
@[simp] theorem State.completeSuccess_draws (s : State) : s.completeSuccess.draws = s.draws := rfl
@[simp] theorem State.completeSuccess_program (s : State) : s.completeSuccess.program = s.program := rfl
@[simp] theorem State.completeSuccess_hostPc (s : State) : s.completeSuccess.hostPc = s.hostPc := rfl
@[simp] theorem State.completeSuccess_temps (s : State) : s.completeSuccess.temps = s.temps := rfl
@[simp] theorem State.completeSuccess_delay (s : State) : s.completeSuccess.delay = s.delay := rfl
@[simp] theorem State.completeSuccess_schedule (s : State) : s.completeSuccess.schedule = s.schedule := rfl

/-! ### Fields after Commit (00_scope.md R13) -/

@[simp] theorem State.commit_cfg (s : State) (d cap : Nat) (r : CmdResult) : (s.commit d cap r).cfg = s.cfg := rfl
@[simp] theorem State.commit_ien (s : State) (d cap : Nat) (r : CmdResult) : (s.commit d cap r).ien = s.ien := rfl
@[simp] theorem State.commit_phase (s : State) (d cap : Nat) (r : CmdResult) : (s.commit d cap r).phase = .idle := rfl
@[simp] theorem State.commit_done (s : State) (d cap : Nat) (r : CmdResult) : (s.commit d cap r).done = true := rfl
@[simp] theorem State.commit_err (s : State) (d cap : Nat) (r : CmdResult) : (s.commit d cap r).err = false := rfl
@[simp] theorem State.commit_werr (s : State) (d cap : Nat) (r : CmdResult) : (s.commit d cap r).werr = s.werr := rfl
@[simp] theorem State.commit_ecode (s : State) (d cap : Nat) (r : CmdResult) : (s.commit d cap r).ecode = 0 := rfl
@[simp] theorem State.commit_cmd (s : State) (d cap : Nat) (r : CmdResult) : (s.commit d cap r).cmd = s.cmd := rfl
@[simp] theorem State.commit_xbase (s : State) (d cap : Nat) (r : CmdResult) : (s.commit d cap r).xbase = s.xbase := rfl
@[simp] theorem State.commit_xlen (s : State) (d cap : Nat) (r : CmdResult) : (s.commit d cap r).xlen = s.xlen := rfl
@[simp] theorem State.commit_ybase (s : State) (d cap : Nat) (r : CmdResult) : (s.commit d cap r).ybase = s.ybase := rfl
@[simp] theorem State.commit_ylen (s : State) (d cap : Nat) (r : CmdResult) : (s.commit d cap r).ylen = s.ylen := rfl
@[simp] theorem State.commit_obase (s : State) (d cap : Nat) (r : CmdResult) : (s.commit d cap r).obase = s.obase := rfl
@[simp] theorem State.commit_ocap (s : State) (d cap : Nat) (r : CmdResult) : (s.commit d cap r).ocap = s.ocap := rfl
@[simp] theorem State.commit_arg0 (s : State) (d cap : Nat) (r : CmdResult) : (s.commit d cap r).arg0 = s.arg0 := rfl
@[simp] theorem State.commit_arg1 (s : State) (d cap : Nat) (r : CmdResult) : (s.commit d cap r).arg1 = s.arg1 := rfl
@[simp] theorem State.commit_rlen (s : State) (d cap : Nat) (r : CmdResult) : (s.commit d cap r).rlen = BitVec.ofNat 64 r.len := rfl
@[simp] theorem State.commit_rnlen (s : State) (d cap : Nat) (r : CmdResult) : (s.commit d cap r).rnlen = BitVec.ofNat 64 (nlen s.w (r.value ())) := rfl
@[simp] theorem State.commit_raux (s : State) (d cap : Nat) (r : CmdResult) : (s.commit d cap r).raux = BitVec.ofNat 64 r.aux := rfl
@[simp] theorem State.commit_lm (s : State) (d cap : Nat) (r : CmdResult) : (s.commit d cap r).lm = Memory.drawRegion s.w (Memory.write s.w s.lm d r.len (r.value ())) (d + r.len) (cap - r.len) (s.draws + r.drawn) := rfl
@[simp] theorem State.commit_draws (s : State) (d cap : Nat) (r : CmdResult) : (s.commit d cap r).draws = s.draws + r.drawn + (cap - r.len) := rfl
@[simp] theorem State.commit_program (s : State) (d cap : Nat) (r : CmdResult) : (s.commit d cap r).program = s.program := rfl
@[simp] theorem State.commit_hostPc (s : State) (d cap : Nat) (r : CmdResult) : (s.commit d cap r).hostPc = s.hostPc := rfl
@[simp] theorem State.commit_temps (s : State) (d cap : Nat) (r : CmdResult) : (s.commit d cap r).temps = s.temps := rfl
@[simp] theorem State.commit_delay (s : State) (d cap : Nat) (r : CmdResult) : (s.commit d cap r).delay = s.delay := rfl
@[simp] theorem State.commit_schedule (s : State) (d cap : Nat) (r : CmdResult) : (s.commit d cap r).schedule = s.schedule := rfl

/-! ### Fields after the start of a command (10_state.md R35) -/

@[simp] theorem State.begin_cfg (s : State) : s.begin.cfg = s.cfg := rfl
@[simp] theorem State.begin_ien (s : State) : s.begin.ien = s.ien := rfl
@[simp] theorem State.begin_phase (s : State) : s.begin.phase = .busy := rfl
@[simp] theorem State.begin_done (s : State) : s.begin.done = false := rfl
@[simp] theorem State.begin_err (s : State) : s.begin.err = false := rfl
@[simp] theorem State.begin_werr (s : State) : s.begin.werr = s.werr := rfl
@[simp] theorem State.begin_ecode (s : State) : s.begin.ecode = 0 := rfl
@[simp] theorem State.begin_cmd (s : State) : s.begin.cmd = s.cmd := rfl
@[simp] theorem State.begin_xbase (s : State) : s.begin.xbase = s.xbase := rfl
@[simp] theorem State.begin_xlen (s : State) : s.begin.xlen = s.xlen := rfl
@[simp] theorem State.begin_ybase (s : State) : s.begin.ybase = s.ybase := rfl
@[simp] theorem State.begin_ylen (s : State) : s.begin.ylen = s.ylen := rfl
@[simp] theorem State.begin_obase (s : State) : s.begin.obase = s.obase := rfl
@[simp] theorem State.begin_ocap (s : State) : s.begin.ocap = s.ocap := rfl
@[simp] theorem State.begin_arg0 (s : State) : s.begin.arg0 = s.arg0 := rfl
@[simp] theorem State.begin_arg1 (s : State) : s.begin.arg1 = s.arg1 := rfl
@[simp] theorem State.begin_rlen (s : State) : s.begin.rlen = s.rlen := rfl
@[simp] theorem State.begin_rnlen (s : State) : s.begin.rnlen = s.rnlen := rfl
@[simp] theorem State.begin_raux (s : State) : s.begin.raux = s.raux := rfl
@[simp] theorem State.begin_lm (s : State) : s.begin.lm = s.lm := rfl
@[simp] theorem State.begin_draws (s : State) : s.begin.draws = s.draws := rfl
@[simp] theorem State.begin_program (s : State) : s.begin.program = s.program := rfl
@[simp] theorem State.begin_hostPc (s : State) : s.begin.hostPc = s.hostPc := rfl
@[simp] theorem State.begin_temps (s : State) : s.begin.temps = s.temps := rfl
@[simp] theorem State.begin_delay (s : State) : s.begin.delay = s.delay := rfl
@[simp] theorem State.begin_schedule (s : State) : s.begin.schedule = s.schedule := rfl

/-! ### Fields after the register part of the soft reset (70_reset_and_hazards.md R251) -/

@[simp] theorem State.resetCsrs_cfg (s : State) : s.resetCsrs.cfg = s.cfg := rfl
@[simp] theorem State.resetCsrs_ien (s : State) : s.resetCsrs.ien = false := rfl
@[simp] theorem State.resetCsrs_phase (s : State) : s.resetCsrs.phase = .idle := rfl
@[simp] theorem State.resetCsrs_done (s : State) : s.resetCsrs.done = false := rfl
@[simp] theorem State.resetCsrs_err (s : State) : s.resetCsrs.err = false := rfl
@[simp] theorem State.resetCsrs_werr (s : State) : s.resetCsrs.werr = false := rfl
@[simp] theorem State.resetCsrs_ecode (s : State) : s.resetCsrs.ecode = 0 := rfl
@[simp] theorem State.resetCsrs_cmd (s : State) : s.resetCsrs.cmd = 0 := rfl
@[simp] theorem State.resetCsrs_xbase (s : State) : s.resetCsrs.xbase = 0 := rfl
@[simp] theorem State.resetCsrs_xlen (s : State) : s.resetCsrs.xlen = 0 := rfl
@[simp] theorem State.resetCsrs_ybase (s : State) : s.resetCsrs.ybase = 0 := rfl
@[simp] theorem State.resetCsrs_ylen (s : State) : s.resetCsrs.ylen = 0 := rfl
@[simp] theorem State.resetCsrs_obase (s : State) : s.resetCsrs.obase = 0 := rfl
@[simp] theorem State.resetCsrs_ocap (s : State) : s.resetCsrs.ocap = 0 := rfl
@[simp] theorem State.resetCsrs_arg0 (s : State) : s.resetCsrs.arg0 = 0 := rfl
@[simp] theorem State.resetCsrs_arg1 (s : State) : s.resetCsrs.arg1 = 0 := rfl
@[simp] theorem State.resetCsrs_rlen (s : State) : s.resetCsrs.rlen = 0 := rfl
@[simp] theorem State.resetCsrs_rnlen (s : State) : s.resetCsrs.rnlen = 0 := rfl
@[simp] theorem State.resetCsrs_raux (s : State) : s.resetCsrs.raux = 0 := rfl
@[simp] theorem State.resetCsrs_lm (s : State) : s.resetCsrs.lm = s.lm := rfl
@[simp] theorem State.resetCsrs_draws (s : State) : s.resetCsrs.draws = s.draws := rfl
@[simp] theorem State.resetCsrs_program (s : State) : s.resetCsrs.program = s.program := rfl
@[simp] theorem State.resetCsrs_hostPc (s : State) : s.resetCsrs.hostPc = s.hostPc := rfl
@[simp] theorem State.resetCsrs_temps (s : State) : s.resetCsrs.temps = s.temps := rfl
@[simp] theorem State.resetCsrs_delay (s : State) : s.resetCsrs.delay = s.delay := rfl
@[simp] theorem State.resetCsrs_schedule (s : State) : s.resetCsrs.schedule = s.schedule := rfl

/-! ### Fields after a STATUS write (10_state.md R23) -/

@[simp] theorem writeStatus_cfg (v : Word) (s : State) : (writeStatus v s).cfg = s.cfg := rfl
@[simp] theorem writeStatus_ien (v : Word) (s : State) : (writeStatus v s).ien = s.ien := rfl
@[simp] theorem writeStatus_phase (v : Word) (s : State) : (writeStatus v s).phase = s.phase := rfl
@[simp] theorem writeStatus_done (v : Word) (s : State) : (writeStatus v s).done = (s.done && !v.getLsbD 1) := rfl
@[simp] theorem writeStatus_err (v : Word) (s : State) : (writeStatus v s).err = (s.err && !v.getLsbD 2) := rfl
@[simp] theorem writeStatus_werr (v : Word) (s : State) : (writeStatus v s).werr = (s.werr && !v.getLsbD 3) := rfl
@[simp] theorem writeStatus_ecode (v : Word) (s : State) : (writeStatus v s).ecode = s.ecode := rfl
@[simp] theorem writeStatus_cmd (v : Word) (s : State) : (writeStatus v s).cmd = s.cmd := rfl
@[simp] theorem writeStatus_xbase (v : Word) (s : State) : (writeStatus v s).xbase = s.xbase := rfl
@[simp] theorem writeStatus_xlen (v : Word) (s : State) : (writeStatus v s).xlen = s.xlen := rfl
@[simp] theorem writeStatus_ybase (v : Word) (s : State) : (writeStatus v s).ybase = s.ybase := rfl
@[simp] theorem writeStatus_ylen (v : Word) (s : State) : (writeStatus v s).ylen = s.ylen := rfl
@[simp] theorem writeStatus_obase (v : Word) (s : State) : (writeStatus v s).obase = s.obase := rfl
@[simp] theorem writeStatus_ocap (v : Word) (s : State) : (writeStatus v s).ocap = s.ocap := rfl
@[simp] theorem writeStatus_arg0 (v : Word) (s : State) : (writeStatus v s).arg0 = s.arg0 := rfl
@[simp] theorem writeStatus_arg1 (v : Word) (s : State) : (writeStatus v s).arg1 = s.arg1 := rfl
@[simp] theorem writeStatus_rlen (v : Word) (s : State) : (writeStatus v s).rlen = s.rlen := rfl
@[simp] theorem writeStatus_rnlen (v : Word) (s : State) : (writeStatus v s).rnlen = s.rnlen := rfl
@[simp] theorem writeStatus_raux (v : Word) (s : State) : (writeStatus v s).raux = s.raux := rfl
@[simp] theorem writeStatus_lm (v : Word) (s : State) : (writeStatus v s).lm = s.lm := rfl
@[simp] theorem writeStatus_draws (v : Word) (s : State) : (writeStatus v s).draws = s.draws := rfl
@[simp] theorem writeStatus_program (v : Word) (s : State) : (writeStatus v s).program = s.program := rfl
@[simp] theorem writeStatus_hostPc (v : Word) (s : State) : (writeStatus v s).hostPc = s.hostPc := rfl
@[simp] theorem writeStatus_temps (v : Word) (s : State) : (writeStatus v s).temps = s.temps := rfl
@[simp] theorem writeStatus_delay (v : Word) (s : State) : (writeStatus v s).delay = s.delay := rfl
@[simp] theorem writeStatus_schedule (v : Word) (s : State) : (writeStatus v s).schedule = s.schedule := rfl

/-! ### Fields after a command loaded and started (log 7) -/

@[simp] theorem State.loadCommand_cfg (s : State) (w : Word) : (s.loadCommand w).cfg = s.cfg := rfl
@[simp] theorem State.loadCommand_ien (s : State) (w : Word) : (s.loadCommand w).ien = s.ien := rfl
@[simp] theorem State.loadCommand_phase (s : State) (w : Word) : (s.loadCommand w).phase = .busy := rfl
@[simp] theorem State.loadCommand_done (s : State) (w : Word) : (s.loadCommand w).done = false := rfl
@[simp] theorem State.loadCommand_err (s : State) (w : Word) : (s.loadCommand w).err = false := rfl
@[simp] theorem State.loadCommand_werr (s : State) (w : Word) : (s.loadCommand w).werr = s.werr := rfl
@[simp] theorem State.loadCommand_ecode (s : State) (w : Word) : (s.loadCommand w).ecode = 0 := rfl
@[simp] theorem State.loadCommand_cmd (s : State) (w : Word) : (s.loadCommand w).cmd = w := rfl
@[simp] theorem State.loadCommand_xbase (s : State) (w : Word) : (s.loadCommand w).xbase = s.xbase := rfl
@[simp] theorem State.loadCommand_xlen (s : State) (w : Word) : (s.loadCommand w).xlen = s.xlen := rfl
@[simp] theorem State.loadCommand_ybase (s : State) (w : Word) : (s.loadCommand w).ybase = s.ybase := rfl
@[simp] theorem State.loadCommand_ylen (s : State) (w : Word) : (s.loadCommand w).ylen = s.ylen := rfl
@[simp] theorem State.loadCommand_obase (s : State) (w : Word) : (s.loadCommand w).obase = s.obase := rfl
@[simp] theorem State.loadCommand_ocap (s : State) (w : Word) : (s.loadCommand w).ocap = s.ocap := rfl
@[simp] theorem State.loadCommand_arg0 (s : State) (w : Word) : (s.loadCommand w).arg0 = s.arg0 := rfl
@[simp] theorem State.loadCommand_arg1 (s : State) (w : Word) : (s.loadCommand w).arg1 = s.arg1 := rfl
@[simp] theorem State.loadCommand_rlen (s : State) (w : Word) : (s.loadCommand w).rlen = s.rlen := rfl
@[simp] theorem State.loadCommand_rnlen (s : State) (w : Word) : (s.loadCommand w).rnlen = s.rnlen := rfl
@[simp] theorem State.loadCommand_raux (s : State) (w : Word) : (s.loadCommand w).raux = s.raux := rfl
@[simp] theorem State.loadCommand_lm (s : State) (w : Word) : (s.loadCommand w).lm = s.lm := rfl
@[simp] theorem State.loadCommand_draws (s : State) (w : Word) : (s.loadCommand w).draws = s.draws := rfl
@[simp] theorem State.loadCommand_program (s : State) (w : Word) : (s.loadCommand w).program = s.program := rfl
@[simp] theorem State.loadCommand_hostPc (s : State) (w : Word) : (s.loadCommand w).hostPc = s.hostPc := rfl
@[simp] theorem State.loadCommand_temps (s : State) (w : Word) : (s.loadCommand w).temps = s.temps := rfl
@[simp] theorem State.loadCommand_delay (s : State) (w : Word) : (s.loadCommand w).delay = 0 := rfl
@[simp] theorem State.loadCommand_schedule (s : State) (w : Word) : (s.loadCommand w).schedule = s.schedule := rfl

/-! ### Fields after the host moving on -/

@[simp] theorem State.advance_cfg (s : State) : s.advance.cfg = s.cfg := rfl
@[simp] theorem State.advance_ien (s : State) : s.advance.ien = s.ien := rfl
@[simp] theorem State.advance_phase (s : State) : s.advance.phase = s.phase := rfl
@[simp] theorem State.advance_done (s : State) : s.advance.done = s.done := rfl
@[simp] theorem State.advance_err (s : State) : s.advance.err = s.err := rfl
@[simp] theorem State.advance_werr (s : State) : s.advance.werr = s.werr := rfl
@[simp] theorem State.advance_ecode (s : State) : s.advance.ecode = s.ecode := rfl
@[simp] theorem State.advance_cmd (s : State) : s.advance.cmd = s.cmd := rfl
@[simp] theorem State.advance_xbase (s : State) : s.advance.xbase = s.xbase := rfl
@[simp] theorem State.advance_xlen (s : State) : s.advance.xlen = s.xlen := rfl
@[simp] theorem State.advance_ybase (s : State) : s.advance.ybase = s.ybase := rfl
@[simp] theorem State.advance_ylen (s : State) : s.advance.ylen = s.ylen := rfl
@[simp] theorem State.advance_obase (s : State) : s.advance.obase = s.obase := rfl
@[simp] theorem State.advance_ocap (s : State) : s.advance.ocap = s.ocap := rfl
@[simp] theorem State.advance_arg0 (s : State) : s.advance.arg0 = s.arg0 := rfl
@[simp] theorem State.advance_arg1 (s : State) : s.advance.arg1 = s.arg1 := rfl
@[simp] theorem State.advance_rlen (s : State) : s.advance.rlen = s.rlen := rfl
@[simp] theorem State.advance_rnlen (s : State) : s.advance.rnlen = s.rnlen := rfl
@[simp] theorem State.advance_raux (s : State) : s.advance.raux = s.raux := rfl
@[simp] theorem State.advance_lm (s : State) : s.advance.lm = s.lm := rfl
@[simp] theorem State.advance_draws (s : State) : s.advance.draws = s.draws := rfl
@[simp] theorem State.advance_program (s : State) : s.advance.program = s.program := rfl
@[simp] theorem State.advance_hostPc (s : State) : s.advance.hostPc = s.hostPc + 1 := rfl
@[simp] theorem State.advance_temps (s : State) : s.advance.temps = s.temps := rfl
@[simp] theorem State.advance_delay (s : State) : s.advance.delay = s.delay := rfl
@[simp] theorem State.advance_schedule (s : State) : s.advance.schedule = s.schedule := rfl

/-! ### Fields after a host temporary written (30_encoding.md R92) -/

@[simp] theorem State.setTemp_cfg (s : State) (k : Nat) (v : Word) : (s.setTemp k v).cfg = s.cfg := rfl
@[simp] theorem State.setTemp_ien (s : State) (k : Nat) (v : Word) : (s.setTemp k v).ien = s.ien := rfl
@[simp] theorem State.setTemp_phase (s : State) (k : Nat) (v : Word) : (s.setTemp k v).phase = s.phase := rfl
@[simp] theorem State.setTemp_done (s : State) (k : Nat) (v : Word) : (s.setTemp k v).done = s.done := rfl
@[simp] theorem State.setTemp_err (s : State) (k : Nat) (v : Word) : (s.setTemp k v).err = s.err := rfl
@[simp] theorem State.setTemp_werr (s : State) (k : Nat) (v : Word) : (s.setTemp k v).werr = s.werr := rfl
@[simp] theorem State.setTemp_ecode (s : State) (k : Nat) (v : Word) : (s.setTemp k v).ecode = s.ecode := rfl
@[simp] theorem State.setTemp_cmd (s : State) (k : Nat) (v : Word) : (s.setTemp k v).cmd = s.cmd := rfl
@[simp] theorem State.setTemp_xbase (s : State) (k : Nat) (v : Word) : (s.setTemp k v).xbase = s.xbase := rfl
@[simp] theorem State.setTemp_xlen (s : State) (k : Nat) (v : Word) : (s.setTemp k v).xlen = s.xlen := rfl
@[simp] theorem State.setTemp_ybase (s : State) (k : Nat) (v : Word) : (s.setTemp k v).ybase = s.ybase := rfl
@[simp] theorem State.setTemp_ylen (s : State) (k : Nat) (v : Word) : (s.setTemp k v).ylen = s.ylen := rfl
@[simp] theorem State.setTemp_obase (s : State) (k : Nat) (v : Word) : (s.setTemp k v).obase = s.obase := rfl
@[simp] theorem State.setTemp_ocap (s : State) (k : Nat) (v : Word) : (s.setTemp k v).ocap = s.ocap := rfl
@[simp] theorem State.setTemp_arg0 (s : State) (k : Nat) (v : Word) : (s.setTemp k v).arg0 = s.arg0 := rfl
@[simp] theorem State.setTemp_arg1 (s : State) (k : Nat) (v : Word) : (s.setTemp k v).arg1 = s.arg1 := rfl
@[simp] theorem State.setTemp_rlen (s : State) (k : Nat) (v : Word) : (s.setTemp k v).rlen = s.rlen := rfl
@[simp] theorem State.setTemp_rnlen (s : State) (k : Nat) (v : Word) : (s.setTemp k v).rnlen = s.rnlen := rfl
@[simp] theorem State.setTemp_raux (s : State) (k : Nat) (v : Word) : (s.setTemp k v).raux = s.raux := rfl
@[simp] theorem State.setTemp_lm (s : State) (k : Nat) (v : Word) : (s.setTemp k v).lm = s.lm := rfl
@[simp] theorem State.setTemp_draws (s : State) (k : Nat) (v : Word) : (s.setTemp k v).draws = s.draws := rfl
@[simp] theorem State.setTemp_program (s : State) (k : Nat) (v : Word) : (s.setTemp k v).program = s.program := rfl
@[simp] theorem State.setTemp_hostPc (s : State) (k : Nat) (v : Word) : (s.setTemp k v).hostPc = s.hostPc := rfl
@[simp] theorem State.setTemp_temps (s : State) (k : Nat) (v : Word) : (s.setTemp k v).temps = if v = 0 then Cells.drop s.temps k else Cells.put s.temps k v := rfl
@[simp] theorem State.setTemp_delay (s : State) (k : Nat) (v : Word) : (s.setTemp k v).delay = s.delay := rfl
@[simp] theorem State.setTemp_schedule (s : State) (k : Nat) (v : Word) : (s.setTemp k v).schedule = s.schedule := rfl

@[simp] theorem State.completeError_w (s : State) (c : ErrorCode) : (s.completeError c).w = s.w := rfl
@[simp] theorem State.completeSuccess_w (s : State) : s.completeSuccess.w = s.w := rfl
@[simp] theorem State.commit_w (s : State) (d cap : Nat) (r : CmdResult) : (s.commit d cap r).w = s.w := rfl
@[simp] theorem State.begin_w (s : State) : s.begin.w = s.w := rfl
@[simp] theorem State.resetCsrs_w (s : State) : s.resetCsrs.w = s.w := rfl
@[simp] theorem State.advance_w (s : State) : s.advance.w = s.w := rfl
@[simp] theorem State.setTemp_w (s : State) (k : Nat) (v : Word) : (s.setTemp k v).w = s.w := rfl

/-! ### Fields after one host operation's tick, after GO, and after an abandoned command -/

@[simp] theorem State.tick_cfg (s : State) : s.tick.cfg = s.cfg := by unfold State.tick; split <;> rfl
@[simp] theorem State.tick_ien (s : State) : s.tick.ien = s.ien := by unfold State.tick; split <;> rfl
@[simp] theorem State.tick_phase (s : State) : s.tick.phase = s.phase := by unfold State.tick; split <;> rfl
@[simp] theorem State.tick_done (s : State) : s.tick.done = s.done := by unfold State.tick; split <;> rfl
@[simp] theorem State.tick_err (s : State) : s.tick.err = s.err := by unfold State.tick; split <;> rfl
@[simp] theorem State.tick_werr (s : State) : s.tick.werr = s.werr := by unfold State.tick; split <;> rfl
@[simp] theorem State.tick_ecode (s : State) : s.tick.ecode = s.ecode := by unfold State.tick; split <;> rfl
@[simp] theorem State.tick_cmd (s : State) : s.tick.cmd = s.cmd := by unfold State.tick; split <;> rfl
@[simp] theorem State.tick_xbase (s : State) : s.tick.xbase = s.xbase := by unfold State.tick; split <;> rfl
@[simp] theorem State.tick_xlen (s : State) : s.tick.xlen = s.xlen := by unfold State.tick; split <;> rfl
@[simp] theorem State.tick_ybase (s : State) : s.tick.ybase = s.ybase := by unfold State.tick; split <;> rfl
@[simp] theorem State.tick_ylen (s : State) : s.tick.ylen = s.ylen := by unfold State.tick; split <;> rfl
@[simp] theorem State.tick_obase (s : State) : s.tick.obase = s.obase := by unfold State.tick; split <;> rfl
@[simp] theorem State.tick_ocap (s : State) : s.tick.ocap = s.ocap := by unfold State.tick; split <;> rfl
@[simp] theorem State.tick_arg0 (s : State) : s.tick.arg0 = s.arg0 := by unfold State.tick; split <;> rfl
@[simp] theorem State.tick_arg1 (s : State) : s.tick.arg1 = s.arg1 := by unfold State.tick; split <;> rfl
@[simp] theorem State.tick_rlen (s : State) : s.tick.rlen = s.rlen := by unfold State.tick; split <;> rfl
@[simp] theorem State.tick_rnlen (s : State) : s.tick.rnlen = s.rnlen := by unfold State.tick; split <;> rfl
@[simp] theorem State.tick_raux (s : State) : s.tick.raux = s.raux := by unfold State.tick; split <;> rfl
@[simp] theorem State.tick_lm (s : State) : s.tick.lm = s.lm := by unfold State.tick; split <;> rfl
@[simp] theorem State.tick_draws (s : State) : s.tick.draws = s.draws := by unfold State.tick; split <;> rfl
@[simp] theorem State.tick_program (s : State) : s.tick.program = s.program := by unfold State.tick; split <;> rfl
@[simp] theorem State.tick_hostPc (s : State) : s.tick.hostPc = s.hostPc := by unfold State.tick; split <;> rfl
@[simp] theorem State.tick_temps (s : State) : s.tick.temps = s.temps := by unfold State.tick; split <;> rfl
@[simp] theorem State.tick_schedule (s : State) : s.tick.schedule = s.schedule := by unfold State.tick; split <;> rfl
theorem State.tick_idle {s : State} (h : s.phase = .idle) : s.tick = s := by simp [State.tick, h]
theorem State.tick_busy {s : State} (h : s.phase = .busy) : s.tick = { s with delay := s.delay - 1 } := by simp [State.tick, h]

@[simp] theorem State.go_cfg (s : State) : s.go.cfg = s.cfg := by unfold State.go; split <;> rfl
@[simp] theorem State.go_ien (s : State) : s.go.ien = s.ien := by unfold State.go; split <;> rfl
@[simp] theorem State.go_phase (s : State) : s.go.phase = .busy := by unfold State.go; split <;> rfl
@[simp] theorem State.go_done (s : State) : s.go.done = false := by unfold State.go; split <;> rfl
@[simp] theorem State.go_err (s : State) : s.go.err = false := by unfold State.go; split <;> rfl
@[simp] theorem State.go_werr (s : State) : s.go.werr = s.werr := by unfold State.go; split <;> rfl
@[simp] theorem State.go_ecode (s : State) : s.go.ecode = 0 := by unfold State.go; split <;> rfl
@[simp] theorem State.go_cmd (s : State) : s.go.cmd = s.cmd := by unfold State.go; split <;> rfl
@[simp] theorem State.go_xbase (s : State) : s.go.xbase = s.xbase := by unfold State.go; split <;> rfl
@[simp] theorem State.go_xlen (s : State) : s.go.xlen = s.xlen := by unfold State.go; split <;> rfl
@[simp] theorem State.go_ybase (s : State) : s.go.ybase = s.ybase := by unfold State.go; split <;> rfl
@[simp] theorem State.go_ylen (s : State) : s.go.ylen = s.ylen := by unfold State.go; split <;> rfl
@[simp] theorem State.go_obase (s : State) : s.go.obase = s.obase := by unfold State.go; split <;> rfl
@[simp] theorem State.go_ocap (s : State) : s.go.ocap = s.ocap := by unfold State.go; split <;> rfl
@[simp] theorem State.go_arg0 (s : State) : s.go.arg0 = s.arg0 := by unfold State.go; split <;> rfl
@[simp] theorem State.go_arg1 (s : State) : s.go.arg1 = s.arg1 := by unfold State.go; split <;> rfl
@[simp] theorem State.go_rlen (s : State) : s.go.rlen = s.rlen := by unfold State.go; split <;> rfl
@[simp] theorem State.go_rnlen (s : State) : s.go.rnlen = s.rnlen := by unfold State.go; split <;> rfl
@[simp] theorem State.go_raux (s : State) : s.go.raux = s.raux := by unfold State.go; split <;> rfl
@[simp] theorem State.go_lm (s : State) : s.go.lm = s.lm := by unfold State.go; split <;> rfl
@[simp] theorem State.go_program (s : State) : s.go.program = s.program := by unfold State.go; split <;> rfl
@[simp] theorem State.go_hostPc (s : State) : s.go.hostPc = s.hostPc := by unfold State.go; split <;> rfl
@[simp] theorem State.go_temps (s : State) : s.go.temps = s.temps := by unfold State.go; split <;> rfl

@[simp] theorem State.abandon_cfg (s : State) : s.abandon.cfg = s.cfg := by unfold State.abandon; split <;> rfl
@[simp] theorem State.abandon_ien (s : State) : s.abandon.ien = s.ien := by unfold State.abandon; split <;> rfl
@[simp] theorem State.abandon_phase (s : State) : s.abandon.phase = s.phase := by unfold State.abandon; split <;> rfl
@[simp] theorem State.abandon_done (s : State) : s.abandon.done = s.done := by unfold State.abandon; split <;> rfl
@[simp] theorem State.abandon_err (s : State) : s.abandon.err = s.err := by unfold State.abandon; split <;> rfl
@[simp] theorem State.abandon_werr (s : State) : s.abandon.werr = s.werr := by unfold State.abandon; split <;> rfl
@[simp] theorem State.abandon_ecode (s : State) : s.abandon.ecode = s.ecode := by unfold State.abandon; split <;> rfl
@[simp] theorem State.abandon_cmd (s : State) : s.abandon.cmd = s.cmd := by unfold State.abandon; split <;> rfl
@[simp] theorem State.abandon_xbase (s : State) : s.abandon.xbase = s.xbase := by unfold State.abandon; split <;> rfl
@[simp] theorem State.abandon_xlen (s : State) : s.abandon.xlen = s.xlen := by unfold State.abandon; split <;> rfl
@[simp] theorem State.abandon_ybase (s : State) : s.abandon.ybase = s.ybase := by unfold State.abandon; split <;> rfl
@[simp] theorem State.abandon_ylen (s : State) : s.abandon.ylen = s.ylen := by unfold State.abandon; split <;> rfl
@[simp] theorem State.abandon_obase (s : State) : s.abandon.obase = s.obase := by unfold State.abandon; split <;> rfl
@[simp] theorem State.abandon_ocap (s : State) : s.abandon.ocap = s.ocap := by unfold State.abandon; split <;> rfl
@[simp] theorem State.abandon_arg0 (s : State) : s.abandon.arg0 = s.arg0 := by unfold State.abandon; split <;> rfl
@[simp] theorem State.abandon_arg1 (s : State) : s.abandon.arg1 = s.arg1 := by unfold State.abandon; split <;> rfl
@[simp] theorem State.abandon_rlen (s : State) : s.abandon.rlen = s.rlen := by unfold State.abandon; split <;> rfl
@[simp] theorem State.abandon_rnlen (s : State) : s.abandon.rnlen = s.rnlen := by unfold State.abandon; split <;> rfl
@[simp] theorem State.abandon_raux (s : State) : s.abandon.raux = s.raux := by unfold State.abandon; split <;> rfl
@[simp] theorem State.abandon_program (s : State) : s.abandon.program = s.program := by unfold State.abandon; split <;> rfl
@[simp] theorem State.abandon_hostPc (s : State) : s.abandon.hostPc = s.hostPc := by unfold State.abandon; split <;> rfl
@[simp] theorem State.abandon_temps (s : State) : s.abandon.temps = s.temps := by unfold State.abandon; split <;> rfl
@[simp] theorem State.abandon_delay (s : State) : s.abandon.delay = s.delay := by unfold State.abandon; split <;> rfl
@[simp] theorem State.abandon_schedule (s : State) : s.abandon.schedule = s.schedule := by unfold State.abandon; split <;> rfl

end Sys2Proof.Machine
end

