-- ==== Sys2Proof/Laws/Command.lean ====
section
/-!
SUPPORT. What the shared operations of a command can do, said once: Commit, the operand reads, and the straight line of
every command (30_encoding.md R88).
-/
namespace Sys2Proof.Machine

theorem LimbWidth.bits_pos (c : LimbWidth) : 0 < c.bits := by cases c <;> decide

theorem LimbWidth.bits_le (c : LimbWidth) : c.bits ≤ 64 := by cases c <;> decide

theorem State.w_pos (s : State) : 0 < s.w := LimbWidth.bits_pos _

theorem State.w_le (s : State) : s.w ≤ 64 := LimbWidth.bits_le _

/-- Every limb after Commit: the result limbs are the digits of the value, the tail limbs are free values, every other
limb is as it was (00_scope.md R13, 20_memory.md R66, R67). -/
theorem State.limb?_commit (s : State) (d cap : Nat) (r : CmdResult) (h : r.len ≤ cap) (i : Nat) :
    (s.commit d cap r).limb? i =
      if d ≤ i ∧ i < d + r.len then some (r.value () / 2 ^ (s.w * (i - d)) % 2 ^ s.w)
      else if d + r.len ≤ i ∧ i < d + cap then
        some ((Config.freeLimb (s.draws + r.drawn + (i - (d + r.len)))).toNat % 2 ^ s.w)
      else s.limb? i := by
  have hc : d + r.len + (cap - r.len) = d + cap := by omega
  simp only [State.limb?, State.commit_lm, State.commit_w, Memory.limb?_drawRegion s.w_le, Memory.limb?_write s.w_le, hc]
  by_cases h1 : d ≤ i ∧ i < d + r.len
  · simp [h1, show ¬ (d + r.len ≤ i ∧ i < d + cap) by omega]
  · simp [h1]

/-- Commit keeps the canonical form of the limb memory, and, where the destination lies in LM, its range. -/
theorem State.wf_commit {s : State} (h : Memory.wf s.lm = true) (d cap : Nat) (r : CmdResult) :
    Memory.wf (s.commit d cap r).lm = true := by
  rw [State.commit_lm]
  exact Memory.wf_drawRegion (Memory.wf_write h _ _ _) _ _ _

theorem State.inRange_commit {s : State} (h : Memory.inRange s.w s.cfg.lmLimbs s.lm) {d cap : Nat} (r : CmdResult)
    (hl : r.len ≤ cap) (hd : d + cap ≤ s.cfg.lmLimbs) :
    Memory.inRange s.w s.cfg.lmLimbs (s.commit d cap r).lm := by
  rw [State.commit_lm]
  exact Memory.inRange_drawRegion (Memory.inRange_write h (by omega) _) (by omega) _

/-- What a command does, by cases: it raises EADDR, stops at a limb never written, raises a code of its own rule, raises
ECAP, or commits. -/
theorem runCommand_cases (r : Row) (rule : Rule) (s : State) :
    (regionsInLm r s = false ∧ runCommand r rule s = .next (s.completeError .eaddr)) ∨
    (∃ i, regionsInLm r s = true ∧ readOperands r s = .error i ∧ runCommand r rule s = .fault (.neverWritten i)) ∨
    (∃ o c, regionsInLm r s = true ∧ readOperands r s = .ok o ∧ rule o = .error c ∧
      runCommand r rule s = .next (s.completeError c)) ∨
    (∃ o res, regionsInLm r s = true ∧ readOperands r s = .ok o ∧ rule o = .ok res ∧ destCap r.dest s < res.len ∧
      runCommand r rule s = .next (s.completeError .ecap)) ∨
    (∃ o res, regionsInLm r s = true ∧ readOperands r s = .ok o ∧ rule o = .ok res ∧ res.len ≤ destCap r.dest s ∧
      runCommand r rule s = .next (s.commit (destBase r.dest s) (destCap r.dest s) res)) := by
  unfold runCommand raiseError
  cases hr : regionsInLm r s with
  | false => simp
  | true =>
    cases ho : readOperands r s with
    | error i => simp
    | ok o =>
      cases hu : rule o with
      | error c => simp [hu]
      | ok res => by_cases hl : res.len ≤ destCap r.dest s <;> simp [hu, hl, not_le.1]

/-- The operands a rule sees, where every limb they need is written. -/
theorem readOperands_ok {r : Row} {s : State} {o : Operands} (h : readOperands r s = .ok o) :
    (r.readsX = true → Memory.read s.w s.lm s.xbase.toNat s.xlen.toNat = .ok o.x) ∧
    (r.readsX = false → o.x = 0) ∧
    (r.readsY = true → Memory.read s.w s.lm s.ybase.toNat s.ylen.toNat = .ok o.y) ∧
    (r.readsY = false → o.y = 0) ∧
    o.w = s.w ∧ o.xl = s.xlen.toNat ∧ o.yl = s.ylen.toNat ∧ o.a0 = s.arg0.toNat ∧ o.a1 = s.arg1.toNat ∧
    o.cap = destCap r.dest s ∧ o.pick = Config.freePick s.draws := by
  unfold readOperands at h
  cases hx : readIf r.readsX s s.xbase.toNat s.xlen.toNat with
  | error i => simp [hx] at h
  | ok x =>
    cases hy : readIf r.readsY s s.ybase.toNat s.ylen.toNat with
    | error i => simp [hx, hy] at h
    | ok y =>
      simp only [hx, hy, Except.ok.injEq] at h
      subst h
      unfold readIf at hx hy
      refine ⟨fun h => by simpa [h] using hx, fun h => ?_, fun h => by simpa [h] using hy, fun h => ?_,
        rfl, rfl, rfl, rfl, rfl, rfl, rfl⟩
      · simp only [h, Bool.false_eq_true, if_false, Except.ok.injEq] at hx; exact hx.symm
      · simp only [h, Bool.false_eq_true, if_false, Except.ok.injEq] at hy; exact hy.symm

/-- A command that answers a next state leaves the host agent, the parameters, IEN, WERR, CMD and the operand registers
alone (60_exceptions.md R220, 00_scope.md R13). -/
theorem runCommand_frame {r : Row} {rule : Rule} {s t : State} (h : runCommand r rule s = .next t) :
    t = { s with
      lm := t.lm, draws := t.draws, rlen := t.rlen, rnlen := t.rnlen, raux := t.raux
      ecode := t.ecode, err := t.err, done := true, phase := .idle } := by
  rcases runCommand_cases r rule s with ⟨-, e⟩ | ⟨i, -, -, e⟩ | ⟨o, c, -, -, -, e⟩ | ⟨o, res, -, -, -, -, e⟩ |
    ⟨o, res, -, -, -, -, e⟩ <;> rw [e] at h <;> cases h <;> rfl

end Sys2Proof.Machine
end

