-- ==== Sys2Proof/Laws/Exec.lean ====
section
/-!
SUPPORT. What `exec` and `step` can do, said once: every legal command runs the straight line of 30_encoding.md R88 with
its own row and rule, an illegal one raises ERM, and a step is the engine's or the host's.
-/
namespace Sys2Proof.Machine

/-- The rule of each command; an illegal one has none of its own, since it raises ERM before its rule would run. -/
def ruleOf : Instr → Rule
  | .nop => nopRule
  | .andSl => sameLengthRule (· &&& ·)
  | .and => generalRule (· &&& ·)
  | .andIpl => generalRule (· &&& ·)
  | .andIpe => eitherRule (· &&& ·)
  | .orSl => sameLengthRule (· ||| ·)
  | .or => generalRule (· ||| ·)
  | .orIpl => generalRule (· ||| ·)
  | .orIpe => eitherRule (· ||| ·)
  | .xorSl => sameLengthRule (· ^^^ ·)
  | .xor => generalRule (· ^^^ ·)
  | .xorIpl => generalRule (· ^^^ ·)
  | .xorIpe => eitherRule (· ^^^ ·)
  | .shl => shlRule
  | .shlIp => shlRule
  | .shlSub => shlSubRule
  | .shlc => shlcRule
  | .shr => shrRule
  | .shrIp => shrRule
  | .shrSub => shrSubRule
  | .modp => modpRule
  | .negmodp => negmodpRule
  | .shrRound (.mode m) neg => shrRoundRule m neg
  | .shrRound .reserved6 _ => fun _ => .error .erm
  | .shrRound .reserved7 _ => fun _ => .error .erm
  | .rtm (.mode m) neg => rtmRule m neg
  | .rtm .reserved6 _ => fun _ => .error .erm
  | .rtm .reserved7 _ => fun _ => .error .erm
  | .twos => twosRule
  | .xorNn => xorNnRule fun _ => 0
  | .xorNnIpl => xorNnRule fun _ => 0
  | .xorNnIpe => xorNnRule fun o => selectFlag o.xl o.yl
  | .xorPn => xorPnRule
  | .xorPln => xorPlnRule
  | .xorNln => xorNlnRule
  | .getbP => getbPRule
  | .getbN => getbNRule
  | .asgbP => asgbPRule
  | .asgbN => asgbNRule
  | .mul => mulRule
  | .mullo => mulloRule
  | .modpmul => modpmulRule
  | .mulmodBnm1 => mulmodBnm1Rule
  | .mulmodBnp1 => mulmodBnp1Rule

theorem exec_eq_runCommand {i : Instr} (h : i.wellFormed = true) (s : State) :
    exec i s = runCommand (rowOf i) (ruleOf i) s := by
  cases i with
  | shrRound rm neg => cases rm with
    | mode m => rfl
    | reserved6 => simp [Instr.wellFormed, RmField.legal] at h
    | reserved7 => simp [Instr.wellFormed, RmField.legal] at h
  | rtm rm neg => cases rm with
    | mode m => rfl
    | reserved6 => simp [Instr.wellFormed, RmField.legal] at h
    | reserved7 => simp [Instr.wellFormed, RmField.legal] at h
  | _ => rfl

theorem exec_of_illegal {i : Instr} (h : i.wellFormed = false) (s : State) :
    exec i s = .next (s.completeError .erm) := by
  cases i with
  | shrRound rm neg => cases rm with
    | mode m => simp [Instr.wellFormed, RmField.legal] at h
    | reserved6 => rfl
    | reserved7 => rfl
  | rtm rm neg => cases rm with
    | mode m => simp [Instr.wellFormed, RmField.legal] at h
    | reserved6 => rfl
    | reserved7 => rfl
  | _ => simp [Instr.wellFormed] at h

/-- A command that answers a next state leaves all but LM, the count of free values, the result registers and the
completion fields alone (60_exceptions.md R220, 00_scope.md R13). -/
theorem exec_frame {i : Instr} {s t : State} (h : exec i s = .next t) :
    t = { s with
      lm := t.lm, draws := t.draws, rlen := t.rlen, rnlen := t.rnlen, raux := t.raux
      ecode := t.ecode, err := t.err, done := true, phase := .idle } := by
  cases hw : i.wellFormed with
  | true => rw [exec_eq_runCommand hw] at h; exact runCommand_frame h
  | false => rw [exec_of_illegal hw] at h; cases h; rfl

/-- A step is the engine step of the command in CMD, the EOPC completion of a word that stands for no command, or one
host operation (20_memory.md R73). -/
theorem step_cases (s : State) :
    (∃ i, s.engineMoves = true ∧ decode s.cmd = .ok i ∧ step s = exec i s) ∨
    (∃ e, s.engineMoves = true ∧ decode s.cmd = .error e ∧ step s = .next (s.completeError .eopc)) ∨
    (s.engineMoves = false ∧ step s = hostStep s) := by
  unfold step engineStep rejectCommand raiseError
  cases s.engineMoves with
  | false => simp
  | true => cases decode s.cmd <;> simp

/-- The count check of the sub-limb-only shifts, as a proposition (41_shift.md R130). -/
theorem subLimbCount_iff (o : Operands) : subLimbCount o = true ↔ 1 ≤ o.a0 ∧ o.a0 ≤ o.w - 1 := by
  simp [subLimbCount]

/-- An engine step that answers a next state leaves the engine IDLE, and leaves alone what a command leaves alone
(30_encoding.md R89, 60_exceptions.md R220). -/
theorem engineStep_frame {s t : State} (h : engineStep s = .next t) :
    t = { s with
      lm := t.lm, draws := t.draws, rlen := t.rlen, rnlen := t.rnlen, raux := t.raux
      ecode := t.ecode, err := t.err, done := true, phase := .idle } := by
  unfold engineStep at h
  split at h
  · exact exec_frame h
  · cases h; rfl

/-- Rounding raises EINEXACT and no other code (42_round_mod.md R151). -/
theorem roundQ_error {x b : Nat} {m : EffMode} {c : ErrorCode} (h : roundQ x b m = .error c) : c = .einexact := by
  cases m <;> simp only [roundQ] at h <;> (try split at h) <;> cases h
  rfl

/-- The rule of a well-formed command raises neither EOPC nor ERM, which belong to the command word (30_encoding.md R88,
60_exceptions.md R221). -/
theorem ruleOf_error {i : Instr} (hw : i.wellFormed = true) {o : Operands} {c : ErrorCode} (h : ruleOf i o = .error c) :
    c ≠ .eopc ∧ c ≠ .erm := by
  cases i with
  | shrRound rm neg => cases rm with
    | mode m =>
      simp only [ruleOf, shrRoundRule] at h
      split at h
      · next hr => cases h; rw [roundQ_error hr]; decide
      · cases h
    | _ => simp [Instr.wellFormed, RmField.legal] at hw
  | rtm rm neg => cases rm with
    | mode m =>
      simp only [ruleOf, rtmRule] at h
      split at h
      · next hr => cases h; rw [roundQ_error hr]; decide
      · cases h
    | _ => simp [Instr.wellFormed, RmField.legal] at hw
  | _ =>
    simp only [ruleOf, nopRule, sameLengthRule, generalRule, eitherRule, shlRule, shlSubRule, shlcRule, shrRule, shrSubRule,
      modpRule, negmodpRule, twosRule, xorNnRule, xorPnRule, xorPlnRule, xorNlnRule, getbPRule, getbNRule, asgbPRule,
      asgbNRule, mulRule, mulloRule, modpmulRule, mulmodBnm1Rule, mulmodBnp1Rule, ringChecks] at h
    repeat' split at h
    all_goals first | (cases h <;> decide) | skip
    all_goals
      rename_i hc
      cases h
      repeat' split at hc
      all_goals (cases hc <;> decide)

end Sys2Proof.Machine
end

