-- ==== Sys2Proof/Laws/Follows.lean ====
section
/-!
SUPPORT. The bridge between a command's rule in the model and a rule of the spec: where the two agree on every operand,
the command follows the spec's rule (the `Follows` of Safety.lean). What is left of a statement about one command is
arithmetic about its rule.
-/
namespace Sys2Proof.Machine

/-- The operands a command's rule sees where its operand regions hold `x` and `y`. -/
def operandsOf (i : Instr) (s : State) (x y : Nat) : Operands :=
  { w := s.w, xl := s.xlen.toNat, yl := s.ylen.toNat
    x := if (rowOf i).readsX then x else 0, y := if (rowOf i).readsY then y else 0
    a0 := s.arg0.toNat, a1 := s.arg1.toNat
    cap := destCap (rowOf i).dest s, pick := Config.freePick s.draws }

/-- What a rule of the model answers is what a rule of the spec answers. Where the length exceeds the capacity, the
model's rule may say ECAP itself, since then the value is not looked at (60_exceptions.md R226). -/
def Agrees (w cap : Nat) (r : Except ErrorCode CmdResult) : SpecAnswer → Prop
  | .code c => ∃ e, r = .error e ∧ e.number = c
  | .result L v aux =>
    (cap < L → (∃ res, r = .ok res ∧ res.len = L) ∨ r = .error .ecap) ∧
    (L ≤ cap → v < 2 ^ (w * L) ∧ ∃ res, r = .ok res ∧ res.len = L ∧ res.value () = v ∧ res.aux = aux)
  | .eitherOf L v v' aux =>
    (cap < L → (∃ res, r = .ok res ∧ res.len = L) ∨ r = .error .ecap) ∧
    (L ≤ cap → v < 2 ^ (w * L) ∧ v' < 2 ^ (w * L) ∧
      ∃ res, r = .ok res ∧ res.len = L ∧ (res.value () = v ∨ res.value () = v') ∧ res.aux = aux)

/-- Commit does what `Committed` says. -/
theorem committed_commit {s : State} {d cap : Nat} {r : CmdResult} (hl : r.len ≤ cap)
    (hv : r.value () < 2 ^ (s.w * r.len)) : Committed s (s.commit d cap r) d cap r.len (r.value ()) r.aux where
  fits := hv
  room := hl
  result j hj := by rw [State.limb?_commit _ _ _ _ hl]; simp [hj]
  tail j h1 h2 := by
    rw [State.limb?_commit _ _ _ _ hl]
    simp [show ¬ j < r.len by omega, h1, h2]
  elsewhere i h := by rw [State.limb?_commit _ _ _ _ hl, if_neg (by omega), if_neg (by omega)]
  registers := rfl

/-- A region outside LM, in the terms of `Inside`. -/
theorem regionsInLm_iff {r : Row} {h : Shape} {s : State} (hx : r.readsX = h.x) (hy : r.readsY = h.y)
    (hd : destBase r.dest s = h.d s) (hc : destCap r.dest s = h.cap s) : regionsInLm r s = true ↔ Inside h s := by
  simp only [regionsInLm, inLm, hx, hy, hd, hc, Bool.and_eq_true, Bool.or_eq_true, decide_eq_true_eq, Inside]
  cases h.x <;> cases h.y <;> simp [and_assoc]

/-- The operands a command reads, in the terms of `Operand`. -/
theorem readOperands_eq {i : Instr} {h : Shape} {s : State} {x y : Nat} (hx : (rowOf i).readsX = h.x)
    (hy : (rowOf i).readsY = h.y) (ho : Operand h s x y) : readOperands (rowOf i) s = .ok (operandsOf i s x y) := by
  have h1 : readIf h.x s s.xbase.toNat s.xlen.toNat = .ok (if h.x then x else 0) := by
    unfold readIf
    split
    · next e => exact Memory.read_eq_ok_iff.2 (ho.1 e)
    · rfl
  have h2 : readIf h.y s s.ybase.toNat s.ylen.toNat = .ok (if h.y then y else 0) := by
    unfold readIf
    split
    · next e => exact Memory.read_eq_ok_iff.2 (ho.2 e)
    · rfl
  simp only [readOperands, operandsOf, hx, hy, h1, h2]

/-- The bridge: a command whose row has this shape and whose rule agrees with the spec's follows the spec's rule. -/
theorem follows_of_agrees {word : Word} {i : Instr} {h : Shape} {rule : SpecRule} (hw : i.wellFormed = true)
    (hdec : decode word = .ok i) (hx : (rowOf i).readsX = h.x) (hy : (rowOf i).readsY = h.y)
    (hd : ∀ s, destBase (rowOf i).dest s = h.d s) (hc : ∀ s, destCap (rowOf i).dest s = h.cap s)
    (hr : ∀ s x y, (h.x = true → x < 2 ^ (s.w * s.xlen.toNat)) → (h.y = true → y < 2 ^ (s.w * s.ylen.toNat)) →
      Agrees s.w (h.cap s) (ruleOf i (operandsOf i s x y)) (rule s x y)) :
    Follows word i h rule := by
  refine ⟨hdec, fun s => ⟨fun hn => ?_, fun hin x y ho => ?_⟩⟩
  · have hreg : regionsInLm (rowOf i) s = false := by
      rw [← Bool.not_eq_true, regionsInLm_iff hx hy (hd s) (hc s)]
      exact hn
    unfold Raises
    rw [exec_eq_runCommand hw, runCommand, hreg]
    rfl
  · have hag := hr s x y (fun e => (ho.1 e).1) (fun e => (ho.2 e).1)
    have hex := exec_eq_runCommand hw s
    simp only [runCommand, (regionsInLm_iff hx hy (hd s) (hc s)).2 hin, readOperands_eq hx hy ho, if_true, hc,
      hd] at hex
    have tooLong : ∀ L, h.cap s < L →
        ((∃ res, ruleOf i (operandsOf i s x y) = .ok res ∧ res.len = L) ∨
          ruleOf i (operandsOf i s x y) = .error .ecap) → Raises i s 11 := by
      rintro L hL (⟨res, he, rfl⟩ | he)
      · simp only [he, if_neg (not_le.2 hL)] at hex
        exact hex
      · simp only [he] at hex
        exact hex
    cases hru : rule s x y with
    | code c =>
      rw [hru] at hag
      obtain ⟨e, he, rfl⟩ := hag
      simp only [he] at hex
      exact hex
    | result L v aux =>
      rw [hru] at hag
      refine ⟨fun hL => ?_, fun hL => tooLong L hL (hag.1 hL)⟩
      obtain ⟨hv, res, he, rfl, rfl, rfl⟩ := hag.2 hL
      simp only [he, hL, if_true] at hex
      exact ⟨_, hex, committed_commit hL hv⟩
    | eitherOf L v v' aux =>
      rw [hru] at hag
      refine ⟨fun hL => ?_, fun hL => tooLong L hL (hag.1 hL)⟩
      obtain ⟨hv, hv', res, he, rfl, rfl | rfl, rfl⟩ := hag.2 hL
      · simp only [he, hL, if_true] at hex
        exact .inl ⟨_, hex, committed_commit hL hv⟩
      · simp only [he, hL, if_true] at hex
        exact .inr ⟨_, hex, committed_commit hL hv'⟩

end Sys2Proof.Machine
end

