-- ==== Sys2Proof/Laws/Host.lean ====
section
/-!
SUPPORT. What a host transaction and a host operation can do, said once (20_memory.md R60, 30_encoding.md R92), and what
the soft reset leaves.
-/
namespace Sys2Proof.Machine

/-- A transaction that does not fault answers the state unchanged (a read), the state after a register write, or the
state with one limb set. -/
theorem transact_cases {tr : Transaction} {s t : State} {v : Word} (h : transact tr s = .ok (t, v)) :
    (∃ n, tr = .csrRead n ∧ n ≤ 255 ∧ t = s ∧ v = csrValue n s) ∨
    (∃ n u, tr = .csrWrite n u ∧ n ≤ 255 ∧ t = csrWrite n u s ∧ v = 0) ∨
    (∃ i l, tr = .lmRead i ∧ i < s.cfg.lmLimbs ∧ s.limb? i = some l ∧ t = s ∧ v = BitVec.ofNat 64 l) ∨
    (∃ i u, tr = .lmWrite i u ∧ i < s.cfg.lmLimbs ∧ t = { s with lm := Memory.setLimb s.w s.lm i u.toNat } ∧ v = 0) := by
  cases tr with
  | csrRead n =>
    simp only [transact] at h
    split at h
    · simp only [Except.ok.injEq, Prod.mk.injEq] at h
      exact .inl ⟨n, rfl, ‹_›, h.1.symm, h.2.symm⟩
    · cases h
  | csrWrite n u =>
    simp only [transact] at h
    split at h
    · simp only [Except.ok.injEq, Prod.mk.injEq] at h
      exact .inr (.inl ⟨n, u, rfl, ‹_›, h.1.symm, h.2.symm⟩)
    · cases h
  | lmRead i =>
    simp only [transact] at h
    split at h
    · split at h
      · next l hl =>
        simp only [Except.ok.injEq, Prod.mk.injEq] at h
        exact .inr (.inr (.inl ⟨i, l, rfl, ‹_›, hl, h.1.symm, h.2.symm⟩))
      · cases h
    · cases h
  | lmWrite i u =>
    simp only [transact] at h
    split at h
    · simp only [Except.ok.injEq, Prod.mk.injEq] at h
      exact .inr (.inr (.inr ⟨i, u, rfl, ‹_›, h.1.symm, h.2.symm⟩))
    · cases h

/-- A write by the host is its transaction, then the host moves on. -/
theorem hostWrite_next {tr : Transaction} {s t : State} (h : hostWrite tr s = .next t) :
    ∃ u v, transact tr s = .ok (u, v) ∧ t = u.advance := by
  unfold hostWrite at h
  split at h
  · cases h
  · next u v e => cases h; exact ⟨u, v, e, rfl⟩

/-- A read by the host is its transaction, its answer kept in the temporary, then the host moves on. -/
theorem hostRead_next {tr : Transaction} {k : Nat} {s t : State} (h : hostRead tr k s = .next t) :
    ∃ u v, transact tr s = .ok (u, v) ∧ t = (u.setTemp k v).advance := by
  unfold hostRead at h
  split at h
  · cases h
  · next u v e => cases h; exact ⟨u, v, e, rfl⟩

/-- A temporary after a write to a temporary. -/
theorem State.temp_setTemp {s : State} (h : Cells.wf s.temps = true) (k : Nat) (v : Word) (j : Nat) :
    (s.setTemp k v).temp j = if j = k then v else s.temp j := by
  unfold State.temp
  rw [State.setTemp_temps]
  split
  · next hv =>
    rw [Cells.get?_drop h]
    split <;> simp [hv]
  · rw [Cells.get?_put]
    split <;> simp

theorem State.wf_setTemp {s : State} (h : Cells.wf s.temps = true) (k : Nat) (v : Word) :
    Cells.wf (s.setTemp k v).temps = true := by
  rw [State.setTemp_temps]
  split
  · exact Cells.wf_drop h k
  · exact Cells.wf_put h k v

/-- The limbs after a command in flight is abandoned: those of its destination that exist hold free values, every other
one is as it was (70_reset_and_hazards.md R251). -/
theorem State.limb?_abandon {s : State} {i : Instr} (h : decode s.cmd = .ok i) (k : Nat) :
    s.abandon.limb? k =
      let d := destBase (rowOf i).dest s
      if d ≤ k ∧ k < d + clipToLm s d (destCap (rowOf i).dest s) then
        some ((Config.freeLimb (s.draws + (k - d))).toNat % 2 ^ s.w)
      else s.limb? k := by
  have hw : s.w ≤ 64 := by unfold State.w; cases s.cfg.width <;> decide
  simp only [State.limb?, State.abandon, h]
  exact Memory.limb?_drawRegion hw _ _ _ _ _

/-- A register write leaves the parameters and the host agent alone (10_state.md R20). -/
theorem csrWrite_host (n : Nat) (v : Word) (s : State) :
    (csrWrite n v s).cfg = s.cfg ∧ (csrWrite n v s).program = s.program ∧ (csrWrite n v s).hostPc = s.hostPc ∧
    (csrWrite n v s).temps = s.temps := by
  unfold csrWrite
  split
  · exact ⟨rfl, rfl, rfl, rfl⟩
  · next r _ =>
    split
    · cases r with
      | ctrl =>
        simp only [writeIdle, writeCtrlIdle, softReset, *]
        split
        · exact ⟨rfl, rfl, rfl, rfl⟩
        · split
          · unfold State.go
            split <;> exact ⟨rfl, rfl, rfl, rfl⟩
          · exact ⟨rfl, rfl, rfl, rfl⟩
      | _ => exact ⟨rfl, rfl, rfl, rfl⟩
    · cases r with
      | ctrl =>
        simp only [writeBusy, writeCtrlBusy, softReset, *]
        split
        · simp only [State.abandon, State.resetCsrs]
          split <;> exact ⟨rfl, rfl, rfl, rfl⟩
        · exact ⟨rfl, rfl, rfl, rfl⟩
      | _ => exact ⟨rfl, rfl, rfl, rfl⟩

/-- A little-endian value has eight bits a byte (20_memory.md R61). -/
theorem leValue_lt (bs : List Byte) : leValue bs < 2 ^ (8 * bs.length) := by
  induction bs with
  | nil => simp [leValue]
  | cons b bs ih =>
    have hb := b.isLt
    simp only [leValue, List.length_cons, Nat.mul_add, Nat.mul_one, pow_add]
    omega

/-- Byte `j` of a little-endian value is the `j`-th byte (20_memory.md R61). -/
theorem leValue_byte (bs : List Byte) (j : Nat) (h : j < bs.length) : leValue bs / 2 ^ (8 * j) % 2 ^ 8 = bs[j].toNat := by
  induction bs generalizing j with
  | nil => simp at h
  | cons b bs ih =>
    have hb := b.isLt
    cases j with
    | zero => simp only [leValue, Nat.mul_zero, pow_zero, Nat.div_one, List.getElem_cons_zero]; omega
    | succ j =>
      have := ih j (by simpa using h)
      rw [show 2 ^ (8 * (j + 1)) = 256 * 2 ^ (8 * j) by rw [Nat.mul_add, pow_add]; ring, ← Nat.div_div_eq_div_mul]
      rw [show leValue (b :: bs) / 256 = leValue bs by simp only [leValue]; omega]
      simpa using this

end Sys2Proof.Machine
end

