-- ==== Sys2Proof/Laws/PerInstr.lean ====
section
/-!
SUPPORT. Per command: the decoder gives back what the encoder wrote (30_encoding.md R80 to R83).
-/
namespace Sys2Proof.Laws.RoundTrip

/-- Decoding the encoded command gives it back, and encoding puts 0 in the reserved bits. -/
def Statement (i : Instr) : Prop := decode (encode i) = .ok i ∧ (encode i).toNat < 2 ^ 12

theorem nop : Statement .nop := ⟨rfl, by decide⟩
theorem andSl : Statement .andSl := ⟨rfl, by decide⟩
theorem and : Statement .and := ⟨rfl, by decide⟩
theorem andIpl : Statement .andIpl := ⟨rfl, by decide⟩
theorem andIpe : Statement .andIpe := ⟨rfl, by decide⟩
theorem orSl : Statement .orSl := ⟨rfl, by decide⟩
theorem or : Statement .or := ⟨rfl, by decide⟩
theorem orIpl : Statement .orIpl := ⟨rfl, by decide⟩
theorem orIpe : Statement .orIpe := ⟨rfl, by decide⟩
theorem xorSl : Statement .xorSl := ⟨rfl, by decide⟩
theorem xor : Statement .xor := ⟨rfl, by decide⟩
theorem xorIpl : Statement .xorIpl := ⟨rfl, by decide⟩
theorem xorIpe : Statement .xorIpe := ⟨rfl, by decide⟩
theorem shl : Statement .shl := ⟨rfl, by decide⟩
theorem shlIp : Statement .shlIp := ⟨rfl, by decide⟩
theorem shlSub : Statement .shlSub := ⟨rfl, by decide⟩
theorem shlc : Statement .shlc := ⟨rfl, by decide⟩
theorem shr : Statement .shr := ⟨rfl, by decide⟩
theorem shrIp : Statement .shrIp := ⟨rfl, by decide⟩
theorem shrSub : Statement .shrSub := ⟨rfl, by decide⟩
theorem modp : Statement .modp := ⟨rfl, by decide⟩
theorem negmodp : Statement .negmodp := ⟨rfl, by decide⟩
theorem shrRound (rm : RmField) (neg : Bool) : Statement (.shrRound rm neg) := by
  rcases rm with m | _ | _ <;> (try cases m) <;> cases neg <;> exact ⟨rfl, by decide⟩
theorem rtm (rm : RmField) (neg : Bool) : Statement (.rtm rm neg) := by
  rcases rm with m | _ | _ <;> (try cases m) <;> cases neg <;> exact ⟨rfl, by decide⟩
theorem twos : Statement .twos := ⟨rfl, by decide⟩
theorem xorNn : Statement .xorNn := ⟨rfl, by decide⟩
theorem xorNnIpl : Statement .xorNnIpl := ⟨rfl, by decide⟩
theorem xorNnIpe : Statement .xorNnIpe := ⟨rfl, by decide⟩
theorem xorPn : Statement .xorPn := ⟨rfl, by decide⟩
theorem xorPln : Statement .xorPln := ⟨rfl, by decide⟩
theorem xorNln : Statement .xorNln := ⟨rfl, by decide⟩
theorem getbP : Statement .getbP := ⟨rfl, by decide⟩
theorem getbN : Statement .getbN := ⟨rfl, by decide⟩
theorem asgbP : Statement .asgbP := ⟨rfl, by decide⟩
theorem asgbN : Statement .asgbN := ⟨rfl, by decide⟩
theorem mul : Statement .mul := ⟨rfl, by decide⟩
theorem mullo : Statement .mullo := ⟨rfl, by decide⟩
theorem modpmul : Statement .modpmul := ⟨rfl, by decide⟩
theorem mulmodBnm1 : Statement .mulmodBnm1 := ⟨rfl, by decide⟩
theorem mulmodBnp1 : Statement .mulmodBnp1 := ⟨rfl, by decide⟩

end Sys2Proof.Laws.RoundTrip
end

