-- ==== Sys2Proof/Tests/Slice0.lean ====
section
/-!
SUPPORT. The model's own tests. The vectors are those of spec/95_test_vectors.md (each test names its vector), the command
words are written out from 30_encoding.md R80 to R83, and the witnesses show states that meet the hypotheses of the
statements of Certificates/Slice0/Obligations.lean.
-/
set_option Elab.async false

namespace Sys2Proof.Tests

open Sys2Proof.Machine

/-! ### The well-formedness check refuses what it should -/

theorem smoke_reserved6_of_shrRound_is_ill_formed : Instr.wellFormed (.shrRound .reserved6 false) = false := by decide

theorem smoke_reserved7_of_rtm_is_ill_formed : Instr.wellFormed (.rtm .reserved7 true) = false := by decide

theorem smoke_exact_is_well_formed : Instr.wellFormed (.rtm (.mode .exact) true) = true := by decide

/-! ### Command words written out from 30_encoding.md: reserved (52 bits 0), NEG, RM, OP -/

theorem test_decode_nop : decode (0b0_000_00000000#64) = .ok .nop := by decide

theorem test_decode_logic :
    [0b0001_0000#64, 0b0001_0001#64, 0b0001_0010#64, 0b0001_0011#64, 0b0001_0100#64, 0b0001_0101#64, 0b0001_0110#64,
      0b0001_0111#64, 0b0001_1000#64, 0b0001_1001#64, 0b0001_1010#64, 0b0001_1011#64].map (fun w => (decode w).toOption) =
    [some .andSl, some .and, some .andIpl, some .andIpe, some .orSl, some .or, some .orIpl, some .orIpe, some .xorSl,
      some .xor, some .xorIpl, some .xorIpe] := by decide

theorem test_decode_shift :
    [0b0010_0000#64, 0b0010_0001#64, 0b0010_0010#64, 0b0010_0011#64, 0b0010_0100#64, 0b0010_0101#64,
      0b0010_0110#64].map (fun w => (decode w).toOption) =
    [some .shl, some .shlIp, some .shlSub, some .shlc, some .shr, some .shrIp, some .shrSub] := by decide

theorem test_decode_round_mod :
    [0b0_000_0011_0000#64, 0b0_000_0011_0001#64, 0b1_100_0011_0010#64, 0b0_101_0011_0011#64,
      0b0_001_0011_0010#64, 0b1_010_0011_0011#64, 0b0_011_0011_0010#64, 0b1_000_0011_0011#64].map
        (fun w => (decode w).toOption) =
    [some .modp, some .negmodp, some (.shrRound (.mode .nearest) true), some (.rtm (.mode .exact) false),
      some (.shrRound (.mode .up) false), some (.rtm (.mode .floor) true), some (.shrRound (.mode .ceiling) false),
      some (.rtm (.mode .down) true)] := by decide

theorem test_decode_reserved_rm :
    [0b0_110_0011_0010#64, 0b1_111_0011_0011#64].map (fun w => (decode w).toOption) =
    [some (.shrRound .reserved6 false), some (.rtm .reserved7 true)] := by decide

theorem test_decode_twos_complement :
    [0b0100_0000#64, 0b0100_0001#64, 0b0100_0010#64, 0b0100_0011#64, 0b0100_0100#64, 0b0100_0101#64, 0b0100_0110#64,
      0b0100_0111#64, 0b0100_1000#64, 0b0100_1001#64, 0b0100_1010#64].map (fun w => (decode w).toOption) =
    [some .twos, some .xorNn, some .xorNnIpl, some .xorNnIpe, some .xorPn, some .xorPln, some .xorNln, some .getbP,
      some .getbN, some .asgbP, some .asgbN] := by decide

theorem test_decode_multiply :
    [0b0101_0000#64, 0b0101_0001#64, 0b0101_0010#64, 0b0101_0011#64, 0b0101_0100#64].map (fun w => (decode w).toOption) =
    [some .mul, some .mullo, some .modpmul, some .mulmodBnm1, some .mulmodBnp1] := by decide

theorem test_decode_rejects_by_name :
    decode 0x1019#64 = .error .reservedBits ∧ decode 0x0F#64 = .error .reservedOp ∧
    decode 0x1C#64 = .error .reservedOp ∧ decode 0x55#64 = .error .reservedOp ∧
    decode 0x8000000000000010#64 = .error .reservedBits ∧ decodeBytes [0x10#8] = .error .notOneWord ∧
    decodeBytes [0x32#8, 0x0C#8, 0#8, 0#8, 0#8, 0#8, 0#8, 0#8] = .ok (.shrRound (.mode .nearest) true) := by decide

theorem test_decodeTableWord : decodeTableWord 64 0x41 = some .xorNn := by decide

/-! ### Small states -/

/-- An engine (W = 32, 64 limbs) about to run the command word `cmd`. -/
def busyState (cmd : Nat) (lm : Memory) (xb xl yb yl ob oc a0 a1 : Nat) : State :=
  { State.reset with
    phase := .busy, cmd := BitVec.ofNat 64 cmd, lm := lm
    xbase := BitVec.ofNat 64 xb, xlen := BitVec.ofNat 64 xl, ybase := BitVec.ofNat 64 yb, ylen := BitVec.ofNat 64 yl
    obase := BitVec.ofNat 64 ob, ocap := BitVec.ofNat 64 oc, arg0 := BitVec.ofNat 64 a0, arg1 := BitVec.ofNat 64 a1 }

/-- The outcome is a success: these limbs at `d`, these result registers, STATUS = 2, the limbs of `keep` as they were,
and the limbs of `tail` written. -/
def succeeds (r : StepResult) (d : Nat) (limbs : List Nat) (rlen rnlen raux : Nat) (keep : List (Nat × Nat))
    (tail : List Nat) : Bool :=
  match r with
  | .next t =>
    (List.range limbs.length).all (fun j => t.limb? (d + j) == limbs[j]?) && t.rlen.toNat == rlen &&
    t.rnlen.toNat == rnlen && t.raux.toNat == raux && t.statusWord.toNat == 2 &&
    keep.all (fun p => t.limb? p.1 == some p.2) && tail.all (fun i => (t.limb? i).isSome)
  | _ => false

/-- The outcome is the error completion of code `c`: LM and the operand registers as they were. -/
def fails (r : StepResult) (s : State) (c : Nat) : Bool :=
  match r with
  | .next t =>
    t.lm == s.lm && t.rlen == 0 && t.rnlen == 0 && t.raux == 0 && t.statusWord.toNat == 6 + c * 256 &&
    t.xbase == s.xbase && t.cmd == s.cmd
  | _ => false

/-- RLEN, RAUX and STATUS of a next state. -/
def resultOf (r : StepResult) : Option (Nat × Nat × Nat) :=
  match r with
  | .next t => some (t.rlen.toNat, t.raux.toNat, t.statusWord.toNat)
  | _ => none

/-! ### Vectors of spec/95_test_vectors.md, each one engine step -/

/-- V127. -/
theorem test_nop_completes : succeeds (step (busyState 0x0 [] 0 0 16 0 32 8 0 0)) 0 [] 0 0 0 [] [] = true := by
      decide

/-- V1. -/
theorem test_andSl_example : succeeds (step (busyState 0x10 [(0, 0xf0f0f0f0#64), (1, 0x1#64), (16, 0xff00ff00#64),
      (17, 0x3#64)] 0 2 16 2 32 8 0 0)) 32 [4026593280, 1] 2 2 0 [(0,4042322160), (1,1), (16,4278255360), (17,3)]
      [34, 35, 36, 37, 38, 39] = true := by decide

/-- V2. -/
theorem test_andSl_lengths_differ_raise_elen : fails (step (busyState 0x10 [(0, 0x1#64), (1, 0x2#64), (16, 0x1#64)]
      0 2 16 1 32 8 0 0)) (busyState 0x10 [(0, 0x1#64), (1, 0x2#64), (16, 0x1#64)] 0 2 16 1 32 8 0 0) 5 = true := by
      decide

/-- V4. -/
theorem test_and_zero_extends_y : succeeds (step (busyState 0x11 [(0, 0xf#64), (1, 0x12345678#64), (2,
      0x9abcdef0#64), (16, 0x5#64)] 0 3 16 1 32 8 0 0)) 32 [5, 0, 0] 3 1 0 [(0,15), (1,305419896), (2,2596069104),
      (16,5)] [35, 36, 37, 38, 39] = true := by decide

/-- V5. -/
theorem test_and_of_empty_x : succeeds (step (busyState 0x11 [(16, 0x1#64), (17, 0x2#64)] 0 0 16 2 32 8 0 0)) 32 [0,
      0] 2 0 0 [(16,1), (17,2)] [34, 35, 36, 37, 38, 39] = true := by decide

/-- V7. -/
theorem test_andIpl_clears_trailing_limb : succeeds (step (busyState 0x12 [(0, 0xffffffff#64), (1, 0xffffffff#64),
      (16, 0xffff#64)] 0 2 16 1 32 2 0 0)) 0 [65535, 0] 2 1 0 [(16,65535)] [] = true := by decide

/-- V8. -/
theorem test_andIpl_capacity_raises_ecap : fails (step (busyState 0x12 [(0, 0xff#64), (16, 0xf#64), (17, 0xf#64)] 0
      1 16 2 32 1 0 0)) (busyState 0x12 [(0, 0xff#64), (16, 0xf#64), (17, 0xf#64)] 0 1 16 2 32 1 0 0) 11 = true :=
      by decide

/-- V9. -/
theorem test_andIpe_writes_longer_y : succeeds (step (busyState 0x13 [(0, 0xff#64), (16, 0xf#64), (17, 0x1#64)] 0 1
      16 2 32 8 0 0)) 16 [15, 0] 2 1 1 [(0,255)] [] = true := by decide

/-- V10. -/
theorem test_andIpe_tie_writes_x : succeeds (step (busyState 0x13 [(0, 0x6#64), (16, 0x3#64)] 0 1 16 1 32 8 0 0)) 0
      [2] 1 1 0 [(16,3)] [] = true := by decide

/-- V11. -/
theorem test_orSl_example : succeeds (step (busyState 0x14 [(0, 0xf0f0f0f0#64), (1, 0x1#64), (16, 0xf0f0f0f#64),
      (17, 0x2#64)] 0 2 16 2 32 8 0 0)) 32 [4294967295, 3] 2 2 0 [(0,4042322160), (1,1), (16,252645135), (17,2)]
      [34, 35, 36, 37, 38, 39] = true := by decide

/-- V12. -/
theorem test_or_copies_longer_operand : succeeds (step (busyState 0x15 [(0, 0x1#64), (16, 0x2#64), (17, 0x3#64)] 0 1
      16 2 32 8 0 0)) 32 [3, 3] 2 2 0 [(0,1), (16,2), (17,3)] [34, 35, 36, 37, 38, 39] = true := by decide

/-- V13. -/
theorem test_or_of_empties : succeeds (step (busyState 0x15 [] 0 0 16 0 32 8 0 0)) 32 [] 0 0 0 [] [32, 33, 34, 35,
      36, 37, 38, 39] = true := by decide

/-- V14. -/
theorem test_orIpl_keeps_trailing_limbs : succeeds (step (busyState 0x16 [(0, 0x10#64), (1, 0x20#64), (2, 0x30#64),
      (16, 0x1#64)] 0 3 16 1 32 3 0 0)) 0 [17, 32, 48] 3 3 0 [(16,1)] [] = true := by decide

/-- V15. -/
theorem test_orIpl_grows_x : succeeds (step (busyState 0x16 [(0, 0x1#64), (16, 0x2#64), (17, 0x3#64)] 0 1 16 2 32 2
      0 0)) 0 [3, 3] 2 2 0 [(16,2), (17,3)] [] = true := by decide

/-- V16. -/
theorem test_orIpe_tie_writes_x : succeeds (step (busyState 0x17 [(0, 0x1#64), (16, 0x2#64)] 0 1 16 1 32 8 0 0)) 0
      [3] 1 1 0 [(16,2)] [] = true := by decide

/-- V17. -/
theorem test_xorSl_example : succeeds (step (busyState 0x18 [(0, 0xffff0000#64), (1, 0x5#64), (16, 0xf0f0f0f#64),
      (17, 0x5#64)] 0 2 16 2 32 8 0 0)) 32 [4042264335, 0] 2 1 0 [(0,4294901760), (1,5), (16,252645135), (17,5)]
      [34, 35, 36, 37, 38, 39] = true := by decide

/-- V18. -/
theorem test_xorSl_of_same_region_is_zero : succeeds (step (busyState 0x18 [(0, 0x12345678#64), (1, 0x9abcdef0#64)]
      0 2 0 2 32 8 0 0)) 32 [0, 0] 2 0 0 [(0,305419896), (1,2596069104)] [34, 35, 36, 37, 38, 39] = true := by
      decide

/-- V19. -/
theorem test_xor_example : succeeds (step (busyState 0x19 [(0, 0x3#64), (16, 0x1#64), (17, 0x7#64)] 0 1 16 2 32 8 0
      0)) 32 [2, 7] 2 2 0 [(0,3), (16,1), (17,7)] [34, 35, 36, 37, 38, 39] = true := by decide

/-- V130. -/
theorem test_xor_ignores_rm_and_neg : succeeds (step (busyState 0xF19 [(0, 0x1#64), (16, 0x2#64)] 0 1 16 1 32 8 0
      0)) 32 [3] 1 1 0 [(0,1), (16,2)] [33, 34, 35, 36, 37, 38, 39] = true := by decide

/-- V21. -/
theorem test_xorIpl_extends_x : succeeds (step (busyState 0x1A [(0, 0xf#64), (16, 0x1#64), (17, 0x2#64)] 0 1 16 2 32
      2 0 0)) 0 [14, 2] 2 2 0 [(16,1), (17,2)] [] = true := by decide

/-- V22. -/
theorem test_xorIpe_writes_x : succeeds (step (busyState 0x1B [(0, 0x1#64), (1, 0x2#64), (16, 0x3#64)] 0 2 16 1 32 8
      0 0)) 0 [2, 2] 2 2 0 [(16,3)] [] = true := by decide

/-- V23. -/
theorem test_xorIpe_writes_y : succeeds (step (busyState 0x1B [(0, 0x3#64), (16, 0x1#64), (17, 0x2#64)] 0 1 16 2 32
      8 0 0)) 16 [2, 2] 2 2 1 [(0,3)] [] = true := by decide

/-- V24. -/
theorem test_shl_by_33 : succeeds (step (busyState 0x20 [(0, 0x80000001#64)] 0 1 16 0 32 8 33 0)) 32 [0, 2, 1] 3 3 1
      [(0,2147483649)] [35, 36, 37, 38, 39] = true := by decide

/-- V29. -/
theorem test_shl_capacity_raises_ecap : fails (step (busyState 0x20 [(0, 0x1#64)] 0 1 16 0 32 8 300 0)) (busyState
      0x20 [(0, 0x1#64)] 0 1 16 0 32 8 300 0) 11 = true := by decide

/-- V30. -/
theorem test_shlIp_by_two_limbs : succeeds (step (busyState 0x21 [(0, 0x1#64), (1, 0x2#64)] 0 2 16 0 32 4 64 0)) 0
      [0, 0, 1, 2] 4 4 0 [] [] = true := by decide

/-- V31. -/
theorem test_shlSub_returns_carry : succeeds (step (busyState 0x22 [(0, 0x80000001#64), (1, 0xf0000003#64)] 0 2 16 0
      32 8 4 0)) 0 [16, 56] 2 2 15 [] [] = true := by decide

/-- V33. -/
theorem test_shlSub_by_w_raises_ebits : fails (step (busyState 0x22 [(0, 0x1#64)] 0 1 16 0 32 8 32 0)) (busyState
      0x22 [(0, 0x1#64)] 0 1 16 0 32 8 32 0) 8 = true := by decide

/-- V34. -/
theorem test_shlc_complements_limbs_not_carry : succeeds (step (busyState 0x23 [(0, 0x80000001#64), (1,
      0xf0000003#64)] 0 2 16 0 32 8 4 0)) 32 [4294967279, 4294967239] 2 2 15 [(0,2147483649), (1,4026531843)] [34,
      35, 36, 37, 38, 39] = true := by decide

/-- V35. -/
theorem test_shlc_of_zero : succeeds (step (busyState 0x23 [(0, 0x0#64)] 0 1 16 0 32 8 1 0)) 32 [4294967295] 1 1 0
      [(0,0)] [33, 34, 35, 36, 37, 38, 39] = true := by decide

/-- V36. -/
theorem test_shr_by_36_sticky : succeeds (step (busyState 0x24 [(0, 0x10#64), (1, 0x38#64)] 0 2 16 0 32 8 36 0)) 32
      [3] 1 1 1 [(0,16), (1,56)] [33, 34, 35, 36, 37, 38, 39] = true := by decide

/-- V38. -/
theorem test_shr_keeps_zero_top_limb : succeeds (step (busyState 0x24 [(0, 0x0#64), (1, 0x80000000#64)] 0 2 16 0 32
      8 31 0)) 32 [0, 1] 2 2 0 [(0,0), (1,2147483648)] [34, 35, 36, 37, 38, 39] = true := by decide

/-- V39. -/
theorem test_shrIp_leaves_a_tail : succeeds (step (busyState 0x25 [(0, 0x1#64), (1, 0x2#64), (2, 0x3#64)] 0 3 16 0
      32 8 32 0)) 0 [2, 3] 2 2 1 [] [2] = true := by decide

/-- V40. -/
theorem test_shrSub_returns_bits_at_top : succeeds (step (busyState 0x26 [(0, 0x13#64), (1, 0x1#64)] 0 2 16 0 32 8 4
      0)) 0 [268435457, 0] 2 1 805306368 [] [] = true := by decide

/-- V41. -/
theorem test_shrSub_by_w_raises_ebits : fails (step (busyState 0x26 [(0, 0x13#64), (1, 0x1#64)] 0 2 16 0 32 8 32 0))
      (busyState 0x26 [(0, 0x13#64), (1, 0x1#64)] 0 2 16 0 32 8 32 0) 8 = true := by decide

/-- V42. -/
theorem test_modp_masks_top_limb : succeeds (step (busyState 0x30 [(0, 0x12345678#64), (1, 0x9abcdef0#64)] 0 2 16 0
      32 8 40 0)) 32 [305419896, 240] 2 2 0 [(0,305419896), (1,2596069104)] [34, 35, 36, 37, 38, 39] = true := by
      decide

/-- V44. -/
theorem test_modp_of_large_pow_copies : succeeds (step (busyState 0x30 [(0, 0x12345678#64), (1, 0x9abcdef0#64)] 0 2
      16 0 32 8 100 0)) 32 [305419896, 2596069104] 2 2 0 [(0,305419896), (1,2596069104)] [34, 35, 36, 37, 38, 39] =
      true := by decide

/-- V45. -/
theorem test_negmodp_source_example : succeeds (step (busyState 0x31 [(0, 0x7b#64), (1, 0x1c8#64)] 0 2 16 0 32 8 40
      0)) 32 [4294967173, 55] 2 2 0 [(0,123), (1,456)] [34, 35, 36, 37, 38, 39] = true := by decide

/-- V47. -/
theorem test_negmodp_longer_than_x : succeeds (step (busyState 0x31 [(0, 0x1#64)] 0 1 16 0 32 8 70 0)) 32
      [4294967295, 4294967295, 63] 3 3 0 [(0,1)] [35, 36, 37, 38, 39] = true := by decide

/-- V56. -/
theorem test_shrRound_ceiling_of_negative : succeeds (step (busyState 0xB32 [(0, 0xb#64)] 0 1 16 0 32 8 2 0)) 32 [2]
      1 1 1 [(0,11)] [33, 34, 35, 36, 37, 38, 39] = true := by decide

/-- V58. -/
theorem test_shrRound_tie_to_even : succeeds (step (busyState 0x432 [(0, 0xe#64)] 0 1 16 0 32 8 2 0)) 32 [4] 1 1 2
      [(0,14)] [33, 34, 35, 36, 37, 38, 39] = true := by decide

/-- V67. -/
theorem test_rtm_up_grows_a_limb : succeeds (step (busyState 0x133 [(0, 0xffffffff#64)] 0 1 16 0 32 8 4 0)) 32 [0,
      1] 2 2 2 [(0,4294967295)] [34, 35, 36, 37, 38, 39] = true := by decide

/-- V70. -/
theorem test_rtm_up_of_huge_pow_raises_ecap : fails (step (busyState 0x133 [(0, 0x1#64)] 0 1 16 0 32 8 1000 0))
      (busyState 0x133 [(0, 0x1#64)] 0 1 16 0 32 8 1000 0) 11 = true := by decide

/-- V71. -/
theorem test_twos_example : succeeds (step (busyState 0x40 [(0, 0x0#64), (1, 0x5#64)] 0 2 16 0 32 8 0 0)) 32 [0,
      4294967291] 2 2 0 [(0,0), (1,5)] [34, 35, 36, 37, 38, 39] = true := by decide

/-- V72. -/
theorem test_twos_of_zero_sets_flag : succeeds (step (busyState 0x40 [(0, 0x0#64), (1, 0x0#64)] 0 2 16 0 32 8 0 0))
      32 [0, 0] 2 0 1 [(0,0), (1,0)] [34, 35, 36, 37, 38, 39] = true := by decide

/-- V74. -/
theorem test_xorNn_source_example : succeeds (step (busyState 0x41 [(0, 0x1#64), (1, 0x2#64), (16, 0x64#64), (17,
      0xc8#64)] 0 2 16 2 32 8 0 0)) 32 [99, 202] 2 2 0 [(0,1), (1,2), (16,100), (17,200)] [34, 35, 36, 37, 38, 39] =
      true := by decide

/-- V78. -/
theorem test_xorNn_subtraction_case : succeeds (step (busyState 0x41 [(0, 0x3#64), (16, 0x0#64), (17, 0x0#64), (18,
      0x1#64)] 0 1 16 3 32 8 0 0)) 32 [4294967293, 4294967295, 0] 3 2 0 [(0,3), (16,0), (17,0), (18,1)] [35, 36, 37,
      38, 39] = true := by decide

/-- V79. -/
theorem test_xorNnIpl_example : succeeds (step (busyState 0x42 [(0, 0x1#64), (1, 0x2#64), (16, 0x64#64), (17,
      0xc8#64)] 0 2 16 2 32 2 0 0)) 0 [99, 202] 2 2 0 [(16,100), (17,200)] [] = true := by decide

/-- V80. -/
theorem test_xorNnIpe_writes_y : succeeds (step (busyState 0x43 [(0, 0x3#64), (16, 0x0#64), (17, 0x0#64), (18,
      0x1#64)] 0 1 16 3 32 8 0 0)) 16 [4294967293, 4294967295, 0] 3 2 1 [(0,3)] [] = true := by decide

/-- V81. -/
theorem test_xorPn_example : succeeds (step (busyState 0x44 [(0, 0x5#64), (16, 0x3#64)] 0 1 16 1 32 8 0 0)) 32 [8] 1
      1 0 [(0,5), (16,3)] [33, 34, 35, 36, 37, 38, 39] = true := by decide

/-- V82. -/
theorem test_xorPn_carries_out : succeeds (step (busyState 0x44 [(0, 0xffffffff#64), (16, 0x1#64)] 0 1 16 1 32 8 0
      0)) 32 [0, 1] 2 2 0 [(0,4294967295), (16,1)] [34, 35, 36, 37, 38, 39] = true := by decide

/-- V85. -/
theorem test_xorPln_carries : succeeds (step (busyState 0x45 [(0, 0xffffffff#64), (1, 0x1#64)] 0 2 16 0 32 8 0 1))
      32 [0, 2] 2 2 0 [(0,4294967295), (1,1)] [34, 35, 36, 37, 38, 39] = true := by decide

/-- V87. -/
theorem test_xorPln_of_zero_limb_raises_ezero : fails (step (busyState 0x45 [(0, 0x5#64)] 0 1 16 0 32 8 0 0))
      (busyState 0x45 [(0, 0x5#64)] 0 1 16 0 32 8 0 0) 7 = true := by decide

/-- V88. -/
theorem test_xorNln_example : succeeds (step (busyState 0x46 [(0, 0x1#64), (1, 0x2#64)] 0 2 16 0 32 8 0 100)) 32
      [99, 2] 2 2 0 [(0,1), (1,2)] [34, 35, 36, 37, 38, 39] = true := by decide

/-- V90. -/
theorem test_getbP_example : succeeds (step (busyState 0x47 [(0, 0x12345678#64), (1, 0x9abcdef0#64)] 0 2 16 0 32 8
      28 40)) 32 [3841] 1 1 0 [(0,305419896), (1,2596069104)] [33, 34, 35, 36, 37, 38, 39] = true := by decide

/-- V92. -/
theorem test_getbP_start_above_end_raises_edomain : fails (step (busyState 0x47 [(0, 0x12345678#64)] 0 1 16 0 32 8 9
      8)) (busyState 0x47 [(0, 0x12345678#64)] 0 1 16 0 32 8 9 8) 9 = true := by decide

/-- V94. -/
theorem test_getbN_example : succeeds (step (busyState 0x48 [(0, 0x100#64)] 0 1 16 0 32 8 4 12)) 32 [240] 1 1 0
      [(0,256)] [33, 34, 35, 36, 37, 38, 39] = true := by decide

/-- V96. -/
theorem test_getbN_past_the_limbs_all_ones : succeeds (step (busyState 0x48 [(0, 0x100#64)] 0 1 16 0 32 8 32 72)) 32
      [4294967295, 255] 2 2 0 [(0,256)] [34, 35, 36, 37, 38, 39] = true := by decide

/-- V99. -/
theorem test_asgbP_example : succeeds (step (busyState 0x49 [(0, 0x1#64), (16, 0x5#64)] 0 1 16 1 32 2 32 40)) 0 [1,
      5] 2 2 0 [(16,5)] [] = true := by decide

/-- V101. -/
theorem test_asgbP_truncates_u : succeeds (step (busyState 0x49 [(0, 0x1#64), (16, 0x1ff#64)] 0 1 16 1 32 1 0 4)) 0
      [15] 1 1 0 [(16,511)] [] = true := by decide

/-- V102. -/
theorem test_asgbN_example : succeeds (step (busyState 0x4A [(0, 0x100#64), (16, 0xf#64)] 0 1 16 1 32 1 0 4)) 0
      [241] 1 1 0 [(16,15)] [] = true := by decide

/-- V103. -/
theorem test_asgbN_grows : succeeds (step (busyState 0x4A [(0, 0x1#64), (16, 0x0#64)] 0 1 16 1 32 2 0 32)) 0 [0, 1]
      2 2 0 [(16,0)] [] = true := by decide

/-- V105. -/
theorem test_mul_example : succeeds (step (busyState 0x50 [(0, 0xffffffff#64), (16, 0xffffffff#64)] 0 1 16 1 32 8 0
      0)) 32 [1, 4294967294] 2 2 0 [(0,4294967295), (16,4294967295)] [34, 35, 36, 37, 38, 39] = true := by decide

/-- V107. -/
theorem test_mul_keeps_zero_top_limb : succeeds (step (busyState 0x50 [(0, 0x2#64), (1, 0x0#64), (16, 0x3#64)] 0 2
      16 1 32 8 0 0)) 32 [6, 0, 0] 3 1 0 [(0,2), (1,0), (16,3)] [35, 36, 37, 38, 39] = true := by decide

/-- V109. -/
theorem test_mullo_example : succeeds (step (busyState 0x51 [(0, 0xffffffff#64), (1, 0xffffffff#64), (16,
      0xffffffff#64), (17, 0xffffffff#64)] 0 2 16 2 32 8 0 0)) 32 [1, 0] 2 1 0 [(0,4294967295), (1,4294967295),
      (16,4294967295), (17,4294967295)] [34, 35, 36, 37, 38, 39] = true := by decide

/-- V110. -/
theorem test_mullo_lengths_differ_raise_elen : fails (step (busyState 0x51 [(0, 0x1#64), (1, 0x2#64), (16, 0x3#64)]
      0 2 16 1 32 8 0 0)) (busyState 0x51 [(0, 0x1#64), (1, 0x2#64), (16, 0x3#64)] 0 2 16 1 32 8 0 0) 5 = true := by
      decide

/-- V112. -/
theorem test_modpmul_source_example : succeeds (step (busyState 0x52 [(0, 0xa#64), (16, 0xe#64)] 0 1 16 1 32 8 4 0))
      32 [12] 1 1 0 [(0,10), (16,14)] [33, 34, 35, 36, 37, 38, 39] = true := by decide

/-- V113. -/
theorem test_modpmul_operand_too_large_raises_edomain : fails (step (busyState 0x52 [(0, 0x10#64), (16, 0x1#64)] 0 1
      16 1 32 8 4 0)) (busyState 0x52 [(0, 0x10#64), (16, 0x1#64)] 0 1 16 1 32 8 4 0) 9 = true := by decide

/-- V117. -/
theorem test_mulmodBnm1_example : succeeds (step (busyState 0x53 [(0, 0xffffffff#64), (1, 0x1#64), (16, 0x2#64)] 0 2
      16 1 32 8 2 0)) 32 [4294967294, 3] 2 2 0 [(0,4294967295), (1,1), (16,2)] [34, 35, 36, 37, 38, 39] = true := by
      decide

/-- V119. -/
theorem test_mulmodBnm1_zero_product_completes : resultOf (step (busyState 0x53 [(0, 0xffffffff#64), (16, 0x1#64)] 0
      1 16 1 32 8 1 0)) = some (1, 0, 2) := by decide

/-- V124. -/
theorem test_mulmodBnp1_result_is_B_to_the_n : succeeds (step (busyState 0x54 [(0, 0x2#64), (16, 0x80000000#64)] 0 1
      16 1 32 8 1 0)) 32 [0, 1] 2 2 0 [(0,2), (16,2147483648)] [34, 35, 36, 37, 38, 39] = true := by decide

/-- V126. -/
theorem test_mulmodBnp1_operand_longer_than_n : succeeds (step (busyState 0x54 [(0, 0x1#64), (1, 0x2#64), (2,
      0x3#64), (16, 0x5#64)] 0 3 16 1 32 8 2 0)) 32 [4294967286, 9, 0] 3 2 0 [(0,1), (1,2), (2,3), (16,5)] [35, 36,
      37, 38, 39] = true := by decide

/-- V63. -/
theorem test_erm_before_eaddr : fails (step (busyState 0x732 [(63, 0xb#64)] 63 2 16 0 32 8 2 0)) (busyState 0x732
      [(63, 0xb#64)] 63 2 16 0 32 8 2 0) 2 = true := by decide

/-- V98. -/
theorem test_ezero_before_edomain : fails (step (busyState 0x48 [(0, 0x0#64)] 0 1 16 0 32 8 9 8)) (busyState 0x48
      [(0, 0x0#64)] 0 1 16 0 32 8 9 8) 7 = true := by decide

/-- V121. -/
theorem test_eempty_before_eorder : fails (step (busyState 0x53 [(16, 0x1#64)] 0 0 16 1 32 8 1 0)) (busyState 0x53
      [(16, 0x1#64)] 0 0 16 1 32 8 1 0) 4 = true := by decide

/-- V128. -/
theorem test_reserved_bit_raises_eopc : fails (step (busyState 0x1019 [(0, 0x1#64), (16, 0x2#64)] 0 1 16 1 32 8 0
      0)) (busyState 0x1019 [(0, 0x1#64), (16, 0x2#64)] 0 1 16 1 32 8 0 0) 1 = true := by decide

/-- V129. -/
theorem test_reserved_op_raises_eopc : fails (step (busyState 0x1 [(0, 0x1#64), (16, 0x2#64)] 0 1 16 1 32 8 0 0))
      (busyState 0x1 [(0, 0x1#64), (16, 0x2#64)] 0 1 16 1 32 8 0 0) 1 = true := by decide

/-- W = 64 (00_scope.md R5): the carry limb of a 64-bit limb (41_shift.md R131, by hand). -/
theorem test_shl_w64 :
    succeeds (step { busyState 0x20 [(0, 0x8000000000000001#64)] 0 1 16 0 32 8 65 0 with
      cfg := { Config.sample with width := .w64 } }) 32 [0, 2, 1] 3 3 1 [(0, 0x8000000000000001)] [35, 36] = true := by
  decide

/-- 60_exceptions.md R227 (b): a command that reads a limb never written. -/
theorem test_never_written_operand_faults :
    ∃ s, step (busyState 0x20 [(0, 1#64)] 0 2 16 0 32 8 0 0) = s ∧ s = .fault (.neverWritten 1) := ⟨_, rfl, rfl⟩

/-! ### The host side -/

/-- An idle engine whose host is about to perform one operation. -/
def hostState (op : HostOp) : State := { State.reset with program := [op], schedule := [3], lm := [(5, 7#64)] }

/-- 10_state.md R35: GO with IEN (CTRL = 5). -/
theorem test_go_starts :
    (match step (hostState (.csrw 1 5)) with
     | .next t => (t.statusWord.toNat, t.ien, t.delay, t.hostPc) | _ => (0, false, 0, 0)) = (1, true, 3, 1) := by decide

/-- 10_state.md R22: SRST wins over GO. -/
theorem test_srst_wins_over_go :
    (match step { hostState (.csrw 1 7) with rlen := 9, done := true } with
     | .next t => (t.statusWord.toNat, t.ien, t.rlen.toNat, t.limb? 5) | _ => (99, true, 0, none)) =
    (0, false, 0, some 7) := by decide

/-- 10_state.md R36: a dropped write while BUSY sets WERR. -/
theorem test_busy_write_sets_werr :
    (match step { hostState (.csrw 4 1) with phase := .busy, delay := 2 } with
     | .next t => (t.statusWord.toNat, t.xbase.toNat, t.delay) | _ => (0, 0, 0)) = (9, 0, 1) := by decide

/-- 20_memory.md R62: a limb read while BUSY waits: the engine steps first. -/
theorem test_limb_read_waits :
    (match step { hostState (.lmr 5 0) with phase := .busy, delay := 2 } with
     | .next t => (t.statusWord.toNat, t.hostPc) | _ => (0, 9)) = (2, 0) := by decide

/-- 70_reset_and_hazards.md R251 (a): SRST abandons SHL: its destination LM[8..9] counts as written, LM[5] is kept. -/
theorem test_srst_abandons :
    (match step { hostState (.csrw 1 2) with phase := .busy, delay := 2, cmd := 0x20, obase := 8, ocap := 2 } with
     | .next t => (t.statusWord.toNat, t.limb? 5, (t.limb? 8).isSome, (t.limb? 9).isSome, (t.limb? 10).isSome)
     | _ => (9, none, false, false, false)) = (0, some 7, true, true, false) := by decide

/-- 10_state.md R21: ID of the sample engine is 0x0000004000000120 (95_test_vectors.md, Conventions). -/
theorem test_id_word : csrValue 0 State.reset = 0x0000004000000120#64 := by decide

/-- 20_memory.md R61: LM[5] stands at LM_BASE + 4*5, little-endian; a misaligned access is a bus error. -/
theorem test_byte_map :
    busRead? Config.sample 0x814 4 = some (.lmRead 5) ∧ busRead? Config.sample 0x20 8 = some (.csrRead 4) ∧
    busRead? Config.sample 0x812 4 = none ∧ busRead? Config.sample 0x20 4 = none ∧
    busWrite? Config.sample 0x800 [0x78#8, 0x56#8, 0x34#8, 0x12#8] = some (.lmWrite 0 0x12345678#64) := by decide

/-- Program P4 of 95_test_vectors.md: its expansion table. -/
theorem test_assemble_P4 :
    assemble [.lmw 0 1, .csrw 4 0, .csrw 5 1, .csrw 10 4, .csrw 3 0x22, .label (.named "loop"), .go, .wait, .csrr 14 1,
      .ifEq 1 0xFFFFFFFF 0 (.named "loop"), .lmr 0 2, .stop] =
    some [.lmw 0 1, .csrw 4 0, .csrw 5 1, .csrw 10 4, .csrw 3 0x22, .csrw 1 1, .csrr 2 0, .ifEq 0 2 0 6, .csrr 14 1,
      .ifEq 1 0xFFFFFFFF 0 5, .lmr 0 2, .stop] := by decide

/-- The fetch word runs as the first command after reset. -/
theorem test_fetch_word_runs :
    (match step (State.reset.withFetchWord 64 0x50) with
     | .next t => (t.statusWord.toNat, t.rlen.toNat, t.cmd.toNat) | _ => (0, 9, 0)) = (2, 0, 0x50) := by decide

/-! ### Witnesses: states that meet the hypotheses of the statements -/

/-- X and Y of two limbs each, both written; the out region at limb 32. -/
def twoLimbs (cmd oc a0 a1 : Nat) : State :=
  busyState cmd [(0, 0x80000001#64), (1, 0xF0000003#64), (16, 3#64), (17, 1#64)] 0 2 16 2 32 oc a0 a1

/-- The values of those regions. -/
def xTwo : Nat := 0x80000001 + 2 ^ 32 * 0xF0000003

/-- The value of region Y. -/
def yTwo : Nat := 3 + 2 ^ 32

/-- The operands are in place and the result of length `L` just fits, or just does not fit. -/
def ready (h : Shape) (s : State) (x y : Nat) : Bool := decide (Inside h s ∧ Operand h s x y)

/-- The hypotheses of `Follows` as a proposition. -/
abbrev Ready (h : Shape) (s : State) (x y : Nat) : Prop := ready h s x y = true

theorem ready_iff (h : Shape) (s : State) (x y : Nat) : Ready h s x y ↔ Inside h s ∧ Operand h s x y :=
  decide_eq_true_iff

theorem ne_ok_of_error {w : Word} {e : DecodeReject} (h : decode w = .error e) : ∀ i, decode w ≠ .ok i :=
  fun i hi => by rw [h] at hi; cases hi

theorem witness_SpecExampleWordsDecode :
    (busyState 0x1019 [] 0 0 0 0 0 0 0 0).engineMoves = true ∧ (busyState 0x1019 [] 0 0 0 0 0 0 0 0).cmd = 0x1019#64 ∧
    (busyState 0x632 [] 0 0 0 0 0 0 0 0).engineMoves = true ∧ (busyState 0x632 [] 0 0 0 0 0 0 0 0).cmd = 0x632#64 := by
  decide

/-- RM = 6 in SHR_ROUND, and RM = 7 with NEG in RTM. -/
theorem witness_IllegalWordsAreExactlyThese_erm :
    ∀ p ∈ [(0x632, 0x32, 6), (0xF33, 0x33, 7)],
      let s := busyState p.1 [] 0 0 0 0 0 0 0 0
      s.engineMoves = true ∧ s.cmd.toNat < 2 ^ 12 ∧ s.cmd.toNat % 2 ^ 8 = p.2.1 ∧ s.cmd.toNat / 2 ^ 8 % 2 ^ 3 = p.2.2 := by
  decide

/-- Legal words at the ends of the gaps of the reserved list: each OP is in none of its ranges. -/
theorem witness_IllegalWordsAreExactlyThese_legal :
    (∀ op ∈ [0x00, 0x10, 0x1B, 0x20, 0x26, 0x30, 0x33, 0x40, 0x4A, 0x50, 0x54],
      (BitVec.ofNat 64 op).toNat < 2 ^ 12 ∧
      ¬ ((0x01 ≤ op ∧ op ≤ 0x0F) ∨ (0x1C ≤ op ∧ op ≤ 0x1F) ∨ (0x27 ≤ op ∧ op ≤ 0x2F) ∨ (0x34 ≤ op ∧ op ≤ 0x3F) ∨
        (0x4B ≤ op ∧ op ≤ 0x4F) ∨ (0x55 ≤ op ∧ op ≤ 0xFF))) ∧
    Instr.wellFormed (.shrRound (.mode .exact) true) = true := by decide

theorem witness_IllegalWordsAreExactlyThese :
    (0xFFF#64).toNat < 2 ^ 12 ∧ (busyState 0x01 [] 0 0 0 0 0 0 0 0).engineMoves = true ∧
    (∀ i, decode (busyState 0x01 [] 0 0 0 0 0 0 0 0).cmd ≠ .ok i) ∧ Instr.wellFormed (.rtm .reserved6 false) = false :=
  ⟨by decide, by decide,
    ne_ok_of_error (e := .reservedOp) (by decide),
    by decide⟩

/-- Both ways the engine moves: the host waits, and the delay is over while the host could go on. -/
theorem witness_StepRunsTheDecodedCommand :
    let s := busyState 0x20 [] 0 0 0 0 0 0 0 0
    let s' := { s with program := [.csrr 2 0] }
    s.phase = .busy ∧ s.hostWaits = true ∧ decode s.cmd = .ok .shl ∧
    s'.phase = .busy ∧ s'.hostWaits = false ∧ s'.delay = 0 := by decide

theorem witness_PowerOnMeetsInv :
    Config.sample.wf ∧ ({ Config.sample with lmLimbs := 1 } : Config).wf ∧
    ({ Config.sample with lmLimbs := 2 ^ 32 - 1 } : Config).wf := by decide

/-- A state that meets the invariant and is in the middle of a run: BUSY, with written limbs and a kept temporary. -/
theorem inv_of_twoLimbs : State.Inv { twoLimbs 0x20 8 33 0 with temps := [(1, 5)] } where
  cfgWf := by decide
  lmWf := by decide
  lmRange := by decide
  tempsWf := by decide
  tempsNz := by decide
  ecodeMax := by decide
  errCode := by decide
  busyClear := by decide
  errResults := by decide
  rnlenLe := by decide
  rlenLe := by decide
  rauxLimb := by decide

theorem witness_StepKeepsInv :
    ∃ s t : State, s.Inv ∧ step s = .next t ∧ t.rlen.toNat = 4 :=
  ⟨_, _, inv_of_twoLimbs, rfl, by decide⟩

theorem witness_IdRegisterIsFixed :
    ∃ t, State.reset.cfg.wf ∧ State.reset.phase = .idle ∧ step State.reset = .next t := ⟨_, by decide, rfl, rfl⟩

theorem witness_IdleRegisterWrites :
    State.reset.phase = .idle ∧ (3 ≤ 3 ∧ 3 ≤ 11) ∧ (3 ≤ 11 ∧ 11 ≤ 11) ∧ (0 = 0 ∨ 12 ≤ 0) ∧ (12 = 0 ∨ 12 ≤ 12) ∧
    (255 = 0 ∨ 12 ≤ 255) := by decide

/-- SRST with GO, neither, and GO alone. -/
theorem witness_CtrlBitsAndPulses :
    (3#64).getLsbD 1 = true ∧ (4#64).getLsbD 1 = false ∧ State.reset.phase = .idle ∧ (1#64).getLsbD 0 = true ∧
    (1#64).getLsbD 1 = false := by decide

theorem witness_GoStartsACommand :
    State.reset.phase = .idle ∧ (5#64).getLsbD 0 = true ∧ (5#64).getLsbD 1 = false := by decide

/-- One value per clause of the statement: 2; 1 with SRST, with GO, with neither; 15 and 255; 0, 3 and 14. -/
theorem witness_BusyRegisterWrites :
    (twoLimbs 0x20 8 0 0).phase = .busy ∧ (2#64).getLsbD 1 = true ∧ (1#64).getLsbD 1 = false ∧
    (1#64).getLsbD 0 = true ∧ (4#64).getLsbD 1 = false ∧ (4#64).getLsbD 0 = false ∧ 15 ≤ 15 ∧ 15 ≤ 255 ∧
    (0 ≠ 1 ∧ 0 ≠ 2 ∧ 0 < 15) ∧ (3 ≠ 1 ∧ 3 ≠ 2 ∧ 3 < 15) ∧ (14 ≠ 1 ∧ 14 ≠ 2 ∧ 14 < 15) := by decide

theorem witness_SoftResetEffect :
    (2#64).getLsbD 1 = true ∧ State.reset.phase = .idle ∧ (twoLimbs 0x20 8 0 0).phase = .busy ∧
    decode (twoLimbs 0x20 8 0 0).cmd = .ok .shl ∧
    (let s := twoLimbs 0x20 8 0 0
     let d := destBase (rowOf .shl).dest s
     31 < d ∧ d + destCap (rowOf .shl).dest s ≤ 40 ∧ d ≤ 39 ∧ 39 < d + destCap (rowOf .shl).dest s ∧
       39 < s.cfg.lmLimbs) ∧
    (twoLimbs 0x01 8 0 0).phase = .busy ∧ decode (twoLimbs 0x01 8 0 0).cmd = .error .reservedOp := by decide

theorem witness_InterruptLine :
    ∃ t, exec .shl (twoLimbs 0x20 8 0 0) = .next t ∧ (4#64).getLsbD 0 = false ∧ (4#64).getLsbD 1 = false ∧
      (2#64).getLsbD 1 = true := ⟨_, rfl, by decide⟩

theorem witness_HostTransactions :
    let s := twoLimbs 0x20 8 0 0
    255 ≤ 255 ∧ 255 < 256 ∧ 63 < s.cfg.lmLimbs ∧ 1 < s.cfg.lmLimbs ∧ s.limb? 1 = some 0xF0000003 ∧
    s.cfg.lmLimbs ≤ 64 ∧ (hostState (.csrr 256 0)).phase = .idle ∧
    (hostState (.csrr 256 0)).hostOp = some (.csrr 256 0) ∧ (hostState (.csrw 256 0)).hostOp = some (.csrw 256 0) ∧
    (hostState (.lmr 64 0)).hostOp = some (.lmr 64 0) ∧ (hostState (.lmw 64 0)).hostOp = some (.lmw 64 0) ∧
    (hostState (.lmr 64 0)).cfg.lmLimbs ≤ 64 := by decide

theorem witness_LimbTransactionsWaitWhileBusy :
    let s := { twoLimbs 0x20 8 0 0 with delay := 1 }
    (∃ t, ({ s with program := [.lmr 0 1] } : State).hostOp = some (.lmr 0 1) ∧
      step { s with program := [.lmr 0 1] } = .next t) ∧
    (∃ t, ({ s with program := [.lmw 0 1] } : State).hostOp = some (.lmw 0 1) ∧
      step { s with program := [.lmw 0 1] } = .next t) ∧
    ({ s with program := [.csrr 2 1] } : State).hostOp = some (.csrr 2 1) ∧
    ({ s with program := [.csrw 2 1] } : State).hostOp = some (.csrw 2 1) ∧ s.phase = .busy ∧ 0 < s.delay :=
  ⟨⟨_, by decide, rfl⟩, ⟨_, by decide, rfl⟩, by decide, by decide, by decide, by decide⟩

/-- Byte accesses while BUSY: LM[0] at 0x800, the register STATUS at 0x10, and an address outside both windows. -/
theorem witness_LimbTransactionsWaitWhileBusy_bytes :
    let s := { twoLimbs 0x20 8 0 0 with delay := 1 }
    let at0 (op : HostOp) : State := { s with program := [op] }
    let word : List Byte := [0, 0, 0, 0]
    (∃ t, (at0 (.busr 0x800 4 1)).hostOp = some (.busr 0x800 4 1) ∧ busRead? s.cfg 0x800 4 = some (.lmRead 0) ∧
      step (at0 (.busr 0x800 4 1)) = .next t) ∧
    (∃ t, (at0 (.busw 0x800 word)).hostOp = some (.busw 0x800 word) ∧
      busWrite? s.cfg 0x800 word = some (.lmWrite 0 0) ∧ step (at0 (.busw 0x800 word)) = .next t) ∧
    (at0 (.busr 0x10 8 1)).hostOp = some (.busr 0x10 8 1) ∧ busRead? s.cfg 0x10 8 = some (.csrRead 2) ∧
    (at0 (.busw 0x10 (word ++ word))).hostOp = some (.busw 0x10 (word ++ word)) ∧
    busWrite? s.cfg 0x10 (word ++ word) = some (.csrWrite 2 0) ∧
    (at0 (.busr 0x900 4 1)).hostOp = some (.busr 0x900 4 1) ∧ busRead? s.cfg 0x900 4 = none ∧
    (at0 (.busw 0x20 [0])).hostOp = some (.busw 0x20 [0]) ∧ busWrite? s.cfg 0x20 [0] = none :=
  ⟨⟨_, by decide, by decide, rfl⟩, ⟨_, by decide, by decide, rfl⟩, by decide, by decide, by decide, by decide, by decide,
    by decide, by decide, by decide⟩

/-- Both host branches, and a read of STATUS, while BUSY. -/
theorem witness_LimbTransactionsWaitWhileBusy_branches :
    let at0 (op : HostOp) : State := { twoLimbs 0x20 8 0 0 with delay := 1, program := [op], temps := [(1, 2)] }
    (at0 (.csrr 2 1)).phase = .busy ∧ 0 < (at0 (.csrr 2 1)).delay ∧ Cells.wf (at0 (.csrr 2 1)).temps = true ∧
    (at0 (.csrr 2 1)).hostOp = some (.csrr 2 1) ∧
    (at0 (.ifEq 1 2 0 0)).hostOp = some (.ifEq 1 2 0 0) ∧ (at0 (.ifNe 1 2 0 0)).hostOp = some (.ifNe 1 2 0 0) := by decide

/-- 10_state.md R37: a read of STATUS while BUSY answers BUSY = 1 at once. -/
theorem test_status_read_while_busy :
    (match step { twoLimbs 0x20 8 0 0 with delay := 1, program := [.csrr 2 1] } with
     | .next t => (t.temp 1, t.busy, t.delay) | _ => (0, false, 9)) = (1, true, 0) := by decide

theorem witness_ReadsHaveNoSideEffect :
    (∃ t, Cells.wf (hostState (.csrr 2 0)).temps = true ∧ (hostState (.csrr 2 0)).engineMoves = false ∧
      step (hostState (.csrr 2 0)) = .next t) ∧
    (∃ t, (hostState (.lmr 5 0)).engineMoves = false ∧ step (hostState (.lmr 5 0)) = .next t) ∧
    (∃ t, (hostState (.busr 0x814 4 0)).engineMoves = false ∧ step (hostState (.busr 0x814 4 0)) = .next t) :=
  ⟨⟨_, by decide, by decide, rfl⟩, ⟨_, by decide, rfl⟩, ⟨_, by decide, rfl⟩⟩

/-- A write of each width that selects a register and a limb. -/
theorem witness_PlatformByteMap_order :
    busWrite? Config.sample 0x20 [8, 7, 6, 5, 4, 3, 2, 1] = some (.csrWrite 4 0x0102030405060708) ∧
    busWrite? Config.sample 0x814 [4, 3, 2, 1] = some (.lmWrite 5 0x01020304) := by decide

theorem witness_PlatformByteMap :
    let c := Config.sample
    (c.csrBase + 2048 ≤ c.lmBase ∨ c.lmBase + c.width.bits / 8 * c.lmLimbs ≤ c.csrBase) ∧
    busRead? c 0x7F8 8 = some (.csrRead 255) ∧ busRead? c 0x8FC 4 = some (.lmRead 63) ∧
    (hostState (.busr 0x900 4 0)).hostOp = some (.busr 0x900 4 0) ∧ busRead? c 0x900 4 = none ∧
    (hostState (.busw 0x20 [0#8])).hostOp = some (.busw 0x20 [0#8]) ∧ busWrite? c 0x20 [0#8] = none := by decide

theorem witness_HostOperationsWhileIdle :
    Cells.wf (hostState .stop).temps = true ∧ (hostState .stop).phase = .idle ∧
    (hostState (.csrw 255 1)).hostOp = some (.csrw 255 1) ∧ (hostState (.csrr 255 1)).hostOp = some (.csrr 255 1) ∧
    (hostState (.lmw 63 1)).hostOp = some (.lmw 63 1) ∧ 63 < (hostState (.lmw 63 1)).cfg.lmLimbs ∧
    (hostState (.lmr 5 1)).hostOp = some (.lmr 5 1) ∧ (hostState (.lmr 5 1)).limb? 5 = some 7 ∧
    (hostState (.ifEq 0 2 0 4)).hostOp = some (.ifEq 0 2 0 4) ∧
    (hostState (.ifNe 0 2 0 4)).hostOp = some (.ifNe 0 2 0 4) ∧ (hostState .stop).hostOp = some .stop ∧
    (hostState (.lmw 64 1)).hostOp = some (.lmw 64 1) ∧ (hostState (.lmr 6 1)).hostOp = some (.lmr 6 1) ∧
    State.reset.hostOp = none ∧ State.reset.phase = .idle ∧ Cells.wf State.reset.temps = true := by decide

/-- Byte accesses in the IDLE phase: the limb 5 at 0x814 and the last register at 0x7F8; an answer and a host fault. -/
theorem witness_HostOperationsWhileIdle_bytes :
    let bytes : List Byte := [1, 0, 0, 0]
    (hostState (.busr 0x814 4 1)).hostOp = some (.busr 0x814 4 1) ∧
    busRead? (hostState (.busr 0x814 4 1)).cfg 0x814 4 = some (.lmRead 5) ∧
    (hostState (.busw 0x814 bytes)).hostOp = some (.busw 0x814 bytes) ∧
    busWrite? (hostState (.busw 0x814 bytes)).cfg 0x814 bytes = some (.lmWrite 5 1) ∧
    busRead? (hostState .stop).cfg 0x7F8 8 = some (.csrRead 255) ∧
    transact (.lmRead 5) (hostState .stop) = .ok (hostState .stop, 7) ∧
    transact (.lmRead 6) (hostState .stop) = .error (.neverWritten 6) :=
  ⟨by decide, by decide, by decide, by decide, by decide, rfl, rfl⟩

/-- 20_memory.md R61: a word write at LM_BASE + 4 * 5 sets limb 5 and no other, and the host moves on. -/
theorem test_byte_write_sets_limb :
    (match step (hostState (.busw 0x814 [0x78, 0x56, 0x34, 0x12])) with
     | .next t => (t.limb? 5, t.limb? 6, t.hostPc) | _ => (none, none, 0)) = (some 0x12345678, none, 1) := by decide

/-- A command that raises: SHL_SUB by 0 (EBITS). -/
theorem witness_FailingCommandIsPrecise :
    ∃ t, exec .shlSub (twoLimbs 0x22 8 0 0) = .next t ∧ t.ecode ≠ 0 ∧ t.ecode.toNat = 8 := ⟨_, rfl, by decide, by decide⟩

theorem witness_ReportedCodesAreThoseOfTheTable :
    ∃ t, exec .mullo { twoLimbs 0x51 8 0 0 with ylen := 1 } = .next t ∧ t.ecode ≠ 0 ∧ t.ecode.toNat = 5 :=
  ⟨_, rfl, by decide, by decide⟩

theorem witness_PowerOnValues : 1 ≤ 1 ∧ 1 ≤ 255 ∧ 255 ≤ 255 := by decide

theorem witness_SigbitsAndTrimmedLength : 0 < LimbWidth.w32.bits := by decide

/-- x = 4, 5, 6 and 7 with b = 2: nothing lost, less than half, a tie, more than half. -/
theorem witness_RoundingLaws :
    4 % 2 ^ 2 = 0 ∧ (5 % 2 ^ 2 ≠ 0 ∧ 2 * (5 % 2 ^ 2) < 2 ^ 2) ∧ (6 % 2 ^ 2 ≠ 0 ∧ 2 * (6 % 2 ^ 2) = 2 ^ 2) ∧
    (7 % 2 ^ 2 ≠ 0 ∧ 2 * (7 % 2 ^ 2) > 2 ^ 2) := by decide

theorem witness_NoLimbOutsideTheDestinationIsWritten :
    let s := twoLimbs 0x20 8 33 0
    (∃ t, exec .shl s = .next t ∧ t.ecode = 0) ∧ 31 < destBase (rowOf .shl).dest s ∧
      destBase (rowOf .shl).dest s + destCap (rowOf .shl).dest s ≤ 40 := ⟨⟨_, rfl, by decide⟩, by decide, by decide⟩

/-- SHL in two states that differ in Y and ARG1. -/
theorem witness_UnusedRegistersDoNotMatter :
    let s := twoLimbs 0x20 8 33 0
    let s' := { s with ybase := 99, ylen := 99, arg1 := 5 }
    SameInputs .shl s s' ∧ s ≠ s' := by
  refine ⟨⟨rfl, rfl, rfl, fun _ => ⟨rfl, rfl⟩, fun h => ?_, fun _ => ⟨rfl, rfl⟩, fun _ => rfl, fun _ => rfl, fun h => ?_⟩, by decide⟩
  · exact absurd h (by decide)
  · exact absurd h (by decide)

/-- X with its second limb never written, and Y with its second limb never written. -/
theorem witness_NeverWrittenOperandFaults :
    let s := busyState 0x19 [(0, 1#64), (16, 1#64)] 0 2 16 2 32 8 0 0
    let s' := busyState 0x19 [(0, 1#64), (16, 1#64)] 0 1 16 2 32 8 0 0
    Instr.wellFormed .xor = true ∧ regionsInLm (rowOf .xor) s = true ∧ (rowOf .xor).readsX = true ∧
    1 < s.xlen.toNat ∧ s.limb? (s.xbase.toNat + 1) = none ∧
    (∀ k, k < 1 → (s.limb? (s.xbase.toNat + k)).isSome = true) ∧
    regionsInLm (rowOf .xor) s' = true ∧ (rowOf .xor).readsY = true ∧
    (∀ k, k < s'.xlen.toNat → (s'.limb? (s'.xbase.toNat + k)).isSome = true) ∧
    1 < s'.ylen.toNat ∧ s'.limb? (s'.ybase.toNat + 1) = none ∧
    (∀ k, k < 1 → (s'.limb? (s'.ybase.toNat + k)).isSome = true) := by decide

/-- Limb 6 was never written: read as a limb, and as bytes at LM_BASE + 4 * 6. -/
theorem witness_NeverWrittenOperandFaults_host :
    6 < (hostState (.lmr 6 0)).cfg.lmLimbs ∧ (hostState (.lmr 6 0)).limb? 6 = none ∧
    (hostState (.lmr 6 0)).phase = .idle ∧ (hostState (.lmr 6 0)).hostOp = some (.lmr 6 0) ∧
    (hostState (.busr 0x818 4 0)).hostOp = some (.busr 0x818 4 0) ∧
    busRead? (hostState (.busr 0x818 4 0)).cfg 0x818 4 = some (.lmRead 6) := by decide

theorem witness_OnlyGoWakesTheEngine :
    ∃ t, (hostState (.csrw 1 1)).phase = .idle ∧ step (hostState (.csrw 1 1)) = .next t ∧ t.phase = .busy :=
  ⟨_, rfl, rfl, rfl⟩

theorem witness_NothingMovesWhileBusy :
    let s := { hostState (.csrw 4 1) with phase := .busy, delay := 2 }
    ∃ t, s.phase = .busy ∧ step s = .next t ∧ t.phase = .busy := ⟨_, rfl, rfl, rfl⟩

theorem witness_EveryCommandFinishes :
    ({ hostState (.csrr 2 0) with phase := .busy, delay := 2 } : State).phase = .busy := by decide

/-- EADDR: an X region, a Y region and a destination that end just past LM; none of them is `Inside`. -/
theorem witness_Follows_outside :
    (∀ h ∈ [Shape.out true false, Shape.out true true, Shape.ipl true false, Shape.ipl true true, Shape.self true false,
        Shape.either true true],
      ¬ Inside h (busyState 0 [] 63 2 16 2 32 8 0 0)) ∧
    ¬ Inside (.out true true) (busyState 0 [] 0 2 63 2 32 8 0 0) ∧
    ¬ Inside (.out true true) (busyState 0 [] 0 2 16 2 57 8 0 0) := by
  refine ⟨?_, by decide, by decide⟩
  simp only [List.mem_cons, List.not_mem_nil, or_false, forall_eq_or_imp, forall_eq]
  decide

theorem witness_NopCompletes :
    Ready ⟨false, false, fun _ => 0, fun _ => 0⟩ (busyState 0 [] 99 99 99 99 99 99 0 0) 0 0 ∧ 0 ≤ 0 ∧
    (busyState 0x1F00 [] 0 0 0 0 0 0 0 0).engineMoves = true ∧ cmdOp (busyState 0x1F00 [] 0 0 0 0 0 0 0 0).cmd = 0 ∧
    2 ^ 12 ≤ (busyState 0x1F00 [] 0 0 0 0 0 0 0 0).cmd.toNat := by decide

/-- Equal lengths that just fit and just do not, and lengths that differ. -/
theorem witness_SameLengthLogic :
    (Ready (.out true true) (twoLimbs 0 2 0 0) xTwo yTwo ∧ 2 ≤ 2) ∧
    (Ready (.out true true) (twoLimbs 0 1 0 0) xTwo yTwo ∧ 1 < 2) ∧
    (let s := { twoLimbs 0 2 0 0 with ylen := 1 }
     Ready (.out true true) s xTwo 3 ∧ s.xlen ≠ s.ylen) := by decide

theorem witness_GeneralAndInPlaceLeftLogic :
    Ready (.out true true) (twoLimbs 0 2 0 0) xTwo yTwo ∧ Ready (.out true true) (twoLimbs 0 1 0 0) xTwo yTwo ∧
    Ready (.ipl true true) (twoLimbs 0 2 0 0) xTwo yTwo ∧ Ready (.ipl true true) (twoLimbs 0 1 0 0) xTwo yTwo ∧
    (twoLimbs 0 2 0 0).ocap.toNat = 2 ∧ (twoLimbs 0 1 0 0).ocap.toNat < max 2 2 := by decide

/-- A tie, and Y longer than X. -/
theorem witness_InPlaceEitherLogic :
    Ready (.either true true) (twoLimbs 0 0 0 0) xTwo yTwo ∧
    Ready (.either true true) { twoLimbs 0 0 0 0 with xlen := 1 } 0x80000001 yTwo := by decide

/-- bits = 33: q = 1, r = 1, c = 1, L = 4. -/
theorem witness_ShlMultipliesByAPowerOfTwo :
    xTwo * 2 ^ 1 / 2 ^ 64 = 1 ∧
    (Ready (.out true false) (twoLimbs 0 4 33 0) xTwo 0 ∧ 2 + 1 + 1 ≤ (twoLimbs 0 4 33 0).ocap.toNat) ∧
    (Ready (.out true false) (twoLimbs 0 3 33 0) xTwo 0 ∧ (twoLimbs 0 3 33 0).ocap.toNat < 2 + 1 + 1) ∧
    Ready (.ipl true false) (twoLimbs 0 4 33 0) xTwo 0 ∧ Ready (.ipl true false) (twoLimbs 0 3 33 0) xTwo 0 := by decide

/-- Counts 1 and W-1 run; counts 0 and W raise EBITS. -/
theorem witness_SubLimbLeftShifts :
    (∀ k ∈ [0, 1, 31, 32], Ready (.self true false) (twoLimbs 0 2 k 0) xTwo 0 ∧
      Ready (.out true false) (twoLimbs 0 2 k 0) xTwo 0) ∧
    Ready (.out true false) (twoLimbs 0 1 1 0) xTwo 0 ∧ (twoLimbs 0 1 1 0).ocap.toNat < 2 := by decide

theorem witness_ShrDividesByAPowerOfTwo :
    (Ready (.out true false) (twoLimbs 0 1 36 0) xTwo 0 ∧ 2 - 36 / 32 ≤ (twoLimbs 0 1 36 0).ocap.toNat) ∧
    (Ready (.out true false) (twoLimbs 0 0 36 0) xTwo 0 ∧ (twoLimbs 0 0 36 0).ocap.toNat < 2 - 36 / 32) ∧
    Ready (.self true false) (twoLimbs 0 0 36 0) xTwo 0 := by decide

theorem witness_SubLimbRightShift :
    ∀ k ∈ [0, 1, 31, 32], Ready (.self true false) (twoLimbs 0 2 k 0) xTwo 0 := by decide

theorem witness_ModpKeepsLowBits :
    (Ready (.out true false) (twoLimbs 0 2 33 0) xTwo 0 ∧ min 2 ((33 + 32 - 1) / 32) = 2) ∧
    Ready (.out true false) (twoLimbs 0 1 33 0) xTwo 0 := by decide

theorem witness_NegmodpNegatesLowBits :
    (Ready (.out true false) (twoLimbs 0 3 70 0) xTwo 0 ∧ (70 + 32 - 1) / 32 = 3) ∧
    Ready (.out true false) (twoLimbs 0 2 70 0) xTwo 0 := by decide

/-- Inexact with Exact, a round-up that fits its two limbs, and one limb of room too few. -/
theorem witness_ShrRoundRounds :
    (Ready (.out true false) (twoLimbs 0x132 2 1 0) xTwo 0 ∧ specRound xTwo 1 .up false = some (xTwo / 2 + 1)) ∧
    Ready (.out true false) (twoLimbs 0x132 1 1 0) xTwo 0 ∧ specRound xTwo 1 .exact false = none := by decide

theorem witness_RtmRoundsToAMultiple :
    (Ready (.out true false) (twoLimbs 0x133 3 64 0) xTwo 0 ∧ specRound xTwo 64 .up false = some 1 ∧
      max 2 (nlen 32 (1 * 2 ^ 64)) = 3) ∧
    Ready (.out true false) (twoLimbs 0x133 2 64 0) xTwo 0 ∧ specRound xTwo 64 .exact false = none := by decide

theorem witness_TwosNegatesASlice :
    Ready (.out true false) (twoLimbs 0 2 0 0) xTwo 0 ∧ Ready (.out true false) (twoLimbs 0 1 0 0) xTwo 0 := by decide

/-- Both non-zero; an empty operand; a zero operand. -/
theorem witness_XorOfTwoNegatives :
    (∀ h ∈ [0, 1, 2], Ready (.out true true) (twoLimbs 0 h 0 0) xTwo yTwo ∧
      Ready (.ipl true true) (twoLimbs 0 h 0 0) xTwo yTwo) ∧
    Ready (.either true true) (twoLimbs 0 0 0 0) xTwo yTwo ∧
    Ready (.out true true) { twoLimbs 0 2 0 0 with xlen := 0 } 0 yTwo ∧
    Ready (.out true true) { twoLimbs 0 2 0 0 with xbase := 8, lm := [(8, 0#64), (9, 0#64), (16, 3#64), (17, 1#64)] }
      0 yTwo := by decide

/-- The + 1 carries out into a third limb; an empty and a zero Y. -/
theorem witness_XorOfPositiveAndNegative :
    let ones : State := { twoLimbs 0 3 0 0 with lm := [(0, 0xFFFFFFFF#64), (1, 0xFFFFFFFF#64), (16, 1#64), (17, 0#64)] }
    (Ready (.out true true) ones (2 ^ 64 - 1) 1 ∧ ¬ ((2 ^ 64 - 1) ^^^ (1 - 1)) + 1 < 2 ^ (32 * 2)) ∧
    Ready (.out true true) { ones with ocap := 2 } (2 ^ 64 - 1) 1 ∧
    Ready (.out true true) { ones with ylen := 0 } (2 ^ 64 - 1) 0 ∧
    Ready (.out true true) { ones with ybase := 17, ylen := 1 } (2 ^ 64 - 1) 0 := by decide

theorem witness_XorWithAOneLimbNegative :
    Ready (.out true false) (twoLimbs 0 2 0 5) xTwo 0 ∧ Ready (.out true false) (twoLimbs 0 1 0 5) xTwo 0 ∧
    (Ready (.out true false) (twoLimbs 0 2 0 (2 ^ 32)) xTwo 0 ∧ 2 ^ 32 % 2 ^ 32 = 0) ∧
    Ready (.out true false) { twoLimbs 0 2 0 5 with xlen := 0 } 0 0 := by decide

theorem witness_GetbOfAPositive :
    Ready (.out true false) (twoLimbs 0 1 28 40) xTwo 0 ∧ Ready (.out true false) (twoLimbs 0 0 28 40) xTwo 0 ∧
    (Ready (.out true false) (twoLimbs 0 1 9 8) xTwo 0 ∧ 9 > 8) := by decide

theorem witness_GetbOfANegative :
    Ready (.out true false) (twoLimbs 0 1 28 40) xTwo 0 ∧ Ready (.out true false) (twoLimbs 0 0 28 40) xTwo 0 ∧
    Ready (.out true false) (twoLimbs 0 1 9 8) xTwo 0 ∧ Ready (.out true false) { twoLimbs 0 1 9 8 with xlen := 0 } 0 0 ∧
    Ready (.out true false) { twoLimbs 0 1 9 8 with lm := [(0, 0#64), (1, 0#64)] } 0 0 := by decide

theorem witness_AsgbOnAPositive :
    (Ready (.ipl true true) (twoLimbs 0 3 64 72) xTwo yTwo ∧
      max 2 (nlen 32 (xTwo - xTwo % 2 ^ 72 + xTwo % 2 ^ 64 + yTwo % 2 ^ 8 * 2 ^ 64)) = 3) ∧
    Ready (.ipl true true) (twoLimbs 0 2 64 72) xTwo yTwo ∧ Ready (.ipl true true) (twoLimbs 0 2 9 8) xTwo yTwo := by
  decide

theorem witness_AsgbOnANegative :
    Ready (.ipl true true) (twoLimbs 0 3 64 72) xTwo yTwo ∧ Ready (.ipl true true) (twoLimbs 0 2 64 72) xTwo yTwo ∧
    Ready (.ipl true true) (twoLimbs 0 2 9 8) xTwo yTwo ∧
    Ready (.ipl true true) { twoLimbs 0 2 9 8 with xlen := 0 } 0 yTwo ∧
    Ready (.ipl true true) { twoLimbs 0 2 9 8 with xbase := 8, lm := [(8, 0#64), (9, 0#64), (16, 3#64), (17, 1#64)] }
      0 yTwo := by decide

theorem witness_MulIsTheFullProduct :
    Ready (.out true true) (twoLimbs 0 4 0 0) xTwo yTwo ∧ Ready (.out true true) (twoLimbs 0 3 0 0) xTwo yTwo := by decide

theorem witness_MulloIsTheLowHalf :
    Ready (.out true true) (twoLimbs 0 2 0 0) xTwo yTwo ∧ Ready (.out true true) (twoLimbs 0 1 0 0) xTwo yTwo ∧
    Ready (.out true true) { twoLimbs 0 2 0 0 with ylen := 1 } xTwo 3 := by decide

/-- pow = 64 admits both operands; pow = 63 does not admit x. -/
theorem witness_ModpmulReducesTheProduct :
    (Ready (.out true true) (twoLimbs 0 2 64 0) xTwo yTwo ∧ ¬ (xTwo ≥ 2 ^ 64 ∨ yTwo ≥ 2 ^ 64)) ∧
    Ready (.out true true) (twoLimbs 0 1 64 0) xTwo yTwo ∧
    (Ready (.out true true) (twoLimbs 0 2 63 0) xTwo yTwo ∧ xTwo ≥ 2 ^ 63) := by decide

/-- A residue that is not 0, one that is, and each of the checks. -/
theorem witness_MulmodBnm1IsAResidue :
    (Ready (.out true true) (twoLimbs 0 2 2 0) xTwo yTwo ∧ xTwo * yTwo % (2 ^ (32 * 2) - 1) ≠ 0) ∧
    (let s : State := { twoLimbs 0 1 1 0 with xlen := 1, ylen := 1, lm := [(0, 0xFFFFFFFF#64), (16, 1#64)] }
     Ready (.out true true) s (2 ^ 32 - 1) 1 ∧ (2 ^ 32 - 1) * 1 % (2 ^ (32 * 1) - 1) = 0 ∧ 1 ≤ s.ocap.toNat) ∧
    Ready (.out true true) (twoLimbs 0 1 2 0) xTwo yTwo ∧
    Ready (.out true true) { twoLimbs 0 2 2 0 with ylen := 0 } xTwo 0 ∧
    Ready (.out true true) { twoLimbs 0 2 2 0 with xlen := 1 } 0x80000001 yTwo ∧
    Ready (.out true true) (twoLimbs 0 2 0 0) xTwo yTwo := by decide

theorem witness_MulmodBnp1IsTheCanonicalResidue :
    Ready (.out true true) (twoLimbs 0 3 2 0) xTwo yTwo ∧ Ready (.out true true) (twoLimbs 0 2 2 0) xTwo yTwo ∧
    Ready (.out true true) { twoLimbs 0 2 2 0 with ylen := 0 } xTwo 0 ∧
    Ready (.out true true) { twoLimbs 0 2 2 0 with xlen := 1 } 0x80000001 yTwo ∧
    Ready (.out true true) (twoLimbs 0 2 0 0) xTwo yTwo := by decide

theorem witness_ShrAfterShlGivesXBack :
    let s := twoLimbs 0x20 4 33 0
    ∃ t, Holds s s.xbase.toNat s.xlen.toNat xTwo ∧ exec .shl s = .next t ∧ t.ecode = 0 ∧
      (48#64).toNat + (3#64).toNat ≤ s.cfg.lmLimbs ∧ t.rlen.toNat - s.arg0.toNat / s.w ≤ (3#64).toNat :=
  ⟨_, by decide, rfl, by decide, by decide, by decide⟩

/-- The vector V78 (pivots 0 and 2), the same with the operands swapped (pivots 2 and 0), and equal pivots (1 and 1). -/
theorem witness_XorOfTwoNegativesLimbByLimb :
    (let s := busyState 0x41 [(0, 3#64), (16, 0#64), (17, 0#64), (18, 1#64)] 0 1 16 3 32 8 0 0
     ∃ t, Operand (.out true true) s 3 (2 ^ 64) ∧ exec .xorNn s = .next t ∧ t.ecode = 0 ∧
      2 < max s.xlen.toNat s.ylen.toNat) ∧
    (let s := busyState 0x41 [(0, 3#64), (16, 0#64), (17, 0#64), (18, 1#64)] 16 3 0 1 32 8 0 0
     ∃ t, Operand (.out true true) s (2 ^ 64) 3 ∧ exec .xorNn s = .next t ∧ t.ecode = 0 ∧
      2 < max s.xlen.toNat s.ylen.toNat) ∧
    (3 / (2 ^ 32) ^ 0 % 2 ^ 32 ≠ 0 ∧ 2 ^ 64 / (2 ^ 32) ^ 2 % 2 ^ 32 ≠ 0 ∧
      ∀ j, j < 2 → 2 ^ 64 / (2 ^ 32) ^ j % 2 ^ 32 = 0) ∧
    (let s := busyState 0x41 [(0, 0#64), (1, 5#64), (16, 0#64), (17, 9#64)] 0 2 16 2 32 8 0 0
     ∃ t, Operand (.out true true) s (5 * 2 ^ 32) (9 * 2 ^ 32) ∧ exec .xorNn s = .next t ∧ t.ecode = 0 ∧
      1 < max s.xlen.toNat s.ylen.toNat) ∧
    (5 * 2 ^ 32 / (2 ^ 32) ^ 1 % 2 ^ 32 ≠ 0 ∧ 9 * 2 ^ 32 / (2 ^ 32) ^ 1 % 2 ^ 32 ≠ 0 ∧
      ∀ j, j < 1 → 5 * 2 ^ 32 / (2 ^ 32) ^ j % 2 ^ 32 = 0 ∧ 9 * 2 ^ 32 / (2 ^ 32) ^ j % 2 ^ 32 = 0) :=
  ⟨⟨_, by decide, rfl, by decide, by decide⟩, ⟨_, by decide, rfl, by decide, by decide⟩, by decide,
    ⟨_, by decide, rfl, by decide, by decide⟩, by decide⟩

/-- x = 0x100 (8 trailing zeros) with a window in each of the cases of R184. -/
theorem witness_GetbOfANegativeThreeCases :
    ∀ p ∈ [(0, 8), (32, 72), (8, 16), (9, 16)],
      let s := busyState 0x48 [(0, 0x100#64)] 0 1 16 0 32 8 p.1 p.2
      (Holds s s.xbase.toNat s.xlen.toNat 0x100 ∧ 0x100 % 2 ^ 8 = 0 ∧ 0x100 / 2 ^ 8 % 2 = 1) ∧
      resultOf (exec .getbN s) = some ((p.2 - p.1 + 31) / 32, 0, 2) := by decide

/-! ### The statement about decoding, of some of its own words -/

theorem test_care_mask : (0xF19#64 &&& Instr.careMask .xor) = encode .xor ∧ decode 0xF19#64 = .ok .xor := by decide

end Sys2Proof.Tests
end

section
/-!
PROOFS. The register file, said once per number and phase: what ID, CTRL and STATUS read as, bit by bit, what a write to
them does, and that no step changes the parameters (10_state.md R21 to R23, R32, R35, R36; 00_scope.md R5 to R7).
-/
namespace Sys2Proof.Machine

/-! ### What ID, CTRL and STATUS read as -/

@[simp] theorem csrValue_id (s : State) : csrValue 0 s = s.idWord := rfl
@[simp] theorem csrValue_ctrl (s : State) : csrValue 1 s = s.ctrlWord := rfl
@[simp] theorem csrValue_status (s : State) : csrValue 2 s = s.statusWord := rfl

/-- LM_LIMBS has 32 bits (00_scope.md R6), so no field of ID runs over the 64 bits of the register. -/
theorem State.idWord_toNat {s : State} (h : s.cfg.wf) :
    s.idWord.toNat = s.w + 2 ^ 8 * 1 + 2 ^ 32 * s.cfg.lmLimbs := by
  have hw : s.w ≤ 64 := s.w_le
  obtain ⟨-, hlm⟩ := h
  rw [State.idWord, BitVec.toNat_ofNat]
  exact Nat.mod_eq_of_lt (by simp only [State.w] at hw; omega)

/-- A field of ID is a digit of the number ID stands for (10_state.md R21). -/
theorem State.idWord_field {s : State} (h : s.cfg.wf) (lo n : Nat) :
    (s.idWord.extractLsb' lo n).toNat = (s.w + 2 ^ 8 * 1 + 2 ^ 32 * s.cfg.lmLimbs) / 2 ^ lo % 2 ^ n := by
  rw [BitVec.extractLsb'_toNat, State.idWord_toNat h, Nat.shiftRight_eq_div_pow]

/-- ID depends on the parameters alone (10_state.md R21). -/
theorem State.idWord_congr {s t : State} (h : t.cfg = s.cfg) : t.idWord = s.idWord := by
  rw [State.idWord, State.idWord, h]

@[simp] theorem getElem_flagBit (b : Bool) (k : Nat) {i : Nat} (h : i < 64) :
    (flagBit b k)[i] = (b && decide (k = i)) := by
  cases b with
  | false => simp [flagBit]
  | true =>
    rw [← BitVec.getLsbD_eq_getElem, flagBit, if_pos rfl, BitVec.getLsbD_ofNat, Nat.testBit_two_pow]
    simp [h]

@[simp] theorem State.ctrlWord_ien (s : State) : s.ctrlWord[2] = s.ien := by simp [State.ctrlWord]

@[simp] theorem State.statusWord_done (s : State) : s.statusWord[1] = s.done := by simp [State.statusWord]

/-! ### What a write to ID, CTRL and STATUS does -/

theorem csrWrite_id_idle {s : State} (h : s.phase = .idle) (v : Word) : csrWrite 0 v s = s := by
  simp [csrWrite, csrOf, h, writeIdle]

theorem csrWrite_status (v : Word) (s : State) : csrWrite 2 v s = writeStatus v s := by
  cases h : s.phase <;> simp [csrWrite, csrOf, h, writeIdle, writeBusy]

/-- A CTRL write with SRST is the soft reset in both phases (10_state.md R22, R36). -/
theorem csrWrite_ctrl_srst {v : Word} (hv : v.getLsbD 1 = true) (s : State) : csrWrite 1 v s = softReset s := by
  have hsrst : srstBit v = true := hv
  cases h : s.phase with
  | idle => simp [csrWrite, csrOf, h, writeIdle, writeCtrlIdle, hsrst]
  | busy => simp [csrWrite, csrOf, h, writeBusy, writeCtrlBusy, hsrst]

/-- A CTRL write with neither pulse stores IEN in both phases (10_state.md R35, R36). -/
theorem csrWrite_ctrl_ien {v : Word} (hg : v.getLsbD 0 = false) (hv : v.getLsbD 1 = false) (s : State) :
    csrWrite 1 v s = { s with ien := v.getLsbD 2 } := by
  have hgo : goBit v = false := hg
  have hsrst : srstBit v = false := hv
  cases h : s.phase with
  | idle => simp [csrWrite, csrOf, h, writeIdle, writeCtrlIdle, hgo, hsrst, ienBit]
  | busy => simp [csrWrite, csrOf, h, writeBusy, writeCtrlBusy, hgo, hsrst, ienBit]

@[simp] theorem softReset_ien (s : State) : (softReset s).ien = false := by unfold softReset; split <;> rfl
@[simp] theorem softReset_done (s : State) : (softReset s).done = false := by unfold softReset; split <;> rfl

/-! ### No step changes the parameters -/

theorem transact_cfg {tr : Transaction} {s t : State} {v : Word} (h : transact tr s = .ok (t, v)) : t.cfg = s.cfg := by
  rcases transact_cases h with ⟨n, -, -, rfl, -⟩ | ⟨n, u, -, -, rfl, -⟩ | ⟨i, l, -, -, -, rfl, -⟩ |
    ⟨i, u, -, -, rfl, -⟩
  · rfl
  · exact (csrWrite_host n u s).1
  · rfl
  · rfl

theorem hostWrite_cfg {tr : Transaction} {s t : State} (h : hostWrite tr s = .next t) : t.cfg = s.cfg := by
  obtain ⟨u, v, hu, rfl⟩ := hostWrite_next h
  rw [State.advance_cfg, transact_cfg hu]

theorem hostRead_cfg {tr : Transaction} {k : Nat} {s t : State} (h : hostRead tr k s = .next t) : t.cfg = s.cfg := by
  obtain ⟨u, v, hu, rfl⟩ := hostRead_next h
  rw [State.advance_cfg, State.setTemp_cfg, transact_cfg hu]

theorem hostBranch_cfg {taken : Bool} {target : Nat} {s t : State} (h : hostBranch taken target s = .next t) :
    t.cfg = s.cfg := by
  cases taken <;> cases h <;> rfl

theorem hostPerform_cfg {op : HostOp} {s t : State} (h : hostPerform op s = .next t) : t.cfg = s.cfg := by
  cases op with
  | csrw n v => exact hostWrite_cfg h
  | csrr n k => exact hostRead_cfg h
  | lmw i v => exact hostWrite_cfg h
  | lmr i k => exact hostRead_cfg h
  | busw addr bytes =>
    simp only [hostPerform] at h
    split at h
    · exact hostWrite_cfg h
    · cases h
  | busr addr width k =>
    simp only [hostPerform] at h
    split at h
    · exact hostRead_cfg h
    · cases h
  | ifEq k m u target => exact hostBranch_cfg h
  | ifNe k m u target => exact hostBranch_cfg h
  | stop => cases h; rfl

theorem hostStep_cfg {s t : State} (h : hostStep s = .next t) : t.cfg = s.cfg := by
  unfold hostStep at h
  split at h
  · cases h; rfl
  · exact (hostPerform_cfg h).trans s.tick_cfg

/-- No step changes the parameters (00_scope.md R5 to R7; log 1). -/
theorem step_cfg {s t : State} (h : step s = .next t) : t.cfg = s.cfg := by
  unfold step at h
  split at h
  · rw [engineStep_frame h]
  · exact hostStep_cfg h

/-! ### The statements of 10_state.md about ID and IRQ -/

/-- Settles O8: the fields are digits of one number below 2^64, and ID depends on the parameters alone, which no step
changes. -/
theorem idRegisterIsFixed : Obligations.IdRegisterIsFixed := by
  intro s hcfg
  have hw : s.w ≤ 64 := s.w_le
  have hlm : s.cfg.lmLimbs ≤ 2 ^ 32 - 1 := hcfg.2
  refine ⟨?width, BitVec.eq_of_toNat_eq ?version, BitVec.eq_of_toNat_eq ?zero, ?limbs,
    fun v h => csrWrite_id_idle h v, fun t h => State.idWord_congr (step_cfg h)⟩ <;>
    rw [csrValue_id, State.idWord_field hcfg]
  case width => omega
  case version => change _ = 1; omega
  case zero => change _ = 0; omega
  case limbs => omega

/-- Settles O15: each clause gives DONE and IEN after the operation, whose conjunction is IRQ. -/
theorem interruptLine : Obligations.InterruptLine := by
  intro s
  refine ⟨?value, fun i t h => ?command, fun v hg hv => ?ctrl, fun v hv => ⟨?status, ?softReset⟩, fun c => rfl⟩
  case value => simp [State.irq]
  case command => rw [exec_frame h]; simp [State.irq]
  case ctrl => rw [csrWrite_ctrl_ien hg hv]; rfl
  case status => simp [State.irq, csrWrite_status, hv]
  case softReset => simp [State.irq, csrWrite_ctrl_srst hv]

end Sys2Proof.Machine
end

section
/-!
PROOFS. The limb memory as the host and the commands write it: what each transaction answers and faults with, what an IDLE
step makes of a host operation, and that a command writes no limb outside its destination (20_memory.md R60, R63, R67).
-/
namespace Sys2Proof.Machine

/-! ### What each transaction answers (20_memory.md R60) -/

theorem transact_csrRead {n : Nat} (h : n ≤ 255) (s : State) : transact (.csrRead n) s = .ok (s, csrValue n s) :=
  if_pos h

theorem transact_csrWrite {n : Nat} (h : n ≤ 255) (v : Word) (s : State) :
    transact (.csrWrite n v) s = .ok (csrWrite n v s, 0) := if_pos h

theorem transact_lmRead {s : State} {i v : Nat} (h : i < s.cfg.lmLimbs) (hv : s.limb? i = some v) :
    transact (.lmRead i) s = .ok (s, BitVec.ofNat 64 v) := by
  simp [transact, h, hv]

theorem transact_lmWrite {s : State} {i : Nat} (h : i < s.cfg.lmLimbs) (v : Word) :
    transact (.lmWrite i v) s = .ok ({ s with lm := Memory.setLimb s.w s.lm i v.toNat }, 0) := if_pos h

theorem transact_csrRead_busError {n : Nat} (h : 255 < n) (s : State) :
    transact (.csrRead n) s = .error (.busErrorCsr n) := if_neg (not_le.2 h)

theorem transact_csrWrite_busError {n : Nat} (h : 255 < n) (v : Word) (s : State) :
    transact (.csrWrite n v) s = .error (.busErrorCsr n) := if_neg (not_le.2 h)

theorem transact_lmRead_busError {s : State} {i : Nat} (h : s.cfg.lmLimbs ≤ i) :
    transact (.lmRead i) s = .error (.busErrorLm i) := if_neg (not_lt.2 h)

theorem transact_lmWrite_busError {s : State} {i : Nat} (h : s.cfg.lmLimbs ≤ i) (v : Word) :
    transact (.lmWrite i v) s = .error (.busErrorLm i) := if_neg (not_lt.2 h)

/-! ### A host operation in the IDLE phase -/

/-- In the IDLE phase the engine does not move, so the step is the host's next operation (20_memory.md R73). -/
theorem step_eq_hostPerform {s : State} {op : HostOp} (h : s.phase = .idle) (ho : s.hostOp = some op) :
    step s = hostPerform op s := by
  have hm : s.engineMoves = false := by simp [State.engineMoves, State.busy, h]
  simp [step, hm, hostStep, ho, State.tick_idle h]

/-- A transaction that faults stops a host write (60_exceptions.md R227). -/
theorem hostWrite_fault {tr : Transaction} {s : State} {f : Fault} (h : transact tr s = .error f) :
    hostWrite tr s = .fault f := by
  simp [hostWrite, h]

/-- A transaction that faults stops a host read (60_exceptions.md R227). -/
theorem hostRead_fault {tr : Transaction} {s : State} {f : Fault} (h : transact tr s = .error f) (k : Nat) :
    hostRead tr k s = .fault f := by
  simp [hostRead, h]

/-! ### The limbs after a write, and after a command -/

/-- Read after write of a limb of a state (20_memory.md R60). -/
theorem State.limb?_setLimb (s : State) (i v k : Nat) :
    ({ s with lm := Memory.setLimb s.w s.lm i v } : State).limb? k = if k = i then some (v % 2 ^ s.w) else s.limb? k :=
  Memory.limb?_setLimb s.w_le _ _ _ _

@[simp] theorem State.limb?_completeError (s : State) (c : ErrorCode) (k : Nat) :
    (s.completeError c).limb? k = s.limb? k := rfl

/-- Commit writes the limbs of the region alone: result and tail both lie in it (20_memory.md R66, R67). -/
theorem State.limb?_commit_outside {s : State} {d cap : Nat} {r : CmdResult} (hl : r.len ≤ cap) {k : Nat}
    (hk : k < d ∨ d + cap ≤ k) : (s.commit d cap r).limb? k = s.limb? k := by
  rw [State.limb?_commit _ _ _ _ hl, if_neg (by omega), if_neg (by omega)]

/-- A command that answers a next state raised a code, or committed a result that fits its destination
(30_encoding.md R89). -/
theorem exec_next_cases {i : Instr} {s t : State} (h : exec i s = .next t) :
    (∃ c, t = s.completeError c) ∨
    ∃ r : CmdResult, r.len ≤ destCap (rowOf i).dest s ∧
      t = s.commit (destBase (rowOf i).dest s) (destCap (rowOf i).dest s) r := by
  cases hw : i.wellFormed with
  | false => rw [exec_of_illegal hw] at h; cases h; exact .inl ⟨_, rfl⟩
  | true =>
    rw [exec_eq_runCommand hw] at h
    rcases runCommand_cases (rowOf i) (ruleOf i) s with ⟨-, e⟩ | ⟨_, -, -, e⟩ | ⟨_, _, -, -, -, e⟩ |
      ⟨_, _, -, -, -, -, e⟩ | ⟨_, r, -, -, -, hl, e⟩ <;> rw [e] at h <;> cases h
    exacts [.inl ⟨_, rfl⟩, .inl ⟨_, rfl⟩, .inl ⟨_, rfl⟩, .inr ⟨r, hl, rfl⟩]

/-! ### The statements of 20_memory.md about transactions and destinations -/

/-- Settles O16: each transaction by its own equation, and in the IDLE phase a step performs the host's operation, which
stops where its transaction faults. -/
theorem hostTransactions : Obligations.HostTransactions := by
  intro s
  refine ⟨fun n h => transact_csrRead h s, fun n v h => transact_csrWrite h v s, fun i v h hv => transact_lmRead h hv,
    fun i v h => ⟨_, transact_lmWrite h v, rfl, ?written, fun k hk => ?others⟩,
    fun n v h => ⟨transact_csrRead_busError h s, transact_csrWrite_busError h v s⟩,
    fun i v h => ⟨transact_lmRead_busError h, transact_lmWrite_busError h v⟩,
    fun hp n k v => ⟨fun h ho => ?csrFault, fun h ho => ?lmFault⟩⟩
  case written => rw [State.limb?_setLimb, if_pos rfl]
  case others => rw [State.limb?_setLimb, if_neg hk]
  case csrFault =>
    rcases ho with ho | ho <;> rw [step_eq_hostPerform hp ho]
    · exact hostRead_fault (transact_csrRead_busError h s) k
    · exact hostWrite_fault (transact_csrWrite_busError h v s)
  case lmFault =>
    rcases ho with ho | ho <;> rw [step_eq_hostPerform hp ho]
    · exact hostRead_fault (transact_lmRead_busError h) k
    · exact hostWrite_fault (transact_lmWrite_busError h v)

/-- Settles O25: an error completion leaves LM alone, and Commit, which reports code 0, writes inside the region. -/
theorem noLimbOutsideTheDestinationIsWritten : Obligations.NoLimbOutsideTheDestinationIsWritten := by
  intro i s t h
  rcases exec_next_cases h with ⟨c, rfl⟩ | ⟨r, hl, rfl⟩
  · exact ⟨fun k _ => s.limb?_completeError c k, fun _ k => s.limb?_completeError c k⟩
  · exact ⟨fun k hk => State.limb?_commit_outside hl hk, fun he => absurd (State.commit_ecode ..) he⟩

end Sys2Proof.Machine
end

section
/-!
PROOFS. The command word: its fields as digits of the word's number, which words decode, which commands are ill-formed, and
which codes belong to the command word and to no rule (30_encoding.md R80 to R85, R88, R90).
-/
namespace Sys2Proof

/-! ### The fields of the command word (30_encoding.md R80) -/

theorem cmdOp_toNat (w : Word) : (cmdOp w).toNat = w.toNat % 2 ^ 8 := by simp [cmdOp]

theorem cmdRm_toNat (w : Word) : (cmdRm w).toNat = w.toNat / 2 ^ 8 % 2 ^ 3 := by
  rw [cmdRm, BitVec.extractLsb'_toNat, Nat.shiftRight_eq_div_pow]

/-- The reserved bits are those at and above bit 12. -/
theorem cmdReserved_eq_zero_iff (w : Word) : cmdReserved w = 0 ↔ w.toNat < 2 ^ 12 := by
  have hw : w.toNat < 2 ^ 64 := w.isLt
  rw [← BitVec.toNat_inj, cmdReserved, BitVec.extractLsb'_toNat, Nat.shiftRight_eq_div_pow]
  change w.toNat / 2 ^ 12 % 2 ^ 52 = 0 ↔ _
  omega

/-! ### What the decoder answers -/

/-- The reserved values of OP (30_encoding.md R81). -/
def ReservedOp (op : Nat) : Prop :=
  (0x01 ≤ op ∧ op ≤ 0x0F) ∨ (0x1C ≤ op ∧ op ≤ 0x1F) ∨ (0x27 ≤ op ∧ op ≤ 0x2F) ∨ (0x34 ≤ op ∧ op ≤ 0x3F) ∨
  (0x4B ≤ op ∧ op ≤ 0x4F) ∨ (0x55 ≤ op ∧ op ≤ 0xFF)

/-- The words of SHR_ROUND and RTM whose RM is 6 or 7 (30_encoding.md R83, R85). -/
def BadMode (w : Word) : Prop :=
  (w.toNat % 2 ^ 8 = 0x32 ∨ w.toNat % 2 ^ 8 = 0x33) ∧ (w.toNat / 2 ^ 8 % 2 ^ 3 = 6 ∨ w.toNat / 2 ^ 8 % 2 ^ 3 = 7)

/-- The opcode map lists every value of OP but the reserved ones. -/
theorem decodeOp_eq_none_iff (op : BitVec 8) (rm : RmField) (neg : Bool) :
    decodeOp op rm neg = none ↔ ReservedOp op.toNat := by
  have hop : op.toNat < 2 ^ 8 := op.isLt
  unfold decodeOp ReservedOp
  split
  case h_41 =>
    simp only [imp_false, true_iff] at *
    omega
  all_goals simp [*]

/-- The one check of R85 on a command the opcode map lists. -/
theorem wellFormed_of_decodeOp {op : BitVec 8} {rm : RmField} {neg : Bool} {i : Instr}
    (h : decodeOp op rm neg = some i) :
    i.wellFormed = false ↔ (op.toNat = 0x32 ∨ op.toNat = 0x33) ∧ rm.legal = false := by
  unfold decodeOp at h
  split at h <;> cases h <;> simp_all [Instr.wellFormed]

theorem decodeRm_legal_eq_false_iff (b : BitVec 3) : (decodeRm b).legal = false ↔ b.toNat = 6 ∨ b.toNat = 7 := by
  revert b
  decide

theorem decode_eq_reservedBits_iff (w : Word) : decode w = .error .reservedBits ↔ 2 ^ 12 ≤ w.toNat := by
  rw [← not_lt, ← cmdReserved_eq_zero_iff, decode]
  split
  · next h => split <;> simp [h]
  · next h => exact ⟨fun _ => h, fun _ => rfl⟩

theorem decode_eq_reservedOp_iff {w : Word} (h : w.toNat < 2 ^ 12) :
    decode w = .error .reservedOp ↔ ReservedOp (w.toNat % 2 ^ 8) := by
  rw [← cmdOp_toNat, ← decodeOp_eq_none_iff _ (decodeRm (cmdRm w)) (cmdNeg w), decode,
    if_pos ((cmdReserved_eq_zero_iff w).2 h)]
  split <;> simp [*]

theorem decode_eq_ok_iff {w : Word} (h : w.toNat < 2 ^ 12) (i : Instr) :
    decode w = .ok i ↔ decodeOp (cmdOp w) (decodeRm (cmdRm w)) (cmdNeg w) = some i := by
  rw [decode, if_pos ((cmdReserved_eq_zero_iff w).2 h)]
  split <;> simp [*]

/-- A word with no reserved bit set and no reserved OP stands for a command. -/
theorem exists_decode_eq_ok {w : Word} (h : w.toNat < 2 ^ 12) (hop : ¬ ReservedOp (w.toNat % 2 ^ 8)) :
    ∃ i, decode w = .ok i := by
  simp only [decode_eq_ok_iff h]
  rw [← cmdOp_toNat, ← decodeOp_eq_none_iff _ (decodeRm (cmdRm w)) (cmdNeg w)] at hop
  exact Option.ne_none_iff_exists'.1 hop

/-- A word decodes to an ill-formed command where its RM is one of the two reserved values and its OP reads RM. -/
theorem wellFormed_of_decode {w : Word} {i : Instr} (hw : w.toNat < 2 ^ 12) (h : decode w = .ok i) :
    i.wellFormed = false ↔ BadMode w := by
  rw [wellFormed_of_decodeOp ((decode_eq_ok_iff hw i).1 h), decodeRm_legal_eq_false_iff, cmdOp_toNat, cmdRm_toNat, BadMode]

theorem BadMode.not_reservedOp {w : Word} (h : BadMode w) : ¬ ReservedOp (w.toNat % 2 ^ 8) := by
  obtain ⟨hop, -⟩ := h
  unfold ReservedOp
  omega

end Sys2Proof

namespace Sys2Proof.Machine

/-! ### The engine step of a command word (30_encoding.md R88) -/

theorem step_eq_exec {s : State} {i : Instr} (hm : s.engineMoves = true) (h : decode s.cmd = .ok i) :
    step s = exec i s := by
  simp [step, hm, engineStep, h]

/-- A word that stands for no command raises EOPC. -/
theorem step_of_not_decoded {s : State} (hm : s.engineMoves = true) (h : ∀ i, decode s.cmd ≠ .ok i) :
    step s = .next (errorState s 1) := by
  rcases step_cases s with ⟨i, -, hd, -⟩ | ⟨_, -, -, hs⟩ | ⟨hm', -⟩
  · exact absurd hd (h i)
  · exact hs
  · simp [hm] at hm'

/-- A command that is not well-formed raises ERM. -/
theorem raises_erm_of_illegal {i : Instr} (h : i.wellFormed = false) (s : State) : Raises i s 2 := exec_of_illegal h s

/-! ### The codes EOPC and ERM belong to the command word (60_exceptions.md R221) -/

theorem ErrorCode.number_of_ne {c : ErrorCode} (h : c ≠ .eopc ∧ c ≠ .erm) : c.number ≠ 1 ∧ c.number ≠ 2 := by
  cases c <;> simp_all [ErrorCode.number]

/-- A well-formed command reports neither EOPC nor ERM: its codes are those of the straight line and of its rule. -/
theorem exec_ecode_of_wellFormed {i : Instr} {s t : State} (hw : i.wellFormed = true) (h : exec i s = .next t) :
    t.ecode ≠ 1 ∧ t.ecode ≠ 2 := by
  rw [exec_eq_runCommand hw] at h
  rcases runCommand_cases (rowOf i) (ruleOf i) s with ⟨-, e⟩ | ⟨_, -, -, e⟩ | ⟨_, c, -, -, hc, e⟩ |
    ⟨_, _, -, -, -, -, e⟩ | ⟨_, r, -, -, -, -, e⟩ <;> rw [e] at h <;> cases h
  · exact ErrorCode.number_of_ne (c := .eaddr) (by decide)
  · exact ErrorCode.number_of_ne (ruleOf_error hw hc)
  · exact ErrorCode.number_of_ne (c := .ecap) (by decide)
  · rw [State.commit_ecode]; decide

/-! ### The statements of 30_encoding.md about illegal words and NOP -/

/-- Settles O3: the reserved bits and the reserved OPs are read off the decoder, the reserved modes off the one check on a
decoded command; a well-formed command reports neither of the two codes. -/
theorem illegalWordsAreExactlyThese : Obligations.IllegalWordsAreExactlyThese := by
  refine ⟨decode_eq_reservedBits_iff, fun w hw => decode_eq_reservedOp_iff hw, fun w hw hop => ?decodes,
    fun s hm h => step_of_not_decoded hm h, fun s hm hw hb => ?erm, fun i s h => raises_erm_of_illegal h s,
    fun i s h => ⟨fun hr => (exec_ecode_of_wellFormed h hr).1 rfl, fun hr => (exec_ecode_of_wellFormed h hr).2 rfl⟩⟩
  case decodes =>
    obtain ⟨i, hi⟩ := exists_decode_eq_ok hw hop
    exact ⟨i, hi, wellFormed_of_decode hw hi⟩
  case erm =>
    obtain ⟨i, hi⟩ := exists_decode_eq_ok hw (BadMode.not_reservedOp hb)
    rw [step_eq_exec hm hi]
    exact raises_erm_of_illegal ((wellFormed_of_decode hw hi).2 hb) s

/-- Settles O32: NOP's rule answers the empty result, which fits the empty destination; a set reserved bit keeps its word
from decoding. -/
theorem nopCompletes : Obligations.NopCompletes := by
  refine ⟨follows_of_agrees rfl Laws.RoundTrip.nop.1 rfl rfl (fun _ => rfl) (fun _ => rfl) fun s x y _ _ => ?agrees,
    fun s hm _ hbits => step_of_not_decoded hm fun i hi => ?rejected⟩
  case agrees => exact ⟨fun h => absurd h (Nat.not_lt_zero _), fun _ => ⟨by simp, _, rfl, rfl, rfl, rfl⟩⟩
  case rejected =>
    rw [(decode_eq_reservedBits_iff s.cmd).2 hbits] at hi
    cases hi

end Sys2Proof.Machine
end

section
/-!
PROOFS. The logic unit: a bitwise operator never needs more limbs than its longer operand, so each form's rule answers what
the spec's rule answers, whatever the operator is (40_logic.md R100 to R112).
-/
namespace Sys2Proof.Machine

/-! ### Rows and shapes (30_encoding.md R87, 20_memory.md R63) -/

/-- A row of the operand table says of the operands and the destination what the spec's shape says. -/
structure Row.HasShape (r : Row) (h : Shape) : Prop where
  readsX : r.readsX = h.x
  readsY : r.readsY = h.y
  base   : ∀ s, destBase r.dest s = h.d s
  cap    : ∀ s, destCap r.dest s = h.cap s

theorem Row.hasShape_out (x y : Bool) : Row.HasShape ⟨x, y, .out⟩ (.out x y) := ⟨rfl, rfl, fun _ => rfl, fun _ => rfl⟩

theorem Row.hasShape_ipl (x y : Bool) : Row.HasShape ⟨x, y, .ipl⟩ (.ipl x y) := ⟨rfl, rfl, fun _ => rfl, fun _ => rfl⟩

/-- The longer of X and Y is written, so the capacity is the greater length. -/
theorem Row.hasShape_either (x y : Bool) : Row.HasShape ⟨x, y, .either⟩ (.either x y) :=
  ⟨rfl, rfl, fun _ => rfl, fun s => ((max_comm ..).trans (max_def s.ylen.toNat s.xlen.toNat)).symm⟩

/-- Where a command reads X and Y, the values its rule sees are those the two regions hold. -/
theorem operandsOf_of_readsBoth {i : Instr} {k : DestKind} (h : rowOf i = ⟨true, true, k⟩) (s : State) (x y : Nat) :
    operandsOf i s x y =
      { w := s.w, xl := s.xlen.toNat, yl := s.ylen.toNat, x := x, y := y, a0 := s.arg0.toNat, a1 := s.arg1.toNat
        cap := destCap k s, pick := Config.freePick s.draws } := by
  simp [operandsOf, h]

/-- A rule that answers a result agrees with the spec's answer of its length, value and auxiliary result, at every capacity,
where the value fits the length. -/
theorem agrees_ok {w : Nat} {r : CmdResult} (hv : r.value () < 2 ^ (w * r.len)) (cap : Nat) :
    Agrees w cap (.ok r) (.result r.len (r.value ()) r.aux) :=
  ⟨fun _ => .inl ⟨r, rfl, rfl⟩, fun _ => ⟨hv, r, rfl, rfl, rfl, rfl⟩⟩

/-! ### Bitwise operators keep the width of their operands (00_scope.md R10, 40_logic.md R100) -/

/-- The result has no bit above the highest bit of both operands. -/
def BitOp.KeepsWidth (f : BitOp) : Prop := ∀ ⦃n x y : Nat⦄, x < 2 ^ n → y < 2 ^ n → f x y < 2 ^ n

theorem BitOp.keepsWidth_and : BitOp.KeepsWidth (· &&& ·) := fun _ x _ _ hy => Nat.and_lt_two_pow x hy

theorem BitOp.keepsWidth_or : BitOp.KeepsWidth (· ||| ·) := fun _ _ _ hx hy => Nat.or_lt_two_pow hx hy

theorem BitOp.keepsWidth_xor : BitOp.KeepsWidth (· ^^^ ·) := fun _ _ _ hx hy => Nat.xor_lt_two_pow hx hy

/-- On operands of `m` and `n` limbs the result fits the greater number of limbs: the shorter operand is zero-extended. -/
theorem BitOp.KeepsWidth.lt_max {f : BitOp} (hf : f.KeepsWidth) {w m n x y : Nat} (hx : x < 2 ^ (w * m))
    (hy : y < 2 ^ (w * n)) : f x y < 2 ^ (w * max m n) := by
  have widen {v k : Nat} (hv : v < 2 ^ (w * k)) (hk : k ≤ max m n) : v < 2 ^ (w * max m n) :=
    hv.trans_le (Nat.pow_le_pow_right two_pos (Nat.mul_le_mul_left w hk))
  exact hf (widen hx (le_max_left m n)) (widen hy (le_max_right m n))

/-! ### The three forms, for any operator that keeps the width -/

section
variable {word : Word} {i : Instr} {f : BitOp}
  (hw : i.wellFormed = true) (hdec : decode word = .ok i) (hf : f.KeepsWidth)
include hw hdec hf

/-- The same-length form (R101, R105, R109): the two lengths are compared as registers by the spec, as numbers by the
model. -/
theorem follows_of_sameLengthRule (hrow : rowOf i = ⟨true, true, .out⟩) (hrule : ruleOf i = sameLengthRule f) :
    Follows word i (.out true true)
      (fun s x y => if s.xlen ≠ s.ylen then .code 5 else .result s.xlen.toNat (f x y) 0) := by
  obtain ⟨hx, hy, hd, hc⟩ := hrow ▸ Row.hasShape_out true true
  refine follows_of_agrees hw hdec hx hy hd hc fun s x y hbx hby => ?_
  rw [hrule, operandsOf_of_readsBoth hrow]
  by_cases hl : s.xlen = s.ylen
  · simp only [sameLengthRule, hl, ne_eq, not_true_eq_false, if_false]
    exact agrees_ok (hf (hl ▸ hbx rfl) (hby rfl)) _
  · have hn : s.xlen.toNat ≠ s.ylen.toNat := fun e => hl (BitVec.eq_of_toNat_eq e)
    simp only [sameLengthRule, if_pos hn, if_pos hl]
    exact ⟨.elen, rfl, rfl⟩

/-- The general and the in-place-left form (R102, R103 and their like), which differ in the destination only. -/
theorem follows_of_generalRule {k : DestKind} {h : Shape} (hrow : rowOf i = ⟨true, true, k⟩)
    (hshape : Row.HasShape ⟨true, true, k⟩ h) (hrule : ruleOf i = generalRule f) :
    Follows word i h (fun s x y => .result (max s.xlen.toNat s.ylen.toNat) (f x y) 0) := by
  obtain ⟨hx, hy, hd, hc⟩ := hrow ▸ hshape
  refine follows_of_agrees hw hdec hx hy hd hc fun s x y hbx hby => ?_
  rw [hrule, operandsOf_of_readsBoth hrow]
  exact agrees_ok (hf.lt_max (hbx hshape.readsX.symm) (hby hshape.readsY.symm)) _

/-- The in-place-either form (R104, R108, R112): the select flag is the spec's. -/
theorem follows_of_eitherRule (hrow : rowOf i = ⟨true, true, .either⟩) (hrule : ruleOf i = eitherRule f) :
    Follows word i (.either true true) (fun s x y =>
      .result (max s.xlen.toNat s.ylen.toNat) (f x y) (if s.xlen.toNat ≥ s.ylen.toNat then 0 else 1)) := by
  obtain ⟨hx, hy, hd, hc⟩ := hrow ▸ Row.hasShape_either true true
  refine follows_of_agrees hw hdec hx hy hd hc fun s x y hbx hby => ?_
  rw [hrule, operandsOf_of_readsBoth hrow]
  exact agrees_ok (hf.lt_max (hbx rfl) (hby rfl)) _

end

/-! ### The statements of 40_logic.md -/

/-- Settles O33: each command runs the same-length rule with an operator that keeps the width. -/
theorem sameLengthLogic : Obligations.SameLengthLogic :=
  ⟨follows_of_sameLengthRule rfl Laws.RoundTrip.andSl.1 BitOp.keepsWidth_and rfl rfl,
    follows_of_sameLengthRule rfl Laws.RoundTrip.orSl.1 BitOp.keepsWidth_or rfl rfl,
    follows_of_sameLengthRule rfl Laws.RoundTrip.xorSl.1 BitOp.keepsWidth_xor rfl rfl⟩

/-- Settles O34: the six commands run one rule, with three operators and two destinations. -/
theorem generalAndInPlaceLeftLogic : Obligations.GeneralAndInPlaceLeftLogic :=
  have out := Row.hasShape_out true true
  have ipl := Row.hasShape_ipl true true
  ⟨follows_of_generalRule rfl Laws.RoundTrip.and.1 BitOp.keepsWidth_and rfl out rfl,
    follows_of_generalRule rfl Laws.RoundTrip.andIpl.1 BitOp.keepsWidth_and rfl ipl rfl,
    follows_of_generalRule rfl Laws.RoundTrip.or.1 BitOp.keepsWidth_or rfl out rfl,
    follows_of_generalRule rfl Laws.RoundTrip.orIpl.1 BitOp.keepsWidth_or rfl ipl rfl,
    follows_of_generalRule rfl Laws.RoundTrip.xor.1 BitOp.keepsWidth_xor rfl out rfl,
    follows_of_generalRule rfl Laws.RoundTrip.xorIpl.1 BitOp.keepsWidth_xor rfl ipl rfl⟩

/-- Settles O35: each command runs the in-place-either rule, whose length is its capacity, so ECAP is never raised. -/
theorem inPlaceEitherLogic : Obligations.InPlaceEitherLogic :=
  ⟨follows_of_eitherRule rfl Laws.RoundTrip.andIpe.1 BitOp.keepsWidth_and rfl rfl,
    follows_of_eitherRule rfl Laws.RoundTrip.orIpe.1 BitOp.keepsWidth_or rfl rfl,
    follows_of_eitherRule rfl Laws.RoundTrip.xorIpe.1 BitOp.keepsWidth_xor rfl rfl⟩

end Sys2Proof.Machine
end

section
/-!
PROOFS. The full shifts: the length each rule gives is enough for the value it writes, so the rule answers what the
spec's rule answers, whatever the count is (41_shift.md R130 to R136).
-/
namespace Sys2Proof.Machine

/-! ### Shapes and operands of a command that reads X only (30_encoding.md R87) -/

theorem Row.hasShape_self (x y : Bool) : Row.HasShape ⟨x, y, .self⟩ (.self x y) :=
  ⟨rfl, rfl, fun _ => rfl, fun _ => rfl⟩

/-- What the rule of a command sees that reads X and not Y, and whose destination kind is `k`. -/
def xOperands (k : DestKind) (s : State) (x : Nat) : Operands :=
  { w := s.w, xl := s.xlen.toNat, yl := s.ylen.toNat, x := x, y := 0, a0 := s.arg0.toNat, a1 := s.arg1.toNat
    cap := destCap k s, pick := Config.freePick s.draws }

theorem operandsOf_of_readsX {i : Instr} {k : DestKind} (h : rowOf i = ⟨true, false, k⟩) (s : State) (x y : Nat) :
    operandsOf i s x y = xOperands k s x := by
  simp [operandsOf, xOperands, h]

/-- The bridge for a command that reads X only: its rule is compared with the spec's on the value of X alone. -/
theorem follows_of_readsX {word : Word} {i : Instr} {k : DestKind} {h : Shape} {rule : SpecRule}
    (hw : i.wellFormed = true) (hdec : decode word = .ok i) (hrow : rowOf i = ⟨true, false, k⟩)
    (hshape : Row.HasShape ⟨true, false, k⟩ h)
    (hagrees : ∀ s x y, x < 2 ^ (s.w * s.xlen.toNat) →
      Agrees s.w (h.cap s) (ruleOf i (xOperands k s x)) (rule s x y)) :
    Follows word i h rule := by
  obtain ⟨hx, hy, hd, hc⟩ := hrow ▸ hshape
  refine follows_of_agrees hw hdec hx hy hd hc fun s x y hbx _ => ?_
  rw [operandsOf_of_readsX hrow]
  exact hagrees s x y (hbx hshape.readsX.symm)

/-! ### The rules in the spec's formulas (41_shift.md R131, R135) -/

theorem shlRule_eq (o : Operands) :
    shlRule o = .ok
      { len := o.xl + o.a0 / o.w + if o.x * 2 ^ (o.a0 % o.w) / 2 ^ (o.w * o.xl) ≠ 0 then 1 else 0
        value := fun _ => o.x * 2 ^ o.a0
        aux := o.x * 2 ^ (o.a0 % o.w) / 2 ^ (o.w * o.xl) } := by
  simp [shlRule, carryLimb]

theorem shrRule_eq (o : Operands) :
    shrRule o = .ok
      { len := o.xl - o.a0 / o.w
        value := fun _ => o.x / 2 ^ o.a0
        aux := if o.x % 2 ^ o.a0 ≠ 0 then 1 else 0 } := by
  simp [shrRule]

/-! ### The value fits its length -/

/-- The sub-limb stage needs one limb more exactly where the carry limb is not 0. -/
theorem mul_two_pow_lt_of_carry {w n x r : Nat} (hr : r ≤ w) (hx : x < 2 ^ (w * n)) :
    x * 2 ^ r < 2 ^ (w * (n + if x * 2 ^ r / 2 ^ (w * n) ≠ 0 then 1 else 0)) := by
  split
  · calc x * 2 ^ r < 2 ^ (w * n) * 2 ^ r := Nat.mul_lt_mul_of_pos_right hx (by positivity)
      _ ≤ 2 ^ (w * n) * 2 ^ w := Nat.mul_le_mul_left _ (Nat.pow_le_pow_right two_pos hr)
      _ = 2 ^ (w * (n + 1)) := by rw [← pow_add, Nat.mul_succ]
  · next hc => exact (Nat.div_eq_zero_iff_lt (by positivity)).1 (not_not.1 hc)

/-- A left shift: the whole-limb stage adds `k / w` limbs to those of the sub-limb stage. -/
theorem mul_two_pow_lt_shlLength {w n x : Nat} (k : Nat) (hw : 0 < w) (hx : x < 2 ^ (w * n)) :
    x * 2 ^ k < 2 ^ (w * (n + k / w + if x * 2 ^ (k % w) / 2 ^ (w * n) ≠ 0 then 1 else 0)) := by
  have stages : x * 2 ^ k = x * 2 ^ (k % w) * 2 ^ (w * (k / w)) := by rw [mul_assoc, ← pow_add, Nat.mod_add_div]
  rw [stages, Nat.add_right_comm, Nat.mul_add w (n + _) (k / w), pow_add 2 _ (w * (k / w))]
  exact Nat.mul_lt_mul_of_pos_right (mul_two_pow_lt_of_carry (Nat.mod_lt k hw).le hx) (by positivity)

/-- A right shift by `k` deletes `k / w` whole limbs, and nothing is left where there are no more. -/
theorem div_two_pow_lt_shrLength {w n x : Nat} (k : Nat) (hx : x < 2 ^ (w * n)) :
    x / 2 ^ k < 2 ^ (w * (n - k / w)) := by
  rw [Nat.div_lt_iff_lt_mul (by positivity), ← pow_add]
  refine hx.trans_le (Nat.pow_le_pow_right two_pos ?_)
  calc w * n ≤ w * (n - k / w + k / w) := Nat.mul_le_mul_left w le_tsub_add
    _ = w * (n - k / w) + w * (k / w) := Nat.mul_add ..
    _ ≤ w * (n - k / w) + k := Nat.add_le_add_left (Nat.mul_div_le k w) _

/-! ### The two full shifts, for any destination -/

section
variable {word : Word} {i : Instr} {k : DestKind} {h : Shape}
  (hw : i.wellFormed = true) (hdec : decode word = .ok i) (hrow : rowOf i = ⟨true, false, k⟩)
  (hshape : Row.HasShape ⟨true, false, k⟩ h)
include hw hdec hrow hshape

/-- The full left shift (R131, R132): W is positive, so the count splits into whole limbs and less than a limb. -/
theorem follows_of_shlRule (hrule : ruleOf i = shlRule) :
    Follows word i h (fun s x _ =>
      .result
        (s.xlen.toNat + s.arg0.toNat / s.w +
          if x * 2 ^ (s.arg0.toNat % s.w) / 2 ^ (s.w * s.xlen.toNat) ≠ 0 then 1 else 0)
        (x * 2 ^ s.arg0.toNat) (x * 2 ^ (s.arg0.toNat % s.w) / 2 ^ (s.w * s.xlen.toNat))) := by
  refine follows_of_readsX hw hdec hrow hshape fun s x _ hx => ?_
  rw [hrule, shlRule_eq]
  exact agrees_ok (mul_two_pow_lt_shlLength _ s.w_pos hx) _

/-- The full right shift (R135, R136). -/
theorem follows_of_shrRule (hrule : ruleOf i = shrRule) :
    Follows word i h (fun s x _ =>
      .result (s.xlen.toNat - s.arg0.toNat / s.w) (x / 2 ^ s.arg0.toNat)
        (if x % 2 ^ s.arg0.toNat ≠ 0 then 1 else 0)) := by
  refine follows_of_readsX hw hdec hrow hshape fun s x _ hx => ?_
  rw [hrule, shrRule_eq]
  exact agrees_ok (div_two_pow_lt_shrLength _ hx) _

end

/-! ### The statements of 41_shift.md about the full shifts -/

/-- Settles O36: both commands run the full left shift's rule, with destinations OUT and IPL. -/
theorem shlMultipliesByAPowerOfTwo : Obligations.ShlMultipliesByAPowerOfTwo :=
  ⟨follows_of_shlRule rfl Laws.RoundTrip.shl.1 rfl (Row.hasShape_out true false) rfl,
    follows_of_shlRule rfl Laws.RoundTrip.shlIp.1 rfl (Row.hasShape_ipl true false) rfl⟩

/-- Settles O38: both commands run the full right shift's rule, with destinations OUT and SELF. -/
theorem shrDividesByAPowerOfTwo : Obligations.ShrDividesByAPowerOfTwo :=
  ⟨follows_of_shrRule rfl Laws.RoundTrip.shr.1 rfl (Row.hasShape_out true false) rfl,
    follows_of_shrRule rfl Laws.RoundTrip.shrIp.1 rfl (Row.hasShape_self true false) rfl⟩

end Sys2Proof.Machine
end

section
/-!
PROOFS. The low bits of a value and of its negative: either is below `2^pow`, so the limbs that cover `pow` bits are
enough for it (42_round_mod.md R154, R155).
-/
namespace Sys2Proof.Machine

/-! ### The rules in the spec's formulas -/

theorem modpRule_eq (o : Operands) :
    modpRule o = .ok { len := min o.xl (ceilDiv o.a0 o.w), value := fun _ => o.x % 2 ^ o.a0, aux := 0 } := by
  simp [modpRule]

theorem negmodpRule_eq (o : Operands) :
    negmodpRule o =
      .ok { len := ceilDiv o.a0 o.w, value := fun _ => (2 ^ o.a0 - o.x % 2 ^ o.a0) % 2 ^ o.a0, aux := 0 } := by
  simp [negmodpRule]

/-! ### The value fits its length -/

/-- `ceil_div(k, w)` limbs hold `k` bits. -/
theorem lt_two_pow_mul_ceilDiv {w k v : Nat} (hw : 0 < w) (hv : v < 2 ^ k) : v < 2 ^ (w * ceilDiv k w) :=
  hv.trans_le (Nat.pow_le_pow_right two_pos ((ceilDiv_le_iff hw).1 le_rfl))

/-- The low `k` bits of `x` need no more limbs than `x` has, and no more than cover `k` bits. -/
theorem mod_two_pow_lt_modpLength {w n x : Nat} (k : Nat) (hw : 0 < w) (hx : x < 2 ^ (w * n)) :
    x % 2 ^ k < 2 ^ (w * min n (ceilDiv k w)) := by
  rcases min_choice n (ceilDiv k w) with h | h <;> rw [h]
  · exact (Nat.mod_le x _).trans_lt hx
  · exact lt_two_pow_mul_ceilDiv hw (Nat.mod_lt x (by positivity))

/-! ### The statements of 42_round_mod.md about MODP and NEGMODP -/

/-- Settles O40: the value is at most `x` and below `2^pow`, so it fits the lesser of the two lengths. -/
theorem modpKeepsLowBits : Obligations.ModpKeepsLowBits := by
  refine follows_of_readsX rfl Laws.RoundTrip.modp.1 rfl (Row.hasShape_out true false) fun s x _ hx => ?_
  rw [ruleOf, modpRule_eq]
  exact agrees_ok (mod_two_pow_lt_modpLength _ s.w_pos hx) _

/-- Settles O41: the value is a residue mod `2^pow`, whatever the length of X is. -/
theorem negmodpNegatesLowBits : Obligations.NegmodpNegatesLowBits := by
  refine follows_of_readsX rfl Laws.RoundTrip.negmodp.1 rfl (Row.hasShape_out true false) fun s x _ _ => ?_
  rw [ruleOf, negmodpRule_eq]
  exact agrees_ok (lt_two_pow_mul_ceilDiv s.w_pos (Nat.mod_lt _ (by positivity))) _

end Sys2Proof.Machine
end

section
/-!
PROOFS. The two's-complement unit: the error checks of a rule are the spec's, in the spec's order, and after them the
value fits the length the rule gives (43_twos_complement.md R171 to R174, R178 to R180).
-/
namespace Sys2Proof.Machine

/-! ### Operands of a command that reads both regions (30_encoding.md R87) -/

/-- What the rule of a command sees that reads X and Y, and whose destination kind is `k`. -/
def xyOperands (k : DestKind) (s : State) (x y : Nat) : Operands :=
  { w := s.w, xl := s.xlen.toNat, yl := s.ylen.toNat, x := x, y := y, a0 := s.arg0.toNat, a1 := s.arg1.toNat
    cap := destCap k s, pick := Config.freePick s.draws }

/-- The bridge for a command that reads both regions: its rule is compared with the spec's on the two values. -/
theorem follows_of_readsBoth {word : Word} {i : Instr} {k : DestKind} {h : Shape} {rule : SpecRule}
    (hw : i.wellFormed = true) (hdec : decode word = .ok i) (hrow : rowOf i = ⟨true, true, k⟩)
    (hshape : Row.HasShape ⟨true, true, k⟩ h)
    (hagrees : ∀ s x y, x < 2 ^ (s.w * s.xlen.toNat) → y < 2 ^ (s.w * s.ylen.toNat) →
      Agrees s.w (h.cap s) (ruleOf i (xyOperands k s x y)) (rule s x y)) :
    Follows word i h rule := by
  obtain ⟨hx, hy, hd, hc⟩ := hrow ▸ hshape
  refine follows_of_agrees hw hdec hx hy hd hc fun s x y hbx hby => ?_
  rw [operandsOf_of_readsBoth hrow]
  exact hagrees s x y (hbx hshape.readsX.symm) (hby hshape.readsY.symm)

/-! ### Rules that check their operands first (60_exceptions.md R221) -/

theorem agrees_code {w cap : Nat} (e : ErrorCode) : Agrees w cap (.error e) (.code e.number) := ⟨e, rfl, rfl⟩

/-- One check: where the model and the spec test the same condition, they agree when they agree in both cases. -/
theorem Agrees.ite {w cap : Nat} {c : Prop} [Decidable c] {r r' : Except ErrorCode CmdResult} {a a' : SpecAnswer}
    (ht : c → Agrees w cap r a) (hf : ¬ c → Agrees w cap r' a') :
    Agrees w cap (if c then r else r') (if c then a else a') := by
  split
  · next h => exact ht h
  · next h => exact hf h

/-- A rule may say ECAP itself where the length exceeds the capacity (60_exceptions.md R226; log 16). -/
theorem agrees_ecap {w cap L : Nat} (h : cap < L) (v aux : Nat) :
    Agrees w cap (.error .ecap) (.result L v aux) :=
  ⟨fun _ => .inr rfl, fun hL => absurd hL (not_le.2 h)⟩

/-- A residue mod `2^n` fits the limbs that cover `n` bits. -/
theorem agrees_lowBits {w : Nat} (hw : 0 < w) (cap n v : Nat) :
    Agrees w cap (.ok { len := ceilDiv n w, value := fun _ => v % 2 ^ n, aux := 0 })
      (.result (ceilDiv n w) (v % 2 ^ n) 0) :=
  agrees_ok (lt_two_pow_mul_ceilDiv hw (Nat.mod_lt v (by positivity))) cap

/-! ### XOR of two negatives, for any destination and auxiliary result (R172 to R174) -/

/-- Taking 1 from each magnitude and the XOR keep the width of the longer operand. -/
theorem follows_of_xorNnRule {word : Word} {i : Instr} {k : DestKind} {h : Shape} {aux : Operands → Nat}
    {specAux : State → Nat} (hw : i.wellFormed = true) (hdec : decode word = .ok i) (hrow : rowOf i = ⟨true, true, k⟩)
    (hshape : Row.HasShape ⟨true, true, k⟩ h) (hrule : ruleOf i = xorNnRule aux)
    (haux : ∀ s x y, aux (xyOperands k s x y) = specAux s) :
    Follows word i h (fun s x y =>
      if s.xlen.toNat = 0 ∨ s.ylen.toNat = 0 then .code 4
      else if x = 0 ∨ y = 0 then .code 7
      else .result (max s.xlen.toNat s.ylen.toNat) ((x - 1) ^^^ (y - 1)) (specAux s)) := by
  refine follows_of_readsBoth hw hdec hrow hshape fun s x y hx hy => ?_
  rw [hrule, ← haux s x y]
  have hx1 : x - 1 < 2 ^ (s.w * s.xlen.toNat) := (Nat.sub_le x 1).trans_lt hx
  have hy1 : y - 1 < 2 ^ (s.w * s.ylen.toNat) := (Nat.sub_le y 1).trans_lt hy
  exact .ite (fun _ => agrees_code .eempty) fun _ => .ite (fun _ => agrees_code .ezero) fun _ =>
    agrees_ok (BitOp.keepsWidth_xor.lt_max hx1 hy1) _

/-! ### The window of a negative (R179) -/

/-- The window the model complements is the window of TC(x): `2^N` is above `x` and reaches past the window. -/
theorem notBits_window {x k start fin : Nat} (h0 : x ≠ 0) (hx : x < 2 ^ k) (hd : start ≤ fin) :
    notBits (fin - start) (divPow2 (x - 1) start) =
      (2 ^ (max fin k + 1) - x) / 2 ^ start % 2 ^ (fin - start) := by
  have hn : x ≤ 2 ^ (max fin k + 1) := hx.le.trans (Nat.pow_le_pow_right two_pos (by omega))
  rw [twosComplement_window (Nat.pos_of_ne_zero h0) hn (by omega), notBits_eq, divPow2_eq]

/-! ### Bits put into a number (R180) -/

@[simp] theorem spliceBits_eq (p m start fin : Nat) :
    spliceBits p m start fin = p - p % 2 ^ fin + p % 2 ^ start + m * 2 ^ start := by
  simp [spliceBits]

theorem reachesPast_sigbits_iff (k start m : Nat) :
    reachesPast k start (sigbits m) = true ↔ 2 ^ k ≤ m * 2 ^ start := by
  by_cases h : m = 0
  · simp [reachesPast, h]
  · rw [← lt_sigbits_iff, sigbits_mul_two_pow h, Nat.add_comm]
    simp [reachesPast, sigbits_eq_zero_iff, h]

/-- The early ECAP of the bit-assignment commands: a value no less than the placed bits is too long where these alone
reach past the capacity. Elsewhere the value fits, since its trimmed length is part of the length. -/
theorem agrees_of_placedBits {w cap m start v : Nat} (n : Nat) (hw : 0 < w) (hv : m * 2 ^ start ≤ v) :
    Agrees w cap
      (if reachesPast (w * cap) start (sigbits m) then .error .ecap
        else .ok { len := max n (nlen w v), value := fun _ => v, aux := 0 })
      (.result (max n (nlen w v)) v 0) := by
  split
  · next h =>
    have hpast : 2 ^ (w * cap) ≤ v := ((reachesPast_sigbits_iff ..).1 h).trans hv
    have hlen : cap < nlen w v := by rwa [← not_le, nlen_le_iff hw, not_lt]
    exact agrees_ecap (lt_max_of_lt_right hlen) _ _
  · exact agrees_ok ((nlen_le_iff hw v _).1 (le_max_right n _)) _

/-! ### The statements of 43_twos_complement.md about TWOS, XOR_NN, GETB and ASGB_P -/

/-- Settles O44: the value is a residue mod `B^XL`. -/
theorem twosNegatesASlice : Obligations.TwosNegatesASlice :=
  follows_of_readsX rfl Laws.RoundTrip.twos.1 rfl (Row.hasShape_out true false) fun _ _ _ _ =>
    agrees_ok (Nat.mod_lt _ (by positivity)) _

/-- Settles O45: the three commands run one rule, with three destinations and two auxiliary results. -/
theorem xorOfTwoNegatives : Obligations.XorOfTwoNegatives :=
  ⟨follows_of_xorNnRule rfl Laws.RoundTrip.xorNn.1 rfl (Row.hasShape_out true true) rfl fun _ _ _ => rfl,
    follows_of_xorNnRule rfl Laws.RoundTrip.xorNnIpl.1 rfl (Row.hasShape_ipl true true) rfl fun _ _ _ => rfl,
    follows_of_xorNnRule rfl Laws.RoundTrip.xorNnIpe.1 rfl (Row.hasShape_either true true) rfl fun _ _ _ => rfl⟩

/-- Settles O48: a window of `end - start` bits fits the limbs that cover them. -/
theorem getbOfAPositive : Obligations.GetbOfAPositive := by
  refine follows_of_readsX rfl Laws.RoundTrip.getbP.1 rfl (Row.hasShape_out true false) fun s x _ _ =>
    .ite (fun _ => agrees_code .edomain) fun _ => ?_
  rw [modPow2_eq, divPow2_eq]
  exact agrees_lowBits s.w_pos ..

/-- Settles O49: the three checks in order, then the window of TC(x) as a residue mod `2^(end - start)`. -/
theorem getbOfANegative : Obligations.GetbOfANegative := by
  refine follows_of_readsX rfl Laws.RoundTrip.getbN.1 rfl (Row.hasShape_out true false) fun s x _ hx =>
    .ite (fun _ => agrees_code .eempty) fun _ => .ite (fun _ => agrees_code .ezero) fun h0 =>
      .ite (fun _ => agrees_code .edomain) fun hd => ?_
  rw [notBits_window h0 hx (not_lt.1 hd)]
  exact agrees_lowBits s.w_pos ..

/-- Settles O50: the value is no less than the bits placed in it, so the early ECAP is the spec's. -/
theorem asgbOnAPositive : Obligations.AsgbOnAPositive := by
  refine follows_of_readsBoth rfl Laws.RoundTrip.asgbP.1 rfl (Row.hasShape_ipl true true) fun s x y _ _ =>
    .ite (fun _ => agrees_code .edomain) fun _ => ?_
  simp only [modPow2_eq, spliceBits_eq]
  exact agrees_of_placedBits _ s.w_pos (Nat.le_add_left _ _)

end Sys2Proof.Machine
end

section
/-!
PROOFS. The multiply kernel: the product needs at most the limbs of both operands, a residue the limbs of its modulus, and
the checks of a rule are the spec's, in the spec's order (44_modmul.md R200 to R206).
-/
namespace Sys2Proof.Machine

/-! ### Answers of a rule -/

/-- One check that the model and the spec word differently: they agree when they agree in both cases. -/
theorem Agrees.ite_of_iff {w cap : Nat} {c c' : Prop} [Decidable c] [Decidable c'] {r r' : Except ErrorCode CmdResult}
    {a a' : SpecAnswer} (h : c ↔ c') (ht : c → Agrees w cap r a) (hf : ¬ c → Agrees w cap r' a') :
    Agrees w cap (if c then r else r') (if c' then a else a') := by
  by_cases hc : c
  · rw [if_pos hc, if_pos (h.1 hc)]
    exact ht hc
  · rw [if_neg hc, if_neg (mt h.2 hc)]
    exact hf hc

/-- A rule that answers one of two values, both of which fit the length, agrees with the spec's choice between them. -/
theorem agrees_eitherOf {w v v' : Nat} {r : CmdResult} (hv : v < 2 ^ (w * r.len)) (hv' : v' < 2 ^ (w * r.len))
    (hr : r.value () = v ∨ r.value () = v') (cap : Nat) : Agrees w cap (.ok r) (.eitherOf r.len v v' r.aux) :=
  ⟨fun _ => .inl ⟨r, rfl, rfl⟩, fun _ => ⟨hv, hv', r, rfl, rfl, hr, rfl⟩⟩

/-! ### The value fits its length -/

/-- The product of an `m`-limb and an `n`-limb number has at most `m + n` limbs (R200). -/
theorem mul_lt_two_pow_mul_add {w m n x y : Nat} (hx : x < 2 ^ (w * m)) (hy : y < 2 ^ (w * n)) :
    x * y < 2 ^ (w * (m + n)) := by
  rw [Nat.mul_add, pow_add]
  exact Nat.mul_lt_mul'' hx hy

/-- `B^n - 1` is a modulus and not 0: B and `n` are positive (R204). -/
theorem two_pow_mul_sub_one_pos {w n : Nat} (hw : 0 < w) (hn : n ≠ 0) : 0 < 2 ^ (w * n) - 1 :=
  Nat.sub_pos_of_lt (Nat.one_lt_two_pow (Nat.mul_ne_zero hw.ne' hn))

/-- A residue mod `B^n + 1` can be `B^n` itself, which needs one limb more than `n` (R206). -/
theorem mod_two_pow_mul_add_one_lt {w : Nat} (hw : 0 < w) (n v : Nat) :
    v % (2 ^ (w * n) + 1) < 2 ^ (w * (n + 1)) :=
  calc v % (2 ^ (w * n) + 1) ≤ 2 ^ (w * n) := Nat.le_of_lt_succ (Nat.mod_lt v (Nat.succ_pos _))
    _ < 2 ^ (w * (n + 1)) := Nat.pow_lt_pow_right one_lt_two (Nat.mul_lt_mul_of_pos_left n.lt_succ_self hw)

/-! ### The free representation of zero (R204; log 4) -/

/-- A residue of 0 is written as one of its two representations, whatever the free choice is. -/
theorem bnm1Value_of_mod_eq_zero {p m : Nat} (h : p % m = 0) (pick : Bool) :
    bnm1Value p m pick = 0 ∨ bnm1Value p m pick = m := by
  cases pick <;> simp [bnm1Value, h]

/-- A residue other than 0 is written as it is, and a residue of 0 as either representation; all of them are at most the
modulus. -/
theorem agrees_bnm1Value {w n m : Nat} (hm : 0 < m) (hfit : m < 2 ^ (w * n)) (p cap : Nat) (pick : Bool) :
    Agrees w cap (.ok { len := n, value := fun _ => bnm1Value p m pick, aux := 0, drawn := 1 })
      (if p % m ≠ 0 then .result n (p % m) 0 else .eitherOf n 0 m 0) := by
  split
  · next h =>
    rw [bnm1Value, if_pos h]
    exact agrees_ok ((Nat.mod_lt p hm).trans hfit) _
  · next h => exact agrees_eitherOf (hm.trans hfit) hfit (bnm1Value_of_mod_eq_zero (not_not.1 h) pick) _

/-! ### The two products mod `B^n - 1` and mod `B^n + 1` share their checks (R204, R206) -/

/-- The shared checks, then the result `r`. -/
def ringRule (r : Operands → CmdResult) : Rule := fun o =>
  match ringChecks o with
  | some c => .error c
  | none => .ok (r o)

theorem ringRule_eq (r : Operands → CmdResult) (o : Operands) :
    ringRule r o =
      if o.xl = 0 ∨ o.yl = 0 then .error .eempty
      else if o.xl < o.yl then .error .eorder
      else if o.a0 = 0 then .error .edomain
      else .ok (r o) := by
  unfold ringRule ringChecks
  split_ifs <;> rfl

/-- After the checks, with `n` not 0, only the result is left to compare. -/
theorem follows_of_ringRule {word : Word} {i : Instr} {r : Operands → CmdResult} {answer : SpecRule}
    (hw : i.wellFormed = true) (hdec : decode word = .ok i) (hrow : rowOf i = ⟨true, true, .out⟩)
    (hrule : ruleOf i = ringRule r)
    (hagrees : ∀ s x y, s.arg0.toNat ≠ 0 →
      Agrees s.w s.ocap.toNat (.ok (r (xyOperands .out s x y))) (answer s x y)) :
    Follows word i (.out true true) (fun s x y =>
      if s.xlen.toNat = 0 ∨ s.ylen.toNat = 0 then .code 4
      else if s.ylen.toNat > s.xlen.toNat then .code 6
      else if s.arg0.toNat = 0 then .code 9
      else answer s x y) := by
  refine follows_of_readsBoth hw hdec hrow (Row.hasShape_out true true) fun s x y _ _ => ?_
  rw [hrule, ringRule_eq]
  exact .ite (fun _ => agrees_code .eempty) fun _ => .ite (fun _ => agrees_code .eorder) fun _ =>
    .ite (fun _ => agrees_code .edomain) fun hn => hagrees s x y hn

/-! ### The statements of 44_modmul.md -/

/-- Settles O52: the product fits the limbs of both operands. -/
theorem mulIsTheFullProduct : Obligations.MulIsTheFullProduct :=
  follows_of_readsBoth rfl Laws.RoundTrip.mul.1 rfl (Row.hasShape_out true true) fun _ _ _ hx hy =>
    agrees_ok (mul_lt_two_pow_mul_add hx hy) _

/-- Settles O53: the two lengths are compared as registers by the spec, as numbers by the model, and the value is a residue
mod `B^XL`. -/
theorem mulloIsTheLowHalf : Obligations.MulloIsTheLowHalf :=
  follows_of_readsBoth rfl Laws.RoundTrip.mullo.1 rfl (Row.hasShape_out true true) fun _ _ _ _ _ =>
    .ite_of_iff BitVec.toNat_inj.not (fun _ => agrees_code .elen) fun _ =>
      agrees_ok (Nat.mod_lt _ (by positivity)) _

/-- Settles O54: the value is a residue mod `2^pow` and at most the product, so it fits the lesser of the two lengths. -/
theorem modpmulReducesTheProduct : Obligations.ModpmulReducesTheProduct := by
  refine follows_of_readsBoth rfl Laws.RoundTrip.modpmul.1 rfl (Row.hasShape_out true true) fun s x y hx hy =>
    .ite_of_iff (or_congr (lt_sigbits_iff ..) (lt_sigbits_iff ..)) (fun _ => agrees_code .edomain) fun _ => ?_
  rw [modPow2_eq]
  exact agrees_ok (mod_two_pow_lt_modpLength _ s.w_pos (mul_lt_two_pow_mul_add hx hy)) _

/-- Settles O55: after the checks the modulus is not 0 and fits `n` limbs, and so does every value the rule may write. -/
theorem mulmodBnm1IsAResidue : Obligations.MulmodBnm1IsAResidue :=
  follows_of_ringRule rfl Laws.RoundTrip.mulmodBnm1.1 rfl rfl fun s _ _ hn =>
    agrees_bnm1Value (two_pow_mul_sub_one_pos s.w_pos hn) (Nat.sub_lt (by positivity) one_pos) ..

/-- Settles O56: the canonical residue fits `n + 1` limbs. -/
theorem mulmodBnp1IsTheCanonicalResidue : Obligations.MulmodBnp1IsTheCanonicalResidue :=
  follows_of_ringRule rfl Laws.RoundTrip.mulmodBnp1.1 rfl rfl fun s _ _ _ =>
    agrees_ok (mod_two_pow_mul_add_one_lt s.w_pos _ _) _

end Sys2Proof.Machine
end

section
/-!
PROOFS. What a command that raises changes: the completion fields alone (60_exceptions.md R220, R224).
-/
namespace Sys2Proof.Machine

/-- A command that ends with a code other than 0 made the error completion and nothing more, since Commit reports
code 0. -/
theorem exec_eq_completeError {i : Instr} {s t : State} (h : exec i s = .next t) (hc : t.ecode ≠ 0) :
    ∃ c, t = s.completeError c := by
  rcases exec_next_cases h with hraised | ⟨r, -, rfl⟩
  · exact hraised
  · exact absurd (State.commit_ecode ..) hc

/-- Settles O23: the error completion writes the completion fields alone, and the code it leaves is the one it raised. -/
theorem failingCommandIsPrecise : Obligations.FailingCommandIsPrecise := by
  intro i s t h hc
  obtain ⟨c, rfl⟩ := exec_eq_completeError h hc
  rfl

end Sys2Proof.Machine
end

section
/-!
PROOFS. Reset and the register writes in each phase: what a CTRL write makes of its three bits, which writes the BUSY phase
drops, and what power-on and the soft reset leave (10_state.md R22, R30, R36; 70_reset_and_hazards.md R250, R251).
-/
namespace Sys2Proof.Machine

/-! ### Which register a number names, and what a write to it does (10_state.md R30, R36) -/

/-- The defined registers have the numbers 0 to 14, in the order in which `Csr` lists them. -/
theorem csrOf_eq_some_iff (n : Nat) (r : Csr) : csrOf n = some r ↔ n = r.ctorIdx := by
  constructor
  · intro h
    unfold csrOf at h
    split at h <;> cases h <;> rfl
  · rintro rfl
    cases r <;> rfl

theorem csrOf_eq_none_iff (n : Nat) : csrOf n = none ↔ 15 ≤ n := by
  constructor
  · intro h
    have hdef : ∀ m < 15, csrOf m ≠ none := by decide
    exact not_lt.1 fun hn => hdef n hn h
  · intro h
    obtain ⟨m, rfl⟩ := Nat.exists_eq_add_of_le' h
    rfl

theorem csrWrite_of_busy {s : State} (h : s.phase = .busy) {n : Nat} {r : Csr} (hr : csrOf n = some r) (v : Word) :
    csrWrite n v s = writeBusy r v s := by
  simp only [csrWrite, hr, h]

/-- A reserved number takes no write, in either phase. -/
theorem csrWrite_reserved {n : Nat} (h : 15 ≤ n) (v : Word) (s : State) : csrWrite n v s = s := by
  rw [csrWrite, (csrOf_eq_none_iff n).2 h]

theorem writeBusy_of_ne {r : Csr} (hc : r ≠ .ctrl) (hs : r ≠ .status) (v : Word) (s : State) :
    writeBusy r v s = { s with werr := true } := by
  cases r with
  | ctrl => exact absurd rfl hc
  | status => exact absurd rfl hs
  | _ => rfl

/-- In the BUSY phase every register but CTRL and STATUS drops a write and sets WERR. -/
theorem csrWrite_busy_dropped {s : State} (h : s.phase = .busy) {n : Nat} (hn : n < 15) (h1 : n ≠ 1) (h2 : n ≠ 2)
    (v : Word) : csrWrite n v s = { s with werr := true } := by
  cases hr : csrOf n with
  | none => exact absurd ((csrOf_eq_none_iff n).1 hr) (not_le.2 hn)
  | some r =>
    have hnr : n = r.ctorIdx := (csrOf_eq_some_iff n r).1 hr
    have hc : r ≠ .ctrl := by rintro rfl; exact h1 hnr
    have hs : r ≠ .status := by rintro rfl; exact h2 hnr
    rw [csrWrite_of_busy h hr, writeBusy_of_ne hc hs]

theorem writeStatus_eq (v : Word) (s : State) : writeStatus v s =
    { s with
      done := if v.getLsbD 1 then false else s.done
      err := if v.getLsbD 2 then false else s.err
      werr := if v.getLsbD 3 then false else s.werr } := by
  simp only [writeStatus]
  cases v.getLsbD 1 <;> cases v.getLsbD 2 <;> cases v.getLsbD 3 <;> simp

/-! ### CTRL, bit by bit (10_state.md R22) -/

@[simp] theorem getLsbD_flagBit (b : Bool) {j : Nat} (hj : j < 64) (k : Nat) :
    (flagBit b j).getLsbD k = (decide (k = j) && b) := by
  by_cases hk : k < 64
  · rw [BitVec.getLsbD_eq_getElem hk, getElem_flagBit, Bool.and_comm, Bool.decide_congr eq_comm]
  · rw [BitVec.getLsbD_of_ge _ _ (not_lt.1 hk), decide_eq_false (by omega), Bool.false_and]

theorem csrWrite_ctrl_of_idle {s : State} (h : s.phase = .idle) (v : Word) : csrWrite 1 v s = writeCtrlIdle v s := by
  simp only [csrWrite, csrOf, h, writeIdle]

theorem csrWrite_ctrl_of_busy {s : State} (h : s.phase = .busy) (v : Word) : csrWrite 1 v s = writeCtrlBusy v s :=
  csrWrite_of_busy (n := 1) (r := .ctrl) h rfl v

/-- Only the three bits SRST, GO and IEN of a written value count. -/
theorem csrWrite_ctrl_congr {v v' : Word} (h : ∀ k < 3, v.getLsbD k = v'.getLsbD k) (s : State) :
    csrWrite 1 v s = csrWrite 1 v' s := by
  have hgo : goBit v = goBit v' := h 0 (by decide)
  have hsrst : srstBit v = srstBit v' := h 1 (by decide)
  have hien : ienBit v = ienBit v' := h 2 (by decide)
  cases hp : s.phase with
  | idle => simp only [csrWrite_ctrl_of_idle hp, writeCtrlIdle, hgo, hsrst, hien]
  | busy => simp only [csrWrite_ctrl_of_busy hp, writeCtrlBusy, hgo, hsrst, hien]

/-- A CTRL write with GO alone starts a command in the IDLE phase, after IEN is stored (10_state.md R35). -/
theorem csrWrite_ctrl_go_idle {s : State} (h : s.phase = .idle) {v : Word} (hg : v.getLsbD 0 = true)
    (hv : v.getLsbD 1 = false) : csrWrite 1 v s = State.go { s with ien := v.getLsbD 2 } := by
  have hgo : goBit v = true := hg
  have hsrst : srstBit v = false := hv
  simp [csrWrite_ctrl_of_idle h, writeCtrlIdle, hgo, hsrst, ienBit]

/-- In the BUSY phase GO is ignored and sets WERR; IEN is stored all the same (10_state.md R36). -/
theorem csrWrite_ctrl_go_busy {s : State} (h : s.phase = .busy) {v : Word} (hg : v.getLsbD 0 = true)
    (hv : v.getLsbD 1 = false) : csrWrite 1 v s = { s with ien := v.getLsbD 2, werr := true } := by
  have hgo : goBit v = true := hg
  have hsrst : srstBit v = false := hv
  simp [csrWrite_ctrl_of_busy h, writeCtrlBusy, hgo, hsrst, ienBit]

theorem csrWrite_ctrl_ien_field {v : Word} (hv : v.getLsbD 1 = false) (s : State) :
    (csrWrite 1 v s).ien = v.getLsbD 2 := by
  cases hg : v.getLsbD 0 with
  | false => rw [csrWrite_ctrl_ien hg hv]
  | true =>
    cases hp : s.phase with
    | idle => rw [csrWrite_ctrl_go_idle hp hg hv, State.go_ien]
    | busy => rw [csrWrite_ctrl_go_busy hp hg hv]

/-! ### The soft reset (70_reset_and_hazards.md R251) -/

theorem softReset_idle {s : State} (h : s.phase = .idle) : softReset s = s.resetCsrs := by simp [softReset, h]

theorem softReset_busy {s : State} (h : s.phase = .busy) : softReset s = s.abandon.resetCsrs := by simp [softReset, h]

@[simp] theorem softReset_phase (s : State) : (softReset s).phase = .idle := by unfold softReset; split <;> rfl

@[simp] theorem State.limb?_resetCsrs (s : State) (k : Nat) : s.resetCsrs.limb? k = s.limb? k := rfl

/-- After the register part of the reset every register reads as after power-on (R251 (b)). -/
theorem csrValue_resetCsrs (n : Nat) (s : State) : csrValue n s.resetCsrs = csrValue n (State.powerOn s.cfg) := by
  unfold csrValue
  cases csrOf n with
  | none => rfl
  | some r => cases r <;> rfl

theorem csrValue_softReset (n : Nat) (s : State) : csrValue n (softReset s) = csrValue n (State.powerOn s.cfg) := by
  cases h : s.phase with
  | idle => rw [softReset_idle h, csrValue_resetCsrs]
  | busy => rw [softReset_busy h, csrValue_resetCsrs, State.abandon_cfg]

/-- A word that stands for no command has no destination to abandon (log 5). -/
theorem State.abandon_of_not_decoded {s : State} {e : DecodeReject} (h : decode s.cmd = .error e) : s.abandon = s := by
  rw [State.abandon, h]

theorem State.limb?_abandon_outside {s : State} {i : Instr} (h : decode s.cmd = .ok i) {k : Nat}
    (hk : k < destBase (rowOf i).dest s ∨ destBase (rowOf i).dest s + destCap (rowOf i).dest s ≤ k) :
    s.abandon.limb? k = s.limb? k := by
  rw [State.limb?_abandon h]
  exact if_neg (by unfold clipToLm; omega)

theorem State.limb?_abandon_isSome {s : State} {i : Instr} (h : decode s.cmd = .ok i) {k : Nat}
    (hlo : destBase (rowOf i).dest s ≤ k) (hhi : k < destBase (rowOf i).dest s + destCap (rowOf i).dest s)
    (hlm : k < s.cfg.lmLimbs) : (s.abandon.limb? k).isSome = true := by
  rw [State.limb?_abandon h]
  dsimp only
  rw [if_pos (by unfold clipToLm; omega), Option.isSome_some]

/-! ### Power-on (70_reset_and_hazards.md R250) -/

/-- The fields of ID do not overlap, so their sum is their bitwise OR (10_state.md R21). -/
theorem State.idWord_eq_or (s : State) :
    s.idWord = BitVec.ofNat 64 (s.w ||| (1 <<< 8) ||| (s.cfg.lmLimbs <<< 32)) := by
  have hw : s.w ≤ 64 := s.w_le
  have hlow : s.w ||| 1 <<< 8 = s.w + 2 ^ 8 * 1 := by
    rw [Nat.shiftLeft_eq, Nat.or_comm, Nat.add_comm, Nat.two_pow_add_eq_or_of_lt (by omega)]
  have hhigh : s.w + 2 ^ 8 * 1 ||| s.cfg.lmLimbs <<< 32 = s.w + 2 ^ 8 * 1 + 2 ^ 32 * s.cfg.lmLimbs := by
    rw [Nat.shiftLeft_eq, Nat.mul_comm s.cfg.lmLimbs, Nat.or_comm, Nat.add_comm (s.w + _),
      Nat.two_pow_add_eq_or_of_lt (by omega)]
  rw [hlow, hhigh, State.idWord, State.w]

theorem State.statusWord_powerOn (c : Config) : (State.powerOn c).statusWord = 0 := by
  simp [State.statusWord, State.busy, State.powerOn, flagBit]

theorem csrValue_powerOn (c : Config) {n : Nat} (h : 1 ≤ n) : csrValue n (State.powerOn c) = 0 := by
  unfold csrValue
  cases hr : csrOf n with
  | none => rfl
  | some r =>
    cases r with
    | id => exact absurd ((csrOf_eq_some_iff n .id).1 hr) (Nat.ne_of_gt h)
    | status => exact State.statusWord_powerOn c
    | _ => rfl

/-! ### The statements about reset and about register writes -/

/-- Settles O14: the soft reset is the register part of the reset, after the command in flight is abandoned. -/
theorem softResetEffect : Obligations.SoftResetEffect := by
  intro s v hv
  obtain ⟨hcfg, hprogram, hpc, htemps⟩ := csrWrite_host 1 v s
  refine ⟨fun n _ => ?csrs, ?phase, ?irq, hcfg, hprogram, hpc, htemps, fun h => ?idle, fun h e he => ?notDecoded,
    fun h i hi => ⟨fun k hk => ?outside, fun k hlo hhi hlm => ?inside⟩⟩ <;> rw [csrWrite_ctrl_srst hv]
  case csrs => exact csrValue_softReset n s
  case phase => exact softReset_phase s
  case irq => simp [State.irq]
  case idle => rw [softReset_idle h, State.resetCsrs_lm]
  case notDecoded => rw [softReset_busy h, State.abandon_of_not_decoded he, State.resetCsrs_lm]
  case outside => rw [softReset_busy h, State.limb?_resetCsrs, State.limb?_abandon_outside hi hk]
  case inside => rw [softReset_busy h, State.limb?_resetCsrs, State.limb?_abandon_isSome hi hlo hhi hlm]

/-- Settles O11: each clause reads one of the three bits off the state after the write. -/
theorem ctrlBitsAndPulses : Obligations.CtrlBitsAndPulses := by
  intro s v
  refine ⟨fun k => getLsbD_flagBit s.ien (by decide) k, csrWrite_ctrl_congr (fun k hk => ?mask) s,
    fun hv => csrWrite_ctrl_srst hv s, fun hv => ?ien, fun h => ?go, fun c => rfl⟩
  case mask =>
    have h7 : ∀ j < 3, (7 : Word).getLsbD j = true := by decide
    rw [BitVec.getLsbD_and, h7 k hk, Bool.and_true]
  case ien =>
    rw [csrValue_ctrl, State.ctrlWord, csrWrite_ctrl_ien_field hv]
    rfl
  case go =>
    cases hv : v.getLsbD 1 with
    | true => simp [csrWrite_ctrl_srst hv]
    | false =>
      cases hg : v.getLsbD 0 with
      | true => simp [csrWrite_ctrl_go_idle h hg hv]
      | false => simp [csrWrite_ctrl_ien hg hv, h]

/-- Settles O5: the registers of the power-on state are 0, and ID is the OR of its fields. -/
theorem powerOnValues : Obligations.PowerOnValues := fun c =>
  ⟨State.idWord_eq_or (State.powerOn c), fun _ h _ => csrValue_powerOn c h, rfl, rfl, fun _ => rfl⟩

/-- Settles O13: a clause per kind of register number. -/
theorem busyRegisterWrites : Obligations.BusyRegisterWrites := by
  intro s n v h _
  refine ⟨?status, ?srst, ?go, ?ien, fun hn => csrWrite_reserved hn v s,
    fun h1 h2 hn => csrWrite_busy_dropped h hn h1 h2 v⟩
  case status => rintro rfl; rw [csrWrite_status, writeStatus_eq]
  case srst => rintro rfl hv; exact csrWrite_ctrl_srst hv s
  case go => rintro rfl hv hg; exact csrWrite_ctrl_go_busy h hg hv
  case ien => rintro rfl hv hg; exact csrWrite_ctrl_ien hg hv s

end Sys2Proof.Machine
end

section
/-!
PROOFS. The command word as four fields side by side: a word decodes to a command exactly when its fields are those the
command's encoding has, the fields the command ignores apart (30_encoding.md R80 to R83).
-/
namespace Sys2Proof

/-! ### A word as its fields (30_encoding.md R80) -/

/-- A 64-bit word by its fields CMD[63:12], NEG, RM and OP, the reserved bits included. -/
def wordOfFields (reserved : BitVec 52) (neg : Bool) (rm : BitVec 3) (op : BitVec 8) : Word :=
  (reserved ++ (BitVec.ofBool neg ++ (rm ++ op)) : BitVec (52 + (1 + (3 + 8))))

theorem cmdWord_eq_wordOfFields (op : BitVec 8) (rm : BitVec 3) (neg : Bool) :
    cmdWord op rm neg = wordOfFields 0 neg rm op := rfl

/-- Every word is the word of its fields. -/
theorem wordOfFields_fields (w : Word) : wordOfFields (cmdReserved w) (cmdNeg w) (cmdRm w) (cmdOp w) = w := by
  have hrm : cmdRm w ++ cmdOp w = w.extractLsb' 0 11 := BitVec.extractLsb'_append_extractLsb'_eq_extractLsb' rfl
  have hneg : BitVec.ofBool (cmdNeg w) = w.extractLsb' 11 1 := by
    ext i hi
    obtain rfl : i = 0 := by omega
    simp [cmdNeg]
  have hlow : w.extractLsb' 11 1 ++ w.extractLsb' 0 11 = w.extractLsb' 0 12 :=
    BitVec.extractLsb'_append_extractLsb'_eq_extractLsb' rfl
  have hall : cmdReserved w ++ w.extractLsb' 0 12 = w.extractLsb' 0 64 :=
    BitVec.extractLsb'_append_extractLsb'_eq_extractLsb' rfl
  unfold wordOfFields
  rw [hrm, hneg, hlow, hall, BitVec.extractLsb'_eq_self]

theorem append_inj {m n : Nat} {a a' : BitVec m} {b b' : BitVec n} : a ++ b = a' ++ b' ↔ a = a' ∧ b = b' := by
  refine ⟨fun h => ⟨?_, ?_⟩, fun ⟨ha, hb⟩ => ha ▸ hb ▸ rfl⟩
  · rw [← BitVec.extractLsb'_append_eq_left (a := a) (b := b), h, BitVec.extractLsb'_append_eq_left]
  · rw [← BitVec.extractLsb'_append_eq_right (a := a) (b := b), h, BitVec.extractLsb'_append_eq_right]

theorem wordOfFields_inj {r r' : BitVec 52} {n n' : Bool} {m m' : BitVec 3} {o o' : BitVec 8} :
    wordOfFields r n m o = wordOfFields r' n' m' o' ↔ r = r' ∧ n = n' ∧ m = m' ∧ o = o' := by
  have hn : BitVec.ofBool n = BitVec.ofBool n' ↔ n = n' := by cases n <;> cases n' <;> decide
  unfold wordOfFields
  rw [append_inj, append_inj, append_inj, hn]

/-- The command word is the OR of its fields, each at its place. -/
theorem cmdWord_toNat_or (op : BitVec 8) (rm : BitVec 3) (neg : Bool) :
    (cmdWord op rm neg).toNat = op.toNat ||| rm.toNat <<< 8 ||| neg.toNat <<< 11 := by
  rw [cmdWord, BitVec.toNat_append, BitVec.toNat_append, BitVec.toNat_append, BitVec.toNat_ofBool, BitVec.toNat_zero,
    Nat.zero_shiftLeft, Nat.zero_or, Nat.or_comm (neg.toNat <<< _), Nat.or_comm (rm.toNat <<< _)]

/-- The fields do not overlap, so their OR is their sum. -/
theorem cmdWord_toNat (op : BitVec 8) (rm : BitVec 3) (neg : Bool) :
    (cmdWord op rm neg).toNat = op.toNat + 2 ^ 8 * rm.toNat + 2 ^ 11 * neg.toNat := by
  have hop := op.isLt
  have hlow : rm.toNat <<< 8 + op.toNat < 2 ^ 11 := by
    have hrm := rm.isLt
    rw [Nat.shiftLeft_eq]
    omega
  rw [cmdWord_toNat_or, Nat.or_comm op.toNat, ← Nat.shiftLeft_add_eq_or_of_lt hop, Nat.or_comm,
    ← Nat.shiftLeft_add_eq_or_of_lt hlow, Nat.shiftLeft_eq, Nat.shiftLeft_eq]
  omega

/-! ### The commands that read RM and NEG (30_encoding.md R82) -/

/-- The command reads RM and NEG. -/
def Instr.readsMode : Instr → Bool
  | .shrRound _ _ => true
  | .rtm _ _ => true
  | _ => false

theorem decodeRm_eq_iff (b : BitVec 3) (rm : RmField) : decodeRm b = rm ↔ b = rm.number := by
  cases rm with
  | mode m => cases m <;> revert b <;> decide
  | _ => revert b; decide

/-- The opcode map gives a command exactly where OP is its opcode and, if it reads them, RM and NEG are its own. -/
theorem decodeOp_eq_some_iff (op : BitVec 8) (b : BitVec 3) (neg : Bool) (i : Instr) :
    decodeOp op (decodeRm b) neg = some i ↔
      op = i.opcode ∧ (i.readsMode = true → b = i.rmBits ∧ neg = i.negBit) := by
  constructor
  · intro h
    have hop : op.toNat = i.opcode.toNat := by
      unfold decodeOp at h
      split at h <;> cases h <;> assumption
    obtain rfl := BitVec.eq_of_toNat_eq hop
    refine ⟨rfl, fun hread => ?_⟩
    cases i with
    | shrRound rm n =>
      obtain ⟨hrm, rfl⟩ : decodeRm b = rm ∧ neg = n := by simpa [decodeOp, Instr.opcode] using h
      exact ⟨(decodeRm_eq_iff b rm).1 hrm, rfl⟩
    | rtm rm n =>
      obtain ⟨hrm, rfl⟩ : decodeRm b = rm ∧ neg = n := by simpa [decodeOp, Instr.opcode] using h
      exact ⟨(decodeRm_eq_iff b rm).1 hrm, rfl⟩
    | _ => cases hread
  · rintro ⟨rfl, hmode⟩
    cases i with
    | shrRound rm n =>
      obtain ⟨hb, rfl⟩ := hmode rfl
      rw [(decodeRm_eq_iff b rm).2 hb]
      rfl
    | rtm rm n =>
      obtain ⟨hb, rfl⟩ := hmode rfl
      rw [(decodeRm_eq_iff b rm).2 hb]
      rfl
    | _ => rfl

theorem decode_eq_ok_iff_fields (w : Word) (i : Instr) :
    decode w = .ok i ↔ cmdReserved w = 0 ∧ cmdOp w = i.opcode ∧
      (i.readsMode = true → cmdRm w = i.rmBits ∧ cmdNeg w = i.negBit) := by
  rw [← decodeOp_eq_some_iff, decode]
  split
  · split <;> simp [*]
  · next h => exact ⟨fun hd => (by cases hd), fun hd => absurd hd.1 h⟩

/-- The care bits are all bits but those of RM and NEG, which count for the commands that read them. -/
theorem careMask_eq (i : Instr) :
    i.careMask = wordOfFields (BitVec.allOnes 52) i.readsMode (if i.readsMode then BitVec.allOnes 3 else 0)
      (BitVec.allOnes 8) := by
  have all : 0xFFFFFFFFFFFFFFFF#64 = wordOfFields (BitVec.allOnes 52) true (BitVec.allOnes 3) (BitVec.allOnes 8) := by
    decide
  have noMode : 0xFFFFFFFFFFFFF0FF#64 = wordOfFields (BitVec.allOnes 52) false 0 (BitVec.allOnes 8) := by decide
  cases i with
  | shrRound rm neg => exact all
  | rtm rm neg => exact all
  | _ => exact noMode

theorem modeBits_of_not_readsMode {i : Instr} (h : i.readsMode = false) : i.rmBits = 0 ∧ i.negBit = false := by
  cases i with
  | shrRound rm neg => cases h
  | rtm rm neg => cases h
  | _ => exact ⟨rfl, rfl⟩

theorem and_wordOfFields (r r' : BitVec 52) (n n' : Bool) (m m' : BitVec 3) (o o' : BitVec 8) :
    wordOfFields r n m o &&& wordOfFields r' n' m' o' =
      wordOfFields (r &&& r') (n && n') (m &&& m') (o &&& o') := by
  unfold wordOfFields
  rw [BitVec.and_append, BitVec.and_append, BitVec.and_append, BitVec.ofBool_and_ofBool]

/-- The care bits of a word are those of a command's encoding exactly where the fields that matter are. -/
theorem and_careMask_eq_encode_iff (w : Word) (i : Instr) :
    w &&& i.careMask = encode i ↔ cmdReserved w = 0 ∧ cmdOp w = i.opcode ∧
      (i.readsMode = true → cmdRm w = i.rmBits ∧ cmdNeg w = i.negBit) := by
  conv_lhs => rw [← wordOfFields_fields w]
  rw [careMask_eq, and_wordOfFields, encode, cmdWord_eq_wordOfFields, wordOfFields_inj, BitVec.and_allOnes,
    BitVec.and_allOnes]
  cases h : i.readsMode with
  | true => simp only [if_true, BitVec.and_allOnes, Bool.and_true, forall_true_left, and_comm, and_left_comm]
  | false => simp [modeBits_of_not_readsMode h]

/-- Settles O2: both sides say the same of the fields of the word, and a command word's number is the sum of its fields. -/
theorem decodeAcceptsExactlyTheEncodings : Obligations.DecodeAcceptsExactlyTheEncodings := fun w i =>
  ⟨(decode_eq_ok_iff_fields w i).trans (and_careMask_eq_encode_iff w i).symm, cmdWord_toNat ..⟩

end Sys2Proof
end

section
/-!
PROOFS. The sub-limb shifts: the count check is the spec's, and after it the value is a residue mod `B^XL`, its
complement, or no more than x (41_shift.md R130, R133, R134, R137).
-/
namespace Sys2Proof.Machine

/-- The count check, worded as the spec words it. -/
theorem ite_subLimbCount {α : Type} (o : Operands) (a b : α) :
    (if subLimbCount o then a else b) = if o.a0 < 1 ∨ o.a0 > o.w - 1 then b else a := by
  by_cases h : subLimbCount o = true
  · rw [if_pos h, if_neg]
    obtain ⟨hlo, hhi⟩ := (subLimbCount_iff o).1 h
    omega
  · rw [if_neg h, if_pos]
    rw [subLimbCount_iff] at h
    omega

/-- The sub-limb shifts share their one check, so only the result is left to compare. -/
theorem follows_of_subLimbRule {word : Word} {i : Instr} {k : DestKind} {h : Shape} {r : Operands → CmdResult}
    {answer : SpecRule} (hw : i.wellFormed = true) (hdec : decode word = .ok i) (hrow : rowOf i = ⟨true, false, k⟩)
    (hshape : Row.HasShape ⟨true, false, k⟩ h)
    (hrule : ruleOf i = fun o => if subLimbCount o then .ok (r o) else .error .ebits)
    (hagrees : ∀ s x y, x < 2 ^ (s.w * s.xlen.toNat) →
      Agrees s.w (h.cap s) (.ok (r (xOperands k s x))) (answer s x y)) :
    Follows word i h (fun s x y =>
      if s.arg0.toNat < 1 ∨ s.arg0.toNat > s.w - 1 then .code 8 else answer s x y) := by
  refine follows_of_readsX hw hdec hrow hshape fun s x y hx => ?_
  rw [hrule]
  dsimp only
  rw [ite_subLimbCount]
  exact .ite (fun _ => agrees_code .ebits) fun _ => hagrees s x y hx

/-- What a complement mod `2^n` leaves fits `n` bits. -/
theorem two_pow_sub_one_sub_lt (n v : Nat) : 2 ^ n - 1 - v < 2 ^ n := by
  have : 0 < 2 ^ n := by positivity
  omega

/-- Settles O37: SHL_SUB writes a residue mod `B^XL`, and SHLC its complement. -/
theorem subLimbLeftShifts : Obligations.SubLimbLeftShifts := by
  refine ⟨follows_of_subLimbRule rfl Laws.RoundTrip.shlSub.1 rfl (Row.hasShape_self true false) rfl fun s x _ _ => ?plain,
    follows_of_subLimbRule rfl Laws.RoundTrip.shlc.1 rfl (Row.hasShape_out true false) rfl fun s x _ _ => ?complement⟩
  case plain => exact agrees_ok (Nat.mod_lt _ (by positivity)) _
  case complement =>
    rw [notBits_eq, Nat.mod_mod]
    exact agrees_ok (two_pow_sub_one_sub_lt ..) _

/-- Settles O39: the quotient is at most x. -/
theorem subLimbRightShift : Obligations.SubLimbRightShift :=
  follows_of_subLimbRule rfl Laws.RoundTrip.shrSub.1 rfl (Row.hasShape_self true false) rfl fun _ _ _ hx =>
    agrees_ok ((Nat.div_le_self ..).trans_lt hx) _

end Sys2Proof.Machine
end

section
/-!
PROOFS. Rounding: the model's rounded quotient is the spec's, it is the quotient or one more, so SHR_ROUND needs at most one
limb more than the shifted operand, and RTM the trimmed length of the multiple (42_round_mod.md R151 to R153, R156 to R158).
-/
namespace Sys2Proof.Machine

/-- Nearest, worded as the spec words it (R151): the discarded bits against half a unit, ties to even. -/
theorem roundNearest_eq (x b : Nat) :
    roundNearest x b =
      if b = 0 ∨ x % 2 ^ b < 2 ^ (b - 1) then x / 2 ^ b
      else if x % 2 ^ b > 2 ^ (b - 1) then x / 2 ^ b + 1
      else x / 2 ^ b + x / 2 ^ b % 2 := by
  simp only [roundNearest, divPow2_eq, modPow2_eq, cmpPow2_eq]
  by_cases hb : b = 0
  · rw [if_pos hb, if_pos (.inl hb)]
  · rw [if_neg hb]
    rcases lt_trichotomy (x % 2 ^ b) (2 ^ (b - 1)) with h | h | h
    · rw [compare_lt_iff_lt.2 h, if_pos (.inr h)]
    · rw [compare_eq_iff_eq.2 h, if_neg (by omega), if_neg (by omega)]
    · rw [compare_gt_iff_gt.2 h, if_neg (by omega), if_pos h]

/-- Up adds the one bit that the spec's case distinction adds (R151). -/
theorem add_ite_lostBits (q rm : Nat) : (q + if rm = 0 then 0 else 1) = if rm = 0 then q else q + 1 := by
  split <;> rfl

/-- The rounded quotient of the model is the spec's; EINEXACT is raised where the spec has none (R151, R152). -/
theorem roundQ_effMode (x b : Nat) (m : RoundMode) (neg : Bool) :
    roundQ x b (effMode m neg) = (specRound x b m neg).elim (.error .einexact) .ok := by
  cases m with
  | nearest => simp [effMode, roundQ, specRound, roundNearest_eq]
  | exact => by_cases h : x % 2 ^ b = 0 <;> simp [effMode, roundQ, specRound, h]
  | _ => cases neg <;> simp [effMode, roundQ, specRound, add_ite_lostBits]

/-- Rounding gives the quotient or the next number. -/
theorem specRound_le {x b v : Nat} {m : RoundMode} {neg : Bool} (h : specRound x b m neg = some v) :
    v ≤ x / 2 ^ b + 1 := by
  have hbit : x / 2 ^ b % 2 < 2 := Nat.mod_lt _ two_pos
  cases m <;> simp only [specRound, Option.some.injEq, Option.ite_none_right_eq_some] at h
  all_goals repeat' split at h
  all_goals omega

/-- Where a value is at most `B^n`, one limb more than `n` is enough, and is needed for `B^n` alone. -/
theorem lt_two_pow_of_le {w n v : Nat} (hw : 0 < w) (hv : v ≤ 2 ^ (w * n)) :
    v < 2 ^ (w * if v < 2 ^ (w * n) then n else n + 1) := by
  split
  · assumption
  · exact hv.trans_lt (Nat.pow_lt_pow_right one_lt_two (Nat.mul_lt_mul_of_pos_left n.lt_succ_self hw))

theorem decode_shrRoundWord (m : RoundMode) (neg : Bool) :
    decode (BitVec.ofNat 64 (0x32 + 2 ^ 8 * m.number.toNat + 2 ^ 11 * neg.toNat)) = .ok (.shrRound (.mode m) neg) := by
  cases m <;> cases neg <;> rfl

theorem decode_rtmWord (m : RoundMode) (neg : Bool) :
    decode (BitVec.ofNat 64 (0x33 + 2 ^ 8 * m.number.toNat + 2 ^ 11 * neg.toNat)) = .ok (.rtm (.mode m) neg) := by
  cases m <;> cases neg <;> rfl

/-- Settles O42: a legal mode rounds as the spec does, and the reserved ones raise ERM. -/
theorem shrRoundRounds : Obligations.ShrRoundRounds := by
  refine ⟨fun m neg => follows_of_readsX rfl (decode_shrRoundWord m neg) rfl
    (Row.hasShape_out true false) fun s x _ hx => ?_, fun neg s => ⟨rfl, rfl⟩⟩
  simp only [ruleOf, shrRoundRule, xOperands, roundQ_effMode]
  cases hv : specRound x s.arg0.toNat m neg with
  | none => exact agrees_code .einexact
  | some v =>
    have hle : v ≤ 2 ^ (s.w * (s.xlen.toNat - s.arg0.toNat / s.w)) :=
      (specRound_le hv).trans (div_two_pow_lt_shrLength _ hx)
    simp only [Option.elim_some, orderShifted_eq]
    exact agrees_ok (lt_two_pow_of_le s.w_pos hle) _

/-- Settles O43: the length covers the trimmed length of the multiple. -/
theorem rtmRoundsToAMultiple : Obligations.RtmRoundsToAMultiple := by
  refine ⟨fun m neg => follows_of_readsX rfl (decode_rtmWord m neg) rfl
    (Row.hasShape_out true false) fun s x _ hx => ?_, fun neg s => ⟨rfl, rfl⟩⟩
  simp only [ruleOf, rtmRule, xOperands, roundQ_effMode]
  cases hv : specRound x s.arg0.toNat m neg with
  | none => exact agrees_code .einexact
  | some q =>
    simp only [Option.elim_some, orderShifted_eq, mulPow2_eq, nlenShifted_eq _ _ _ s.w_pos]
    exact agrees_ok ((nlen_le_iff s.w_pos _ _).1 (le_max_right ..)) _

/-! ### The rounding laws (R158) -/

/-- Where a bit is lost there is a bit to lose, so the unit has a half. -/
theorem two_pow_eq_two_mul_half {x b : Nat} (h : x % 2 ^ b ≠ 0) : b ≠ 0 ∧ 2 ^ b = 2 * 2 ^ (b - 1) := by
  cases b with
  | zero => exact absurd (by rw [pow_zero, Nat.mod_one]) h
  | succ k => exact ⟨k.succ_ne_zero, by rw [Nat.add_sub_cancel, pow_succ']⟩

/-- With no bit lost every mode gives the quotient. -/
theorem specRound_of_exact {x b : Nat} (h : x % 2 ^ b = 0) (m : RoundMode) (neg : Bool) :
    specRound x b m neg = some (x / 2 ^ b) := by
  cases m <;> cases neg <;> simp [specRound, h]

/-- With a bit lost Nearest compares the lost bits with half a unit, and takes the even number on a tie. -/
theorem specRound_nearest_of_lost {x b : Nat} (h : x % 2 ^ b ≠ 0) (neg : Bool) :
    specRound x b .nearest neg = some (
      if 2 * (x % 2 ^ b) < 2 ^ b then x / 2 ^ b
      else if 2 * (x % 2 ^ b) > 2 ^ b then x / 2 ^ b + 1
      else x / 2 ^ b + x / 2 ^ b % 2) := by
  obtain ⟨hb, hhalf⟩ := two_pow_eq_two_mul_half h
  have hlt : 2 * (x % 2 ^ b) < 2 ^ b ↔ b = 0 ∨ x % 2 ^ b < 2 ^ (b - 1) := by omega
  have hgt : 2 * (x % 2 ^ b) > 2 ^ b ↔ x % 2 ^ b > 2 ^ (b - 1) := by omega
  simp only [specRound, hlt, hgt]

/-- Taking the even number: the quotient where it is even, else the next. -/
theorem add_mod_two (q : Nat) : q + q % 2 = if q % 2 = 0 then q else q + 1 := by
  split <;> omega

/-- Settles O58: every clause is read off the spec's rounded quotient, which the model's is. -/
theorem roundingLaws : Obligations.RoundingLaws := by
  intro x b neg
  dsimp only
  simp only [roundQ_effMode]
  refine ⟨fun h m => ?noLoss, fun h => ⟨?lower, ?upper, fun hlt => ?below, fun hgt => ?above, fun htie => ?tie⟩, ?exact⟩
  case noLoss => rw [specRound_of_exact h, Option.elim_some]
  case lower => cases neg <;> simp [specRound]
  case upper => cases neg <;> simp [specRound, h]
  case below => rw [specRound_nearest_of_lost h, if_pos hlt, Option.elim_some]
  case above => rw [specRound_nearest_of_lost h, if_neg (by omega), if_pos hgt, Option.elim_some]
  case tie => rw [specRound_nearest_of_lost h, if_neg (by omega), if_neg (by omega), add_mod_two, Option.elim_some]
  case exact => by_cases h : x % 2 ^ b = 0 <;> simp [specRound, h]

end Sys2Proof.Machine
end

section
/-!
PROOFS. The mixed and one-limb forms of XOR of a negative, and bits assigned to a negative: the + 1 of the magnitude can
carry out of the longer operand, and the placed bits are part of the value (43_twos_complement.md R175 to R177, R181).
-/
namespace Sys2Proof.Machine

/-! ### The + 1 of a negative's magnitude (R175, R176) -/

/-- The magnitude is at most `B^n` where both operands have `n` limbs, so one limb more is enough. -/
theorem agrees_xorPosNeg {w n x y : Nat} (hw : 0 < w) (hx : x < 2 ^ (w * n)) (hy : y < 2 ^ (w * n)) (cap : Nat) :
    Agrees w cap (.ok (xorPosNeg w n x y))
      (.result (if (x ^^^ (y - 1)) + 1 < 2 ^ (w * n) then n else n + 1) ((x ^^^ (y - 1)) + 1) 0) :=
  agrees_ok (lt_two_pow_of_le hw (BitOp.keepsWidth_xor hx ((Nat.sub_le y 1).trans_lt hy))) cap

/-- A number of `m` limbs has no more than `n` where `m` is at most `n`. -/
theorem lt_two_pow_mul_of_le {w m n v : Nat} (hv : v < 2 ^ (w * m)) (hmn : m ≤ n) : v < 2 ^ (w * n) :=
  hv.trans_le (Nat.pow_le_pow_right two_pos (Nat.mul_le_mul_left w hmn))

/-- The limb operand has one limb (10_state.md R27). -/
theorem limbArg_lt (w a : Nat) : a % 2 ^ w < 2 ^ (w * 1) := by
  rw [Nat.mul_one]
  exact Nat.mod_lt _ (by positivity)

/-- Settles O46: after the two checks on Y, both operands have the limbs of the longer. -/
theorem xorOfPositiveAndNegative : Obligations.XorOfPositiveAndNegative :=
  follows_of_readsBoth rfl Laws.RoundTrip.xorPn.1 rfl (Row.hasShape_out true true) fun s _ _ hx hy =>
    .ite (fun _ => agrees_code .eempty) fun _ => .ite (fun _ => agrees_code .ezero) fun _ =>
      agrees_xorPosNeg s.w_pos (lt_two_pow_mul_of_le hx (le_max_left ..)) (lt_two_pow_mul_of_le hy (le_max_right ..)) _

/-- Settles O47: Y is a one-limb number, which XOR_PLN takes for the one limb it writes at least, and XOR_NLN for one limb
of the X it checks not to be empty. -/
theorem xorWithAOneLimbNegative : Obligations.XorWithAOneLimbNegative := by
  refine ⟨follows_of_readsX rfl Laws.RoundTrip.xorPln.1 rfl (Row.hasShape_out true false) fun s x _ hx =>
      .ite (fun _ => agrees_code .ezero) fun _ => ?positive,
    follows_of_readsX rfl Laws.RoundTrip.xorNln.1 rfl (Row.hasShape_out true false) fun s x _ hx =>
      .ite (fun _ => agrees_code .eempty) fun hlen => .ite (fun _ => agrees_code .ezero) fun _ => ?negative⟩
  case positive =>
    exact agrees_xorPosNeg s.w_pos (lt_two_pow_mul_of_le hx (le_max_left ..))
      (lt_two_pow_mul_of_le (limbArg_lt ..) (le_max_right ..)) _
  case negative =>
    have hy : s.arg1.toNat % 2 ^ s.w < 2 ^ (s.w * s.xlen.toNat) :=
      lt_two_pow_mul_of_le (limbArg_lt ..) (Nat.one_le_iff_ne_zero.2 hlen)
    exact agrees_ok (BitOp.keepsWidth_xor ((Nat.sub_le ..).trans_lt hx) ((Nat.sub_le ..).trans_lt hy)) _

/-- Settles O51: the complemented bits are the placed ones, and the value is no less than they are. -/
theorem asgbOnANegative : Obligations.AsgbOnANegative := by
  refine follows_of_readsBoth rfl Laws.RoundTrip.asgbN.1 rfl (Row.hasShape_ipl true true) fun s x y _ _ =>
    .ite (fun _ => agrees_code .eempty) fun _ => .ite (fun _ => agrees_code .ezero) fun _ =>
      .ite (fun _ => agrees_code .edomain) fun _ => ?_
  have hu : modPow2 y (s.arg1.toNat - s.arg0.toNat) < 2 ^ (s.arg1.toNat - s.arg0.toNat) := by
    rw [modPow2_eq]
    exact Nat.mod_lt _ (by positivity)
  simp only [xyOperands, sigbitsNot_eq hu, spliceBits_eq, notBits_eq, Nat.mod_eq_of_lt hu]
  simp only [modPow2_eq]
  exact agrees_of_placedBits _ s.w_pos ((Nat.le_add_left ..).trans (Nat.le_succ _))

end Sys2Proof.Machine
end

section
/-!
PROOFS. What a command leaves when it reports no error: what its rule answers, written out. The laws that the spec derives
from the rules are read off these answers (41_shift.md R138; 43_twos_complement.md R183, R184).
-/
namespace Sys2Proof.Machine

/-! ### A command that reports no error -/

/-- What a state shows of an answer of the spec where the command reported code 0. -/
def SpecAnswer.Written (s t : State) (d cap : Nat) : SpecAnswer → Prop
  | .code c => c = 0
  | .result L v aux => Committed s t d cap L v aux
  | .eitherOf L v v' aux => Committed s t d cap L v aux ∨ Committed s t d cap L v' aux

/-- Where a check raises a code other than 0, a command that reports none passed it. -/
theorem SpecAnswer.Written.of_check {s t : State} {d cap : Nat} {c : Prop} [Decidable c] {e : BitVec 8} {a : SpecAnswer}
    (h : (if c then .code e else a).Written s t d cap) (he : e ≠ 0) : ¬ c ∧ a.Written s t d cap := by
  split at h
  · exact absurd h he
  · exact ⟨‹_›, h⟩

theorem ecode_of_raises {i : Instr} {s t : State} {c : BitVec 8} (hr : Raises i s c) (he : exec i s = .next t) :
    t.ecode = c := by
  rw [hr] at he
  cases he
  rfl

theorem committed_of_completes {i : Instr} {s t : State} {d cap L v aux : Nat} (h : Completes i s d cap L v aux)
    (he : exec i s = .next t) : Committed s t d cap L v aux := by
  obtain ⟨t', he', hc⟩ := h
  rw [he] at he'
  cases he'
  exact hc

section
variable {word : Word} {i : Instr} {h : Shape} {rule : SpecRule} {s t : State} {x y : Nat}
  (hf : Follows word i h rule) (he : exec i s = .next t) (hc : t.ecode = 0)
include hf he hc

/-- A command that reports no error had its regions in LM. -/
theorem Follows.inside : Inside h s := by
  by_contra hin
  have hcode : t.ecode = 3 := ecode_of_raises ((hf.2 s).1 hin) he
  rw [hc] at hcode
  exact absurd hcode (by decide)

/-- A command that reports no error wrote what its rule answers. -/
theorem Follows.written (ho : Operand h s x y) : (rule s x y).Written s t (h.d s) (h.cap s) := by
  have hm : Meets i s (h.d s) (h.cap s) (rule s x y) := (hf.2 s).2 (hf.inside he hc) x y ho
  have fits {L : Nat} (htooLong : h.cap s < L → Raises i s 11) : L ≤ h.cap s := by
    by_contra hL
    have hcode : t.ecode = 11 := ecode_of_raises (htooLong (not_le.1 hL)) he
    rw [hc] at hcode
    exact absurd hcode (by decide)
  cases hr : rule s x y with
  | code c =>
    rw [hr] at hm
    exact (ecode_of_raises hm he).symm.trans hc
  | result L v aux =>
    rw [hr] at hm
    exact committed_of_completes (hm.1 (fits hm.2)) he
  | eitherOf L v v' aux =>
    rw [hr] at hm
    exact (hm.1 (fits hm.2)).imp (committed_of_completes · he) (committed_of_completes · he)

end

/-! ### The result region after a success -/

section
variable {s t : State} {d cap L v aux : Nat} (h : Committed s t d cap L v aux)
include h

theorem Committed.w_eq : t.w = s.w := by rw [h.registers]; rfl

theorem Committed.cfg_eq : t.cfg = s.cfg := by rw [h.registers]

/-- RLEN reads as the written length: the destination lies in LM, whose size has 32 bits (00_scope.md R6). -/
theorem Committed.rlen_toNat (hcap : cap < 2 ^ 64) : t.rlen.toNat = L := by
  rw [h.registers, BitVec.toNat_ofNat]
  exact Nat.mod_eq_of_lt (h.room.trans_lt hcap)

/-- The result region holds the value. -/
theorem Committed.holds (hcap : cap < 2 ^ 64) : Holds t d t.rlen.toNat v := by
  rw [h.rlen_toNat hcap, Holds, h.w_eq]
  exact ⟨h.fits, h.result⟩

end

/-! ### SHR after SHL (41_shift.md R138 (a)) -/

/-- SHR where its regions lie in LM and its capacity holds the result (R135). -/
theorem completes_shr {s : State} {x : Nat} (hin : Inside (.out true false) s)
    (hx : Holds s s.xbase.toNat s.xlen.toNat x) (hroom : s.xlen.toNat - s.arg0.toNat / s.w ≤ s.ocap.toNat) :
    Completes .shr s s.obase.toNat s.ocap.toNat (s.xlen.toNat - s.arg0.toNat / s.w) (x / 2 ^ s.arg0.toNat)
      (if x % 2 ^ s.arg0.toNat ≠ 0 then 1 else 0) :=
  ((shrDividesByAPowerOfTwo.1.2 s).2 hin x 0 ⟨fun _ => hx, fun e => by cases e⟩).1 hroom

/-- Settles O57: the result region of SHL holds `x * 2^k`, which SHR divides by `2^k` again. -/
theorem shrAfterShlGivesXBack : Obligations.ShrAfterShlGivesXBack := by
  intro s t x ob oc hx he hc hin hroom
  have hwritten := shlMultipliesByAPowerOfTwo.1.written he hc (y := 0) ⟨fun _ => hx, fun e => by cases e⟩
  obtain ⟨-, -, hdest⟩ := shlMultipliesByAPowerOfTwo.1.inside he hc
  have harg : t.arg0 = s.arg0 := by rw [hwritten.registers]
  have hcap : s.ocap.toNat < 2 ^ 64 := s.ocap.isLt
  have hregion : s.obase.toNat + t.rlen.toNat ≤ t.cfg.lmLimbs := by
    rw [hwritten.rlen_toNat hcap, hwritten.cfg_eq]
    exact (Nat.add_le_add_left hwritten.room _).trans hdest
  have hhold := hwritten.holds hcap
  rw [← harg] at hhold
  rw [← harg, ← hwritten.w_eq] at hroom ⊢
  rw [← hwritten.cfg_eq] at hin
  have hshr := completes_shr (s := { t with xbase := s.obase, xlen := t.rlen, obase := ob, ocap := oc })
    ⟨fun _ => hregion, fun e => (by cases e), hin⟩ hhold hroom
  rwa [Nat.mul_div_cancel _ (by positivity), Nat.mul_mod_left, if_neg (not_not.2 rfl)] at hshr

/-! ### XOR_NN limb by limb (43_twos_complement.md R183) -/

theorem xor_digit (w a b i : Nat) :
    (a ^^^ b) / 2 ^ (w * i) % 2 ^ w = (a / (2 ^ w) ^ i % 2 ^ w) ^^^ (b / (2 ^ w) ^ i % 2 ^ w) := by
  rw [Nat.xor_div_two_pow, Nat.xor_mod_two_pow, pow_mul]

/-- XOR with a limb of ones is the complement. -/
theorem xor_two_pow_sub_one {w a : Nat} (ha : a < 2 ^ w) : a ^^^ (2 ^ w - 1) = 2 ^ w - 1 - a := by
  apply Nat.eq_of_testBit_eq
  intro i
  rw [Nat.sub_sub, Nat.add_comm 1, Nat.testBit_two_pow_sub_succ ha, Nat.testBit_xor, Nat.testBit_two_pow_sub_one]
  by_cases hi : i < w
  · simp [hi]
  · simp [hi, Nat.testBit_lt_two_pow (ha.trans_le (Nat.pow_le_pow_right two_pos (not_lt.1 hi)))]

/-- The limbs of the XOR of two decremented numbers `p` and `q` by their pivots, `p` having the lower one. -/
theorem xor_sub_one_digit {w p q lo hi : Nat} (hle : lo ≤ hi) (hp : p / (2 ^ w) ^ lo % 2 ^ w ≠ 0)
    (hpz : ∀ j, j < lo → p / (2 ^ w) ^ j % 2 ^ w = 0) (hq : q / (2 ^ w) ^ hi % 2 ^ w ≠ 0)
    (hqz : ∀ j, j < hi → q / (2 ^ w) ^ j % 2 ^ w = 0) (i : Nat) :
    ((p - 1) ^^^ (q - 1)) / 2 ^ (w * i) % 2 ^ w =
      if i < lo then 0
      else if i = lo then
        if lo < hi then (2 ^ w - p / (2 ^ w) ^ lo % 2 ^ w) % 2 ^ w
        else (p / (2 ^ w) ^ lo % 2 ^ w - 1) ^^^ (q / (2 ^ w) ^ lo % 2 ^ w - 1)
      else if i < hi then 2 ^ w - 1 - p / (2 ^ w) ^ i % 2 ^ w
      else if i = hi then p / (2 ^ w) ^ hi % 2 ^ w ^^^ (q / (2 ^ w) ^ hi % 2 ^ w - 1)
      else p / (2 ^ w) ^ i % 2 ^ w ^^^ q / (2 ^ w) ^ i % 2 ^ w := by
  have hlt (v : Nat) : v % 2 ^ w < 2 ^ w := Nat.mod_lt v (by positivity)
  have hplo := hlt (p / (2 ^ w) ^ lo)
  rw [xor_digit, digit_sub_one hp hpz, digit_sub_one hq hqz]
  rcases lt_trichotomy i lo with h | rfl | h
  · simp [h, h.trans_le hle]
  · rcases hle.lt_or_eq with hlh | rfl
    · simp only [lt_irrefl, if_false, if_true, hlh]
      have hcompl : 2 ^ w - p / (2 ^ w) ^ i % 2 ^ w < 2 ^ w := by omega
      rw [xor_two_pow_sub_one (by omega), Nat.mod_eq_of_lt hcompl]
      omega
    · simp
  · simp only [h.not_gt, h.ne', if_false]
    rcases lt_trichotomy i hi with h' | rfl | h'
    · simp only [h', if_true]
      exact xor_two_pow_sub_one (hlt _)
    · simp
    · simp only [h'.not_gt, h'.ne', if_false]

/-- The value XOR_NN wrote where it reports no error (R172). -/
theorem committed_xorNn {s t : State} {x y : Nat} (ho : Operand (.out true true) s x y) (he : exec .xorNn s = .next t)
    (hc : t.ecode = 0) :
    Committed s t s.obase.toNat s.ocap.toNat (max s.xlen.toNat s.ylen.toNat) ((x - 1) ^^^ (y - 1)) 0 := by
  obtain ⟨-, hzero⟩ := (xorOfTwoNegatives.1.written he hc ho).of_check (by decide)
  exact (hzero.of_check (by decide)).2

/-- Settles O59: the XOR is symmetric in the operands, so the one of the lower pivot may stand first. -/
theorem xorOfTwoNegativesLimbByLimb : Obligations.XorOfTwoNegativesLimbByLimb := by
  intro s t x y ix iy i ho he hc
  dsimp only
  intro hx hxz hy hyz hi
  rw [(committed_xorNn ho he hc).result i hi]
  by_cases hle : ix ≤ iy
  · rw [xor_sub_one_digit hle hx hxz hy hyz, min_eq_left hle, max_eq_right hle, if_pos hle, if_pos hle]
  · have hlt : iy < ix := not_le.1 hle
    rw [Nat.xor_comm (x - 1), xor_sub_one_digit hlt.le hy hyz hx hxz, min_eq_right hlt.le, max_eq_left hlt.le,
      if_neg hle, if_neg hle, if_pos hlt, if_pos hlt, Nat.xor_comm (y / (2 ^ s.w) ^ i % _)]

/-! ### GETB_N by the trailing zeros (43_twos_complement.md R184) -/

/-- One less than a positive number, divided: the borrow reaches the quotient where nothing is left over. -/
theorem sub_one_div {x : Nat} (hx : 0 < x) (d : Nat) : (x - 1) / d = if d ∣ x then x / d - 1 else x / d := by
  obtain ⟨p, rfl⟩ : ∃ p, x = p + 1 := ⟨x - 1, by omega⟩
  rw [Nat.add_sub_cancel, Nat.succ_div]
  split <;> rfl

/-- A power of two divides a number exactly where it asks for no more zeros than the number ends in. -/
theorem two_pow_dvd_iff {x tz : Nat} (hz : x % 2 ^ tz = 0) (hone : x / 2 ^ tz % 2 = 1) (k : Nat) :
    2 ^ k ∣ x ↔ k ≤ tz := by
  constructor
  · intro hk
    by_contra hlt
    have hd : 2 ^ (tz + 1) ∣ x := (pow_dvd_pow 2 (by omega)).trans hk
    rw [pow_succ] at hd
    have heven : 2 ∣ x / 2 ^ tz := Nat.dvd_div_of_mul_dvd hd
    omega
  · intro hk
    exact (pow_dvd_pow 2 hk).trans (Nat.dvd_of_mod_eq_zero hz)

/-- The complement of one less is the two's complement. -/
theorem complement_sub_one_mod {k : Nat} (hk : 0 < k) (w : Nat) :
    2 ^ w - 1 - (k - 1) % 2 ^ w = (2 ^ w - k % 2 ^ w) % 2 ^ w := by
  obtain ⟨p, rfl⟩ : ∃ p, k = p + 1 := ⟨k - 1, by omega⟩
  have hlt : p % 2 ^ w < 2 ^ w := Nat.mod_lt p (by positivity)
  rw [Nat.add_sub_cancel, ← Nat.mod_add_mod p]
  by_cases hc : p % 2 ^ w + 1 = 2 ^ w
  · rw [hc, Nat.mod_self, Nat.sub_zero, Nat.mod_self]
    omega
  · have hstep : p % 2 ^ w + 1 < 2 ^ w := by omega
    have hcompl : 2 ^ w - (p % 2 ^ w + 1) < 2 ^ w := by omega
    rw [Nat.mod_eq_of_lt hstep, Nat.mod_eq_of_lt hcompl]
    omega

/-- The window of the complement of `x - 1` by the trailing zeros of `x`, `k` bits being room for x. -/
theorem complement_window_cases {x tz k a0 a1 : Nat} (hx : x < 2 ^ k) (hz : x % 2 ^ tz = 0)
    (hone : x / 2 ^ tz % 2 = 1) (ha : a0 ≤ a1) :
    2 ^ (a1 - a0) - 1 - (x - 1) / 2 ^ a0 % 2 ^ (a1 - a0) =
      if tz ≥ a1 then 0
      else if a0 ≥ k then 2 ^ (a1 - a0) - 1
      else if a0 ≤ tz then (2 ^ (a1 - a0) - x / 2 ^ a0 % 2 ^ (a1 - a0)) % 2 ^ (a1 - a0)
      else 2 ^ (a1 - a0) - 1 - x / 2 ^ a0 % 2 ^ (a1 - a0) := by
  have hpos : 0 < x := Nat.pos_of_ne_zero (by rintro rfl; simp at hone)
  have hdvd := two_pow_dvd_iff hz hone
  have borrow (h : a0 ≤ tz) : 2 ^ (a1 - a0) - 1 - (x - 1) / 2 ^ a0 % 2 ^ (a1 - a0) =
      (2 ^ (a1 - a0) - x / 2 ^ a0 % 2 ^ (a1 - a0)) % 2 ^ (a1 - a0) := by
    have hd : 2 ^ a0 ∣ x := (hdvd a0).2 h
    rw [sub_one_div hpos, if_pos hd, complement_sub_one_mod (Nat.div_pos (Nat.le_of_dvd hpos hd) (by positivity))]
  split_ifs with h1 h2 h3
  · have hd : 2 ^ (a1 - a0) ∣ x / 2 ^ a0 := by
      apply Nat.dvd_div_of_mul_dvd
      rw [← pow_add, Nat.add_sub_cancel' ha]
      exact (hdvd a1).2 h1
    rw [borrow (ha.trans h1), Nat.mod_eq_zero_of_dvd hd, Nat.sub_zero, Nat.mod_self]
  · have hlt : x - 1 < 2 ^ a0 := (Nat.sub_le x 1).trans_lt (hx.trans_le (Nat.pow_le_pow_right two_pos h2))
    rw [Nat.div_eq_of_lt hlt, Nat.zero_mod, Nat.sub_zero]
  · exact borrow h3
  · rw [sub_one_div hpos, if_neg (mt (hdvd a0).1 h3)]

/-- Settles O60: the window of TC(x) is the complement of that of `x - 1`, whose borrow runs through the trailing zeros. -/
theorem getbOfANegativeThreeCases : Obligations.GetbOfANegativeThreeCases := by
  intro s t x tz hx he hc hz hone
  dsimp only
  have hw := getbOfANegative.written he hc (y := 0) ⟨fun _ => hx, fun e => by cases e⟩
  obtain ⟨-, hw⟩ := hw.of_check (by decide)
  obtain ⟨h0, hw⟩ := hw.of_check (by decide)
  obtain ⟨ha, hw⟩ := hw.of_check (by decide)
  have hhold := hw.holds s.ocap.isLt
  rw [← notBits_window h0 hx.1 (not_lt.1 ha), notBits_eq, divPow2_eq,
    complement_window_cases hx.1 hz hone (not_lt.1 ha)] at hhold
  exact hhold

end Sys2Proof.Machine
end

section
/-!
PROOFS. What any command can do, said once with what its operands and its rule answered, and what follows for every command:
its completions, the codes it reports, the registers it depends on, and the fault of an operand limb never written
(30_encoding.md R87 to R89; 60_exceptions.md R221, R227).
-/
namespace Sys2Proof.Machine

/-! ### Operand reads that meet a limb never written (60_exceptions.md R227; log 12) -/

theorem readIf_eq_error_iff {b : Bool} {s : State} {a n k : Nat} :
    readIf b s a n = .error k ↔ b = true ∧ Memory.read s.w s.lm a n = .error k := by
  cases b <;> simp [readIf]

/-- An operand read stops at a limb of X, or at one of Y once X is read. -/
theorem readOperands_eq_error_iff {r : Row} {s : State} {k : Nat} :
    readOperands r s = .error k ↔
      readIf r.readsX s s.xbase.toNat s.xlen.toNat = .error k ∨
      (∃ x, readIf r.readsX s s.xbase.toNat s.xlen.toNat = .ok x) ∧
        readIf r.readsY s s.ybase.toNat s.ylen.toNat = .error k := by
  unfold readOperands
  cases readIf r.readsX s s.xbase.toNat s.xlen.toNat with
  | error i => simp
  | ok x => cases readIf r.readsY s s.ybase.toNat s.ylen.toNat <;> simp

theorem limb?_of_readIf_error {b : Bool} {s : State} {a n k : Nat} (h : readIf b s a n = .error k) :
    s.limb? k = none := by
  obtain ⟨-, hread⟩ := readIf_eq_error_iff.1 h
  obtain ⟨j, -, rfl, hnone, -⟩ := Memory.read_eq_error_iff.1 hread
  exact hnone

theorem limb?_of_readOperands_error {r : Row} {s : State} {k : Nat} (h : readOperands r s = .error k) :
    s.limb? k = none := by
  rcases readOperands_eq_error_iff.1 h with hx | ⟨-, hy⟩
  · exact limb?_of_readIf_error hx
  · exact limb?_of_readIf_error hy

/-! ### What a command can do (30_encoding.md R88, R89) -/

/-- A command raises a code, stops at an operand limb never written, or commits what its rule answers. -/
theorem exec_cases (i : Instr) (s : State) :
    (∃ c, exec i s = .next (s.completeError c)) ∨
    (∃ k, readOperands (rowOf i) s = .error k ∧ exec i s = .fault (.neverWritten k)) ∨
    ∃ o r, i.wellFormed = true ∧ regionsInLm (rowOf i) s = true ∧ readOperands (rowOf i) s = .ok o ∧
      ruleOf i o = .ok r ∧ r.len ≤ destCap (rowOf i).dest s ∧
      exec i s = .next (s.commit (destBase (rowOf i).dest s) (destCap (rowOf i).dest s) r) := by
  cases hw : i.wellFormed with
  | false => exact .inl ⟨_, exec_of_illegal hw s⟩
  | true =>
    rw [exec_eq_runCommand hw]
    rcases runCommand_cases (rowOf i) (ruleOf i) s with ⟨-, e⟩ | ⟨k, -, hk, e⟩ | ⟨_, c, -, -, -, e⟩ |
      ⟨_, _, -, -, -, -, e⟩ | ⟨o, r, hin, ho, hr, hl, e⟩
    · exact .inl ⟨_, e⟩
    · exact .inr (.inl ⟨k, hk, e⟩)
    · exact .inl ⟨c, e⟩
    · exact .inl ⟨_, e⟩
    · exact .inr (.inr ⟨o, r, rfl, hin, ho, hr, hl, e⟩)

theorem ErrorCode.number_range (c : ErrorCode) : 1 ≤ c.number.toNat ∧ c.number.toNat ≤ 11 := by
  cases c <;> decide

/-- Settles O22: the two completions set DONE and leave IDLE, and the only fault is that of an operand read. -/
theorem everyCommandEndsInOneCompletion : Obligations.EveryCommandEndsInOneCompletion := by
  intro i s
  rcases exec_cases i s with ⟨c, e⟩ | ⟨k, hk, e⟩ | ⟨o, r, -, -, -, -, -, e⟩
  · obtain ⟨hlo, hhi⟩ := c.number_range
    exact .inl ⟨_, e, rfl, rfl, rfl, .inr ⟨hlo, hhi, rfl⟩⟩
  · exact .inr ⟨k, e, limb?_of_readOperands_error hk⟩
  · exact .inl ⟨_, e, rfl, rfl, rfl, .inl ⟨rfl, rfl⟩⟩

/-! ### The codes of each command (60_exceptions.md R221) -/

/-- Every command but NOP, which uses no region, may raise EADDR. -/
theorem eaddr_mem_specCodes {i : Instr} {s : State} (h : regionsInLm (rowOf i) s = false) : 3 ∈ specCodes i := by
  cases i with
  | nop => simp [regionsInLm, rowOf, inLm, destBase, destCap] at h
  | _ => simp [specCodes]

/-- ERM belongs to the two commands that read a mode. -/
theorem erm_mem_specCodes {i : Instr} (h : i.wellFormed = false) : 2 ∈ specCodes i := by
  cases i with
  | shrRound rm neg => simp [specCodes]
  | rtm rm neg => simp [specCodes]
  | _ => cases h

theorem ringChecks_eq_some {o : Operands} {c : ErrorCode} (h : ringChecks o = some c) :
    c = .eempty ∨ c = .eorder ∨ c = .edomain := by
  unfold ringChecks at h
  split_ifs at h <;> cases h <;> simp

/-- The codes of a command's own rule are listed for it: each check of a rule raises one of its command's codes. -/
theorem ruleOf_error_mem_specCodes {i : Instr} (hw : i.wellFormed = true) {o : Operands} {c : ErrorCode}
    (h : ruleOf i o = .error c) : c.number.toNat ∈ specCodes i := by
  cases i with
  | shrRound rm neg => cases rm with
    | mode m =>
      simp only [ruleOf, shrRoundRule] at h
      split at h
      · next hround => cases h; rw [roundQ_error hround]; simp [specCodes, ErrorCode.number]
      · cases h
    | _ => cases hw
  | rtm rm neg => cases rm with
    | mode m =>
      simp only [ruleOf, rtmRule] at h
      split at h
      · next hround => cases h; rw [roundQ_error hround]; simp [specCodes, ErrorCode.number]
      · cases h
    | _ => cases hw
  | mulmodBnm1 =>
    simp only [ruleOf, mulmodBnm1Rule] at h
    split at h
    · next hchecks => cases h; rcases ringChecks_eq_some hchecks with rfl | rfl | rfl <;> decide
    · cases h
  | mulmodBnp1 =>
    simp only [ruleOf, mulmodBnp1Rule] at h
    split at h
    · next hchecks => cases h; rcases ringChecks_eq_some hchecks with rfl | rfl | rfl <;> decide
    · cases h
  | _ =>
    simp only [ruleOf, nopRule, sameLengthRule, generalRule, eitherRule, shlRule, shlSubRule, shlcRule, shrRule, shrSubRule,
      modpRule, negmodpRule, twosRule, xorNnRule, xorPnRule, xorPlnRule, xorNlnRule, getbPRule, getbNRule, asgbPRule,
      asgbNRule, mulRule, mulloRule, modpmulRule] at h
    repeat' split at h
    all_goals cases h
    all_goals decide

/-- The longer of X and Y is the capacity of the EITHER forms. -/
theorem max_le_destCap_either (s : State) : max s.xlen.toNat s.ylen.toNat ≤ destCap .either s :=
  ((Row.hasShape_either true true).cap s).ge

/-- The commands that cannot raise ECAP write no more limbs than their destination has: NOP, the EITHER forms, and the
in-place shifts that do not grow. -/
theorem ecap_mem_specCodes {i : Instr} {s : State} {o : Operands} {r : CmdResult}
    (ho : readOperands (rowOf i) s = .ok o) (hr : ruleOf i o = .ok r) (hl : destCap (rowOf i).dest s < r.len) :
    11 ∈ specCodes i := by
  obtain ⟨-, -, -, -, -, hxl, hyl, -⟩ := readOperands_ok ho
  have either (h : r.len = max o.xl o.yl) (hdest : (rowOf i).dest = .either) : False := by
    rw [h, hxl, hyl, hdest] at hl
    exact not_le.2 hl (max_le_destCap_either s)
  have self (h : r.len ≤ o.xl) (hdest : (rowOf i).dest = .self) : False := by
    rw [hxl] at h
    rw [hdest] at hl
    exact not_le.2 hl h
  cases i with
  | nop => cases hr; exact absurd hl (Nat.not_lt_zero _)
  | andIpe => cases hr; exact (either rfl rfl).elim
  | orIpe => cases hr; exact (either rfl rfl).elim
  | xorIpe => cases hr; exact (either rfl rfl).elim
  | xorNnIpe =>
    simp only [ruleOf, xorNnRule] at hr
    split_ifs at hr
    cases hr
    exact (either rfl rfl).elim
  | shlSub =>
    simp only [ruleOf, shlSubRule] at hr
    split at hr <;> cases hr
    exact (self le_rfl rfl).elim
  | shrSub =>
    simp only [ruleOf, shrSubRule] at hr
    split at hr <;> cases hr
    exact (self le_rfl rfl).elim
  | shrIp => cases hr; exact (self (Nat.sub_le ..) rfl).elim
  | _ => simp [specCodes]

/-- Settles O24: each code a command raises has its own reason to be listed. -/
theorem reportedCodesAreThoseOfTheTable : Obligations.ReportedCodesAreThoseOfTheTable := by
  intro i s t h hc
  cases hw : i.wellFormed with
  | false =>
    rw [exec_of_illegal hw] at h
    cases h
    exact erm_mem_specCodes hw
  | true =>
    rw [exec_eq_runCommand hw] at h
    rcases runCommand_cases (rowOf i) (ruleOf i) s with ⟨hout, e⟩ | ⟨_, -, -, e⟩ | ⟨_, c, -, -, hrule, e⟩ |
      ⟨_, _, -, ho, hr, hl, e⟩ | ⟨_, _, -, -, -, -, e⟩ <;> rw [e] at h <;> cases h
    · exact eaddr_mem_specCodes hout
    · exact ruleOf_error_mem_specCodes hw hrule
    · exact ecap_mem_specCodes ho hr hl
    · exact absurd (State.commit_ecode ..) hc

/-! ### The registers a command depends on (30_encoding.md R87) -/

/-- The operands with 0 where the operand table marks the register unused. -/
def Operands.used (o : Operands) (i : Instr) : Operands :=
  { o with
    xl := if (rowOf i).readsX then o.xl else 0
    yl := if (rowOf i).readsY then o.yl else 0
    a0 := if (specArgs i).1 then o.a0 else 0
    a1 := if (specArgs i).2 then o.a1 else 0 }

/-- A rule looks at the operands in use alone. -/
theorem ruleOf_used (i : Instr) (o : Operands) : ruleOf i (o.used i) = ruleOf i o := by
  cases i with
  | shrRound rm neg => cases rm <;> rfl
  | rtm rm neg => cases rm <;> rfl
  | _ => rfl

/-- Every command whose destination is one of its operands reads that operand. -/
theorem reads_of_dest (i : Instr) :
    ((rowOf i).dest = .ipl ∨ (rowOf i).dest = .self → (rowOf i).readsX = true) ∧
    ((rowOf i).dest = .either → (rowOf i).readsX = true ∧ (rowOf i).readsY = true) := by
  cases i <;> simp [rowOf]

theorem readIf_congr {b : Bool} {s s' : State} {base len base' len' : Word} (hcfg : s.cfg = s'.cfg) (hlm : s.lm = s'.lm)
    (h : b = true → base = base' ∧ len = len') :
    readIf b s base.toNat len.toNat = readIf b s' base'.toNat len'.toNat := by
  cases b with
  | false => rfl
  | true =>
    obtain ⟨rfl, rfl⟩ := h rfl
    simp only [readIf, State.w, hcfg, hlm]

section
variable {i : Instr} {s s' : State} (h : SameInputs i s s')
include h

theorem SameInputs.w_eq : s.w = s'.w := congrArg (fun c => c.width.bits) h.1

/-- The destination is the same region. -/
theorem SameInputs.dest_eq :
    destBase (rowOf i).dest s = destBase (rowOf i).dest s' ∧ destCap (rowOf i).dest s = destCap (rowOf i).dest s' := by
  obtain ⟨-, -, -, hx, hy, hout, hipl, -, -⟩ := h
  obtain ⟨hreadsX, hreadsXY⟩ := reads_of_dest i
  cases hd : (rowOf i).dest with
  | none => exact ⟨rfl, rfl⟩
  | out => simp only [destBase, destCap, hout hd, and_self]
  | ipl => simp only [destBase, destCap, hipl hd, hx (hreadsX (.inl hd)), and_self]
  | self => simp only [destBase, destCap, hx (hreadsX (.inr hd)), and_self]
  | either =>
    obtain ⟨hrx, hry⟩ := hreadsXY hd
    simp only [destBase, destCap, hx hrx, hy hry, and_self]

theorem SameInputs.regionsInLm_eq : regionsInLm (rowOf i) s = regionsInLm (rowOf i) s' := by
  obtain ⟨hbase, hcap⟩ := h.dest_eq
  obtain ⟨hcfg, -, -, hx, hy, -⟩ := h
  have region {b : Bool} {base len base' len' : Word} (hb : b = true → base = base' ∧ len = len') :
      (!b || inLm s base.toNat len.toNat) = (!b || inLm s' base'.toNat len'.toNat) := by
    cases b with
    | false => rfl
    | true =>
      obtain ⟨rfl, rfl⟩ := hb rfl
      simp only [inLm, hcfg]
  have dest (d cap : Nat) : inLm s d cap = inLm s' d cap := by simp only [inLm, hcfg]
  rw [regionsInLm, regionsInLm, region hx, region hy, hbase, hcap, dest]

/-- The operand reads meet the same limb never written, or answer the same operands but for those not in use. -/
theorem SameInputs.readOperands_eq :
    (readOperands (rowOf i) s).map (·.used i) = (readOperands (rowOf i) s').map (·.used i) := by
  have hcap := h.dest_eq.2
  have hw := h.w_eq
  obtain ⟨hcfg, hlm, hdraws, hx, hy, -, -, ha0, ha1⟩ := h
  unfold readOperands
  rw [readIf_congr hcfg hlm hx, readIf_congr hcfg hlm hy]
  cases readIf (rowOf i).readsX s' s'.xbase.toNat s'.xlen.toNat with
  | error k => rfl
  | ok x =>
    cases readIf (rowOf i).readsY s' s'.ybase.toNat s'.ylen.toNat with
    | error k => rfl
    | ok y =>
      have used {b : Bool} {v v' : Word} (hv : b = true → v = v') :
          (if b then v.toNat else 0) = if b then v'.toNat else 0 := by
        cases b with
        | false => rfl
        | true => rw [hv rfl]
      simp only [Except.map, Operands.used, hw, hdraws, hcap, used fun e => (hx e).2, used fun e => (hy e).2, used ha0,
        used ha1]

theorem SameInputs.completeError (c : ErrorCode) :
    SameResults (.next (s.completeError c)) (.next (s'.completeError c)) := by
  obtain ⟨-, hlm, -⟩ := h
  exact ⟨hlm, rfl, rfl, rfl, rfl, rfl, rfl, rfl⟩

theorem SameInputs.commit (d cap : Nat) (r : CmdResult) :
    SameResults (.next (s.commit d cap r)) (.next (s'.commit d cap r)) := by
  have hw := h.w_eq
  obtain ⟨-, hlm, hdraws, -⟩ := h
  simp only [SameResults, State.commit_lm, State.commit_rlen, State.commit_rnlen, State.commit_raux, State.commit_ecode,
    State.commit_err, State.commit_done, State.commit_phase, hw, hlm, hdraws, and_self]

/-- A legal command is a function of its regions, its operands in use and its destination. -/
theorem SameInputs.runCommand :
    SameResults (runCommand (rowOf i) (ruleOf i) s) (runCommand (rowOf i) (ruleOf i) s') := by
  obtain ⟨hbase, hcap⟩ := h.dest_eq
  have hread := h.readOperands_eq
  unfold Machine.runCommand raiseError
  rw [h.regionsInLm_eq, hbase, hcap]
  split
  · cases ho : readOperands (rowOf i) s <;> cases ho' : readOperands (rowOf i) s' <;> rw [ho, ho'] at hread
    case error.error => cases hread; rfl
    case error.ok => cases hread
    case ok.error => cases hread
    case ok.ok o o' =>
      have hused : o.used i = o'.used i := Except.ok.inj hread
      have hrule : ruleOf i o = ruleOf i o' := by rw [← ruleOf_used, hused, ruleOf_used]
      dsimp only
      rw [hrule]
      cases ruleOf i o' with
      | error c => exact h.completeError c
      | ok r =>
        dsimp only
        split
        · exact h.commit ..
        · exact h.completeError .ecap
  · exact h.completeError .eaddr

end

/-- Settles O26: an illegal command raises ERM whatever the registers hold. -/
theorem unusedRegistersDoNotMatter : Obligations.UnusedRegistersDoNotMatter := by
  intro i s s' h
  cases hw : i.wellFormed with
  | false => rw [exec_of_illegal hw, exec_of_illegal hw]; exact h.completeError .erm
  | true => rw [exec_eq_runCommand hw, exec_eq_runCommand hw]; exact h.runCommand

/-! ### A limb never written stops the run (60_exceptions.md R227 (b)) -/

theorem transact_lmRead_neverWritten {s : State} {k : Nat} (hk : k < s.cfg.lmLimbs) (hnone : s.limb? k = none) :
    transact (.lmRead k) s = .error (.neverWritten k) := by
  simp [transact, hk, hnone]

/-- A legal command whose regions lie in LM stops where its operand reads do. -/
theorem exec_eq_fault {i : Instr} {s : State} {k : Nat} (hw : i.wellFormed = true) (hin : regionsInLm (rowOf i) s = true)
    (hread : readOperands (rowOf i) s = .error k) : exec i s = .fault (.neverWritten k) := by
  simp only [exec_eq_runCommand hw, runCommand, hin, hread, if_true]

/-- A region that is written is read. -/
theorem exists_read_of_written {s : State} {a n : Nat} (h : ∀ k, k < n → (s.limb? (a + k)).isSome = true) :
    ∃ v, Memory.read s.w s.lm a n = .ok v := by
  cases hr : Memory.read s.w s.lm a n with
  | ok v => exact ⟨v, rfl⟩
  | error k =>
    obtain ⟨j, hj, -, hnone, -⟩ := Memory.read_eq_error_iff.1 hr
    have hsome := h j hj
    rw [State.limb?, hnone] at hsome
    cases hsome

/-- Settles O27: an operand read stops at the first limb of X, or of Y where X is written, and no check of the rule comes
before it. -/
theorem neverWrittenOperandFaults : Obligations.NeverWrittenOperandFaults := by
  refine ⟨fun s k hk hnone => ⟨transact_lmRead_neverWritten hk hnone, fun hp => ⟨fun j ho => ?limbRead,
    fun addr width j ho hbus => ?byteRead⟩⟩, fun i s j hw hin => ⟨fun hreads hj hnone hbefore => ?x,
    fun hreads hx hj hnone hbefore => ?y⟩⟩
  case limbRead =>
    rw [step_eq_hostPerform hp ho]
    exact hostRead_fault (transact_lmRead_neverWritten hk hnone) j
  case byteRead =>
    rw [step_eq_hostPerform hp ho]
    simp only [hostPerform, hbus]
    exact hostRead_fault (transact_lmRead_neverWritten hk hnone) j
  case x =>
    refine exec_eq_fault hw hin (readOperands_eq_error_iff.2 (.inl (readIf_eq_error_iff.2 ⟨hreads, ?_⟩)))
    exact Memory.read_eq_error_iff.2 ⟨j, hj, rfl, hnone, hbefore⟩
  case y =>
    have hxread : ∃ x, readIf (rowOf i).readsX s s.xbase.toNat s.xlen.toNat = .ok x := by
      cases hrx : (rowOf i).readsX with
      | false => exact ⟨0, rfl⟩
      | true => exact exists_read_of_written hx
    refine exec_eq_fault hw hin (readOperands_eq_error_iff.2 (.inr ⟨hxread, readIf_eq_error_iff.2 ⟨hreads, ?_⟩⟩))
    exact Memory.read_eq_error_iff.2 ⟨j, hj, rfl, hnone, hbefore⟩

/-- Settles O31: a number has at most `n` bits exactly where it is below `2^n`, and limbs count bits by W. -/
theorem sigbitsAndTrimmedLength : Obligations.SigbitsAndTrimmedLength :=
  ⟨sigbits_le_iff, fun _ v n hw => nlen_le_iff hw v n⟩

end Sys2Proof.Machine
end

section
/-!
PROOFS. What one step can do, said once: the engine's step, a transaction of the host's next operation, or a move of the host
alone; and what follows for the phase (20_memory.md R62, R73; 60_exceptions.md R237; 70_reset_and_hazards.md R253, R256).
-/
namespace Sys2Proof.Machine

/-! ### The transaction of a host operation (30_encoding.md R92, 20_memory.md R61) -/

/-- The transaction a host operation makes; none for a branch, `stop`, and a byte access that selects nothing. -/
def HostOp.transaction? (c : Config) : HostOp → Option Transaction
  | .csrw n v => some (.csrWrite n v)
  | .csrr n _ => some (.csrRead n)
  | .lmw i v => some (.lmWrite i v)
  | .lmr i _ => some (.lmRead i)
  | .busw addr bytes => busWrite? c addr bytes
  | .busr addr width _ => busRead? c addr width
  | _ => none

theorem HostOp.onLm_eq (c : Config) (op : HostOp) :
    op.onLm c = ((op.transaction? c).map Transaction.onLm).getD false := by
  cases op <;> rfl

/-- A byte read makes no write transaction. -/
theorem busRead?_ne_csrWrite (c : Config) (addr width n : Nat) (v : Word) :
    busRead? c addr width ≠ some (.csrWrite n v) := by
  unfold busRead?
  split <;> simp

/-- A register write is made by `csrw` or by a byte write that selects the register. -/
theorem HostOp.transaction?_eq_csrWrite {c : Config} {op : HostOp} {n : Nat} {v : Word}
    (h : op.transaction? c = some (.csrWrite n v)) :
    op = .csrw n v ∨ ∃ addr bytes, op = .busw addr bytes ∧ busWrite? c addr bytes = some (.csrWrite n v) := by
  cases op with
  | csrw n' v' => cases h; exact .inl rfl
  | busw addr bytes => exact .inr ⟨addr, bytes, rfl, h⟩
  | busr addr width k => exact (busRead?_ne_csrWrite _ _ _ _ _ h).elim
  | _ => cases h

/-! ### What a step can do -/

/-- The host's move after a transaction: its place, and for a read the temporary of the answer. -/
def MovesOn (u t : State) (v : Word) : Prop := t = u.advance ∨ ∃ k, t = (u.setTemp k v).advance

/-- A host operation that answers a next state made its transaction, or moved the host alone. -/
theorem hostPerform_next_cases {op : HostOp} {s t : State} (h : hostPerform op s = .next t) :
    (∃ tr u v, op.transaction? s.cfg = some tr ∧ transact tr s = .ok (u, v) ∧ MovesOn u t v) ∨
    ∃ pc, t = { s with hostPc := pc } := by
  have write {tr : Transaction} (htr : op.transaction? s.cfg = some tr) (hw : hostWrite tr s = .next t) :
      ∃ tr u v, op.transaction? s.cfg = some tr ∧ transact tr s = .ok (u, v) ∧ MovesOn u t v := by
    obtain ⟨u, v, hu, rfl⟩ := hostWrite_next hw
    exact ⟨tr, u, v, htr, hu, .inl rfl⟩
  have read {tr : Transaction} {k : Nat} (htr : op.transaction? s.cfg = some tr) (hr : hostRead tr k s = .next t) :
      ∃ tr u v, op.transaction? s.cfg = some tr ∧ transact tr s = .ok (u, v) ∧ MovesOn u t v := by
    obtain ⟨u, v, hu, rfl⟩ := hostRead_next hr
    exact ⟨tr, u, v, htr, hu, .inr ⟨k, rfl⟩⟩
  have branch {taken : Bool} {target : Nat} (hb : hostBranch taken target s = .next t) :
      ∃ pc, t = { s with hostPc := pc } := by
    cases taken <;> cases hb <;> exact ⟨_, rfl⟩
  cases op with
  | csrw n v => exact .inl (write rfl h)
  | csrr n k => exact .inl (read rfl h)
  | lmw i v => exact .inl (write rfl h)
  | lmr i k => exact .inl (read rfl h)
  | busw addr bytes =>
    simp only [hostPerform] at h
    split at h
    · exact .inl (write ‹_› h)
    · cases h
  | busr addr width k =>
    simp only [hostPerform] at h
    split at h
    · exact .inl (read ‹_› h)
    · cases h
  | ifEq k m c target => exact .inr (branch h)
  | ifNe k m c target => exact .inr (branch h)
  | stop => cases h; exact .inr ⟨_, rfl⟩

theorem engineMoves_iff (s : State) :
    s.engineMoves = true ↔ s.phase = .busy ∧ (s.hostWaits = true ∨ s.delay = 0) := by
  simp [State.engineMoves, State.busy]

/-- A step that answers a next state is the engine's, or it makes the transaction of the host's next operation, or it moves
the host alone (20_memory.md R73). -/
theorem step_next_cases {s t : State} (h : step s = .next t) :
    (s.phase = .busy ∧ engineStep s = .next t) ∨
    (s.engineMoves = false ∧
      ((∃ op tr u v, s.hostOp = some op ∧ op.transaction? s.cfg = some tr ∧ transact tr s.tick = .ok (u, v) ∧
        MovesOn u t v) ∨ ∃ pc, t = { s.tick with hostPc := pc })) := by
  unfold step at h
  split at h
  · next hm => exact .inl ⟨((engineMoves_iff s).1 hm).1, h⟩
  · next hm =>
    refine .inr ⟨Bool.not_eq_true _ ▸ hm, ?_⟩
    unfold hostStep at h
    split at h
    · next hop =>
      cases h
      have hidle : s.phase = .idle := by
        cases hp : s.phase with
        | idle => rfl
        | busy => exact absurd ((engineMoves_iff s).2 ⟨hp, .inl (by simp [State.hostWaits, hop])⟩) hm
      exact .inr ⟨s.hostPc, by rw [State.tick_idle hidle]⟩
    · next op hop =>
      rcases hostPerform_next_cases h with ⟨tr, u, v, htr, hu, ht⟩ | hpc
      · exact .inl ⟨op, tr, u, v, hop, s.tick_cfg ▸ htr, hu, ht⟩
      · exact .inr hpc

/-- A limb transaction of the host comes after the engine step (20_memory.md R62). -/
theorem hostWaits_of_onLm {s : State} {op : HostOp} {tr : Transaction} (hop : s.hostOp = some op)
    (htr : op.transaction? s.cfg = some tr) (hlm : tr.onLm = true) : s.hostWaits = true := by
  have honLm : op.onLm s.cfg = true := by simp [HostOp.onLm_eq, htr, hlm]
  cases op with
  | stop => cases htr
  | _ => simpa [State.hostWaits, hop] using honLm

/-- The host moving on changes its place and a temporary, and nothing of the engine. -/
theorem MovesOn.frame {u t : State} {v : Word} (h : MovesOn u t v) :
    t = { u with hostPc := u.hostPc + 1, temps := t.temps } := by
  rcases h with rfl | ⟨k, rfl⟩ <;> rfl

/-! ### What a register write does to the phase -/

/-- Only a CTRL write changes the phase. -/
theorem csrWrite_phase {n : Nat} (hn : n ≠ 1) (v : Word) (s : State) : (csrWrite n v s).phase = s.phase := by
  unfold csrWrite
  split
  · rfl
  · next r hr =>
    have hctrl : r ≠ .ctrl := by rintro rfl; exact hn ((csrOf_eq_some_iff n .ctrl).1 hr)
    cases r with
    | ctrl => exact absurd rfl hctrl
    | _ => split <;> rfl

/-- A register write that wakes the engine is a GO without a soft reset (10_state.md R22, R35). -/
theorem go_of_csrWrite_busy {n : Nat} {v : Word} {s : State} (h : s.phase = .idle) (hb : (csrWrite n v s).phase = .busy) :
    n = 1 ∧ v.getLsbD 0 = true ∧ v.getLsbD 1 = false := by
  by_cases hn : n = 1
  · subst hn
    obtain ⟨-, -, -, -, hgo, -⟩ := ctrlBitsAndPulses s v
    exact ⟨rfl, (hgo h).1 hb⟩
  · rw [csrWrite_phase hn, h] at hb
    cases hb

/-- Settles O28: of the transactions only a register write changes the phase, and of these only a GO wakes the engine. -/
theorem onlyGoWakesTheEngine : Obligations.OnlyGoWakesTheEngine := by
  intro s t hidle h hbusy
  rcases step_next_cases h with ⟨hb, -⟩ | ⟨-, ⟨op, tr, u, v, hop, htr, hu, ht⟩ | ⟨pc, rfl⟩⟩
  · rw [hidle] at hb
    cases hb
  · rw [ht.frame] at hbusy
    rw [State.tick_idle hidle] at hu
    rcases transact_cases hu with ⟨n, -, -, rfl, -⟩ | ⟨n, w, rfl, -, rfl, -⟩ | ⟨i, l, -, -, -, rfl, -⟩ |
      ⟨i, w, -, -, rfl, -⟩
    · exact absurd (hidle.symm.trans hbusy) (by decide)
    · obtain ⟨rfl, hgo, hsrst⟩ := go_of_csrWrite_busy hidle hbusy
      refine ⟨w, hgo, hsrst, ?_⟩
      rcases HostOp.transaction?_eq_csrWrite htr with rfl | ⟨addr, bytes, rfl, hbus⟩
      · exact .inl hop
      · exact .inr ⟨addr, bytes, hop, hbus⟩
    · exact absurd (hidle.symm.trans hbusy) (by decide)
    · exact absurd (hidle.symm.trans hbusy) (by decide)
  · exact absurd ((State.tick_phase s).trans hidle |>.symm.trans hbusy) (by decide)

/-! ### While a command runs (10_state.md R36) -/

/-- A register write that leaves the engine BUSY changes IEN, the bits of STATUS that it clears, and WERR. -/
theorem csrWrite_busy_frame {n : Nat} {v : Word} {s : State} (h : s.phase = .busy)
    (hb : (csrWrite n v s).phase = .busy) :
    csrWrite n v s = { s with
      ien := (csrWrite n v s).ien, done := (csrWrite n v s).done, err := (csrWrite n v s).err
      werr := (csrWrite n v s).werr } := by
  by_cases h15 : 15 ≤ n
  · rw [csrWrite_reserved h15]
  by_cases h1 : n = 1
  · subst h1
    cases hsrst : v.getLsbD 1 with
    | true =>
      rw [csrWrite_ctrl_srst hsrst, softReset_phase] at hb
      cases hb
    | false =>
      cases hgo : v.getLsbD 0 with
      | true => rw [csrWrite_ctrl_go_busy h hgo hsrst]
      | false => rw [csrWrite_ctrl_ien hgo hsrst]
  by_cases h2 : n = 2
  · subst h2
    rw [csrWrite_status]
    rfl
  · rw [csrWrite_busy_dropped h (not_le.1 h15) h1 h2]

/-- A step that leaves the engine BUSY spends one of the host operations before the engine step, and changes nothing but
CTRL, STATUS and the host's own place and temporaries. -/
theorem step_busy_frame {s t : State} (hbusy : s.phase = .busy) (h : step s = .next t) (ht : t.phase = .busy) :
    0 < s.delay ∧ t = { s with
      ien := t.ien, done := t.done, err := t.err, werr := t.werr, hostPc := t.hostPc, temps := t.temps
      delay := s.delay - 1 } := by
  rcases step_next_cases h with ⟨-, he⟩ | ⟨hm, hhost⟩
  · rw [engineStep_frame he] at ht
    cases ht
  · have hnot : ¬ (s.hostWaits = true ∨ s.delay = 0) := fun hw => by simp [(engineMoves_iff s).2 ⟨hbusy, hw⟩] at hm
    refine ⟨Nat.pos_of_ne_zero fun hd => hnot (.inr hd), ?_⟩
    rcases hhost with ⟨op, tr, u, v, hop, htr, hu, hmove⟩ | ⟨pc, rfl⟩
    · have hcsr (hlm : tr.onLm = true) : False := hnot (.inl (hostWaits_of_onLm hop htr hlm))
      rw [State.tick_busy hbusy] at hu
      have hframe := hmove.frame
      have hub : u.phase = .busy := by rw [hframe] at ht; exact ht
      have hsame : u = { s with
          ien := u.ien, done := u.done, err := u.err, werr := u.werr, delay := s.delay - 1 } := by
        rcases transact_cases hu with ⟨n, -, -, rfl, -⟩ | ⟨n, w, -, -, rfl, -⟩ | ⟨i, l, rfl, -⟩ | ⟨i, w, rfl, -⟩
        · rfl
        · exact csrWrite_busy_frame (s := { s with delay := s.delay - 1 }) hbusy hub
        · exact (hcsr rfl).elim
        · exact (hcsr rfl).elim
      rw [hframe, hsame]
    · rw [State.tick_busy hbusy]

/-- The registers but CTRL and STATUS do not depend on their bits, nor on the host. -/
theorem csrValue_congr {n : Nat} (h1 : n ≠ 1) (h2 : n ≠ 2) {s t : State}
    (h : t = { s with
      ien := t.ien, done := t.done, err := t.err, werr := t.werr, hostPc := t.hostPc, temps := t.temps
      delay := t.delay }) :
    csrValue n t = csrValue n s := by
  unfold csrValue
  cases hr : csrOf n with
  | none => rfl
  | some r =>
    have hn := (csrOf_eq_some_iff n r).1 hr
    rw [h]
    cases r with
    | ctrl => exact absurd hn h1
    | status => exact absurd hn h2
    | _ => rfl

/-- Settles O29: a step that leaves the engine BUSY is a move of the host that touches CTRL and STATUS at most. -/
theorem nothingMovesWhileBusy : Obligations.NothingMovesWhileBusy := by
  intro s t hbusy h ht
  obtain ⟨-, hframe⟩ := step_busy_frame hbusy h ht
  exact ⟨by rw [hframe], fun n h1 h2 => csrValue_congr h1 h2 (by rw [hframe])⟩

/-! ### Every command finishes (70_reset_and_hazards.md R256) -/

theorem hostWrite_ne_refused (tr : Transaction) (s : State) (r : Refusal) : hostWrite tr s ≠ .refused r := by
  unfold hostWrite
  split <;> simp

theorem hostRead_ne_refused (tr : Transaction) (k : Nat) (s : State) (r : Refusal) : hostRead tr k s ≠ .refused r := by
  unfold hostRead
  split <;> simp

theorem hostPerform_ne_refused (op : HostOp) (s : State) (r : Refusal) : hostPerform op s ≠ .refused r := by
  cases op with
  | csrw n v => exact hostWrite_ne_refused _ _ _
  | csrr n k => exact hostRead_ne_refused _ _ _ _
  | lmw i v => exact hostWrite_ne_refused _ _ _
  | lmr i k => exact hostRead_ne_refused _ _ _ _
  | busw addr bytes =>
    simp only [hostPerform]
    split
    · exact hostWrite_ne_refused _ _ _
    · simp
  | busr addr width k =>
    simp only [hostPerform]
    split
    · exact hostRead_ne_refused _ _ _ _
    · simp
  | ifEq k m c target => simp [hostPerform, hostBranch]
  | ifNe k m c target => simp [hostPerform, hostBranch]
  | stop => simp [hostPerform]

theorem exec_ne_refused (i : Instr) (s : State) (r : Refusal) : exec i s ≠ .refused r := by
  rcases exec_cases i s with ⟨c, e⟩ | ⟨k, -, e⟩ | ⟨_, _, -, -, -, -, -, e⟩ <;> simp [e]

/-- No step is refused. -/
theorem step_ne_refused (s : State) (r : Refusal) : step s ≠ .refused r := by
  rcases step_cases s with ⟨i, -, -, e⟩ | ⟨_, -, -, e⟩ | ⟨-, e⟩ <;> rw [e]
  · exact exec_ne_refused i s r
  · simp
  · unfold hostStep
    split
    · simp
    · exact hostPerform_ne_refused _ _ _

/-- One more step before the run. -/
theorem run_succ_of_next {s t : State} (h : step s = .next t) (k : Nat) :
    Host.Core.run core (k + 1) s = Host.Core.run core k t := by
  have hcore : core.step s = .next t := h
  simp only [Host.Core.run, hcore]

theorem run_one_of_fault {s : State} {f : Fault} (h : step s = .fault f) : Host.Core.run core 1 s = .fault f := by
  have hcore : core.step s = .fault f := h
  simp only [Host.Core.run, hcore]

/-- Settles O30, by induction on the delay: a step out of BUSY ends the wait, and one that stays in it shortens it. -/
theorem everyCommandFinishes : Obligations.EveryCommandFinishes := by
  intro s
  induction hd : s.delay using Nat.strong_induction_on generalizing s with
  | _ d ih =>
    intro hbusy
    cases hs : step s with
    | refused r => exact absurd hs (step_ne_refused s r)
    | fault f => exact ⟨1, by omega, .inl ⟨f, run_one_of_fault hs⟩⟩
    | next t =>
      cases ht : t.phase with
      | idle => exact ⟨1, by omega, .inr ⟨t, run_succ_of_next hs 0, ht⟩⟩
      | busy =>
        obtain ⟨hpos, hframe⟩ := step_busy_frame hbusy hs ht
        have hdelay : t.delay = d - 1 := by rw [hframe, hd]
        obtain ⟨k, hk, hrun⟩ := ih (d - 1) (by omega) t hdelay ht
        exact ⟨k + 1, by omega, by rwa [run_succ_of_next hs]⟩

end Sys2Proof.Machine
end

section
/-!
PROOFS. The result registers of a command are in range: every command follows a rule of the spec, whose value fits its length
and whose length fits the destination, and its auxiliary result is a limb (10_state.md R28; 20_memory.md R63, R64).
-/
namespace Sys2Proof.Machine

/-! ### Every command follows a rule of the spec -/

/-- Some word decodes to the command, and the command follows some rule of the spec with its own operands and destination. -/
def Specified (i : Instr) : Prop := ∃ word h rule, Follows word i h rule ∧ (rowOf i).HasShape h

theorem specified_of_wellFormed {i : Instr} (hw : i.wellFormed = true) : Specified i := by
  have out := Row.hasShape_out
  have ipl := Row.hasShape_ipl true
  have self := Row.hasShape_self true false
  have either := Row.hasShape_either true true
  obtain ⟨andSl, orSl, xorSl⟩ := sameLengthLogic
  obtain ⟨and, andIpl, or, orIpl, xor, xorIpl⟩ := generalAndInPlaceLeftLogic
  obtain ⟨andIpe, orIpe, xorIpe⟩ := inPlaceEitherLogic
  obtain ⟨xorNn, xorNnIpl, xorNnIpe⟩ := xorOfTwoNegatives
  cases i with
  | nop => exact ⟨_, _, _, nopCompletes.1, rfl, rfl, fun _ => rfl, fun _ => rfl⟩
  | andSl => exact ⟨_, _, _, andSl, out ..⟩
  | and => exact ⟨_, _, _, and, out ..⟩
  | andIpl => exact ⟨_, _, _, andIpl, ipl _⟩
  | andIpe => exact ⟨_, _, _, andIpe, either⟩
  | orSl => exact ⟨_, _, _, orSl, out ..⟩
  | or => exact ⟨_, _, _, or, out ..⟩
  | orIpl => exact ⟨_, _, _, orIpl, ipl _⟩
  | orIpe => exact ⟨_, _, _, orIpe, either⟩
  | xorSl => exact ⟨_, _, _, xorSl, out ..⟩
  | xor => exact ⟨_, _, _, xor, out ..⟩
  | xorIpl => exact ⟨_, _, _, xorIpl, ipl _⟩
  | xorIpe => exact ⟨_, _, _, xorIpe, either⟩
  | shl => exact ⟨_, _, _, shlMultipliesByAPowerOfTwo.1, out ..⟩
  | shlIp => exact ⟨_, _, _, shlMultipliesByAPowerOfTwo.2, ipl _⟩
  | shlSub => exact ⟨_, _, _, subLimbLeftShifts.1, self⟩
  | shlc => exact ⟨_, _, _, subLimbLeftShifts.2, out ..⟩
  | shr => exact ⟨_, _, _, shrDividesByAPowerOfTwo.1, out ..⟩
  | shrIp => exact ⟨_, _, _, shrDividesByAPowerOfTwo.2, self⟩
  | shrSub => exact ⟨_, _, _, subLimbRightShift, self⟩
  | modp => exact ⟨_, _, _, modpKeepsLowBits, out ..⟩
  | negmodp => exact ⟨_, _, _, negmodpNegatesLowBits, out ..⟩
  | shrRound rm neg => cases rm with
    | mode m => exact ⟨_, _, _, shrRoundRounds.1 m neg, out ..⟩
    | _ => cases hw
  | rtm rm neg => cases rm with
    | mode m => exact ⟨_, _, _, rtmRoundsToAMultiple.1 m neg, out ..⟩
    | _ => cases hw
  | twos => exact ⟨_, _, _, twosNegatesASlice, out ..⟩
  | xorNn => exact ⟨_, _, _, xorNn, out ..⟩
  | xorNnIpl => exact ⟨_, _, _, xorNnIpl, ipl _⟩
  | xorNnIpe => exact ⟨_, _, _, xorNnIpe, either⟩
  | xorPn => exact ⟨_, _, _, xorOfPositiveAndNegative, out ..⟩
  | xorPln => exact ⟨_, _, _, xorWithAOneLimbNegative.1, out ..⟩
  | xorNln => exact ⟨_, _, _, xorWithAOneLimbNegative.2, out ..⟩
  | getbP => exact ⟨_, _, _, getbOfAPositive, out ..⟩
  | getbN => exact ⟨_, _, _, getbOfANegative, out ..⟩
  | asgbP => exact ⟨_, _, _, asgbOnAPositive, ipl _⟩
  | asgbN => exact ⟨_, _, _, asgbOnANegative, ipl _⟩
  | mul => exact ⟨_, _, _, mulIsTheFullProduct, out ..⟩
  | mullo => exact ⟨_, _, _, mulloIsTheLowHalf, out ..⟩
  | modpmul => exact ⟨_, _, _, modpmulReducesTheProduct, out ..⟩
  | mulmodBnm1 => exact ⟨_, _, _, mulmodBnm1IsAResidue, out ..⟩
  | mulmodBnp1 => exact ⟨_, _, _, mulmodBnp1IsTheCanonicalResidue, out ..⟩

/-! ### The lengths of a result (10_state.md R28) -/

/-- The written length fits the capacity, and the trimmed length is at most the written one. -/
def LengthsFit (cap : Nat) (t : State) : Prop := t.rnlen.toNat ≤ t.rlen.toNat ∧ t.rlen.toNat ≤ cap

theorem lengthsFit_of_raises {i : Instr} {s t : State} {c : BitVec 8} (hr : Raises i s c) (he : exec i s = .next t)
    (cap : Nat) : LengthsFit cap t := by
  rw [hr] at he
  cases he
  exact ⟨le_rfl, Nat.zero_le cap⟩

theorem Committed.lengthsFit {s t : State} {d cap L v aux : Nat} (h : Committed s t d cap L v aux)
    (hcap : cap < 2 ^ 64) : LengthsFit cap t := by
  have hlen := h.rlen_toNat hcap
  refine ⟨?_, hlen.le.trans h.room⟩
  have hnlen : nlen s.w v ≤ L := (nlen_le_iff s.w_pos v L).2 h.fits
  rw [hlen, h.registers, BitVec.toNat_ofNat]
  exact (Nat.mod_le ..).trans hnlen

theorem Meets.lengthsFit {i : Instr} {s t : State} {d cap : Nat} {a : SpecAnswer} (h : Meets i s d cap a)
    (he : exec i s = .next t) (hcap : cap < 2 ^ 64) : LengthsFit cap t := by
  cases a with
  | code c => exact lengthsFit_of_raises h he cap
  | result L v aux =>
    rcases le_or_gt L cap with hL | hL
    · exact (committed_of_completes (h.1 hL) he).lengthsFit hcap
    · exact lengthsFit_of_raises (h.2 hL) he cap
  | eitherOf L v v' aux =>
    rcases le_or_gt L cap with hL | hL
    · rcases h.1 hL with hc | hc
      · exact (committed_of_completes hc he).lengthsFit hcap
      · exact (committed_of_completes hc he).lengthsFit hcap
    · exact lengthsFit_of_raises (h.2 hL) he cap

/-- The operand regions a command read hold the values its rule saw. -/
theorem operand_of_readOperands {r : Row} {h : Shape} {s : State} {o : Operands} (hshape : r.HasShape h)
    (ho : readOperands r s = .ok o) : Operand h s o.x o.y := by
  obtain ⟨hx, -, hy, -⟩ := readOperands_ok ho
  exact ⟨fun e => Memory.read_eq_ok_iff.1 (hx (hshape.readsX.trans e)),
    fun e => Memory.read_eq_ok_iff.1 (hy (hshape.readsY.trans e))⟩

/-- A legal command whose regions lie in LM and are written leaves lengths that fit its destination. -/
theorem lengthsFit_of_exec {i : Instr} {s t : State} {o : Operands} (hw : i.wellFormed = true) (hcfg : s.cfg.wf)
    (hin : regionsInLm (rowOf i) s = true) (ho : readOperands (rowOf i) s = .ok o) (he : exec i s = .next t) :
    LengthsFit (destCap (rowOf i).dest s) t := by
  obtain ⟨word, h, rule, hf, hshape⟩ := specified_of_wellFormed hw
  have hinside : Inside h s :=
    (regionsInLm_iff hshape.readsX hshape.readsY (hshape.base s) (hshape.cap s)).1 hin
  have hcap : h.cap s < 2 ^ 64 := by
    obtain ⟨-, -, hdest⟩ := hinside
    obtain ⟨-, hlm⟩ := hcfg
    omega
  rw [hshape.cap]
  exact ((hf.2 s).2 hinside o.x o.y (operand_of_readOperands hshape ho)).lengthsFit he hcap

/-! ### The auxiliary result is a limb (92_eei_decisions.md D29) -/

theorem carryLimb_lt {w n x r : Nat} (hx : x < 2 ^ (w * n)) (hr : r ≤ w) : carryLimb w n x r < 2 ^ w := by
  rw [carryLimb, Nat.div_lt_iff_lt_mul (by positivity), Nat.mul_comm (2 ^ w)]
  exact Nat.mul_lt_mul_of_lt_of_le hx (Nat.pow_le_pow_right two_pos hr) (by positivity)

theorem shiftedOut_lt {w r : Nat} (x : Nat) (hr : r ≤ w) : shiftedOut w x r < 2 ^ w := by
  have hsplit : 2 ^ w = 2 ^ r * 2 ^ (w - r) := by rw [← pow_add, Nat.add_sub_cancel' hr]
  rw [shiftedOut, hsplit]
  exact Nat.mul_lt_mul_of_pos_right (Nat.mod_lt x (by positivity)) (by positivity)

theorem selectFlag_le (xl yl : Nat) : selectFlag xl yl ≤ 2 := by unfold selectFlag; split <;> decide
theorem zeroFlag_le (x : Nat) : zeroFlag x ≤ 2 := by unfold zeroFlag; split <;> decide
theorem stickyFlag_le (x k : Nat) : stickyFlag x k ≤ 2 := by unfold stickyFlag; split <;> decide
theorem orderShifted_le (q k x : Nat) : orderShifted q k x ≤ 2 := by
  rw [orderShifted_eq, orderCode]
  split_ifs <;> decide

/-- The auxiliary result of a rule is a flag, an ordering code, or a limb of shifted bits. -/
theorem ruleOf_aux_lt {i : Instr} {o : Operands} {r : CmdResult} (hw : 2 ≤ o.w) (hx : o.x < 2 ^ (o.w * o.xl))
    (h : ruleOf i o = .ok r) : r.aux < 2 ^ o.w := by
  have flag {a : Nat} (ha : a ≤ 2) : a < 2 ^ o.w :=
    ha.trans_lt (lt_of_lt_of_le (by decide) (Nat.pow_le_pow_right two_pos hw))
  have shift (n : Nat) : n % o.w ≤ o.w := (Nat.mod_lt n (by omega)).le
  have count (hc : subLimbCount o = true) : o.a0 ≤ o.w := by
    obtain ⟨-, hle⟩ := (subLimbCount_iff o).1 hc
    omega
  cases i with
  | shl => cases h; exact carryLimb_lt hx (shift _)
  | shlIp => cases h; exact carryLimb_lt hx (shift _)
  | shlSub =>
    simp only [ruleOf, shlSubRule] at h
    split at h
    · next hc => cases h; exact carryLimb_lt hx (count hc)
    · cases h
  | shlc =>
    simp only [ruleOf, shlcRule] at h
    split at h
    · next hc => cases h; exact carryLimb_lt hx (count hc)
    · cases h
  | shrSub =>
    simp only [ruleOf, shrSubRule] at h
    split at h
    · next hc => cases h; exact shiftedOut_lt _ (count hc)
    · cases h
  | shr => cases h; exact flag (stickyFlag_le ..)
  | shrIp => cases h; exact flag (stickyFlag_le ..)
  | twos => cases h; exact flag (zeroFlag_le _)
  | andIpe => cases h; exact flag (selectFlag_le ..)
  | orIpe => cases h; exact flag (selectFlag_le ..)
  | xorIpe => cases h; exact flag (selectFlag_le ..)
  | xorNnIpe =>
    simp only [ruleOf, xorNnRule] at h
    split_ifs at h
    cases h
    exact flag (selectFlag_le ..)
  | shrRound rm neg => cases rm with
    | mode m =>
      simp only [ruleOf, shrRoundRule] at h
      split at h <;> cases h
      exact flag (orderShifted_le ..)
    | _ => cases h
  | rtm rm neg => cases rm with
    | mode m =>
      simp only [ruleOf, rtmRule] at h
      split at h <;> cases h
      exact flag (orderShifted_le ..)
    | _ => cases h
  | _ =>
    simp only [ruleOf, nopRule, sameLengthRule, generalRule, modpRule, negmodpRule, xorNnRule, xorPnRule, xorPlnRule,
      xorPosNeg, xorNlnRule, getbPRule, getbNRule, asgbPRule, asgbNRule, mulRule, mulloRule, modpmulRule, mulmodBnm1Rule,
      mulmodBnp1Rule] at h
    repeat' split at h
    all_goals cases h
    all_goals exact flag (Nat.zero_le 2)

end Sys2Proof.Machine
end

section
/-!
PROOFS. The invariant: it looks at the limb memory, the temporaries, the completion fields and the result registers, so one
lemma per operation that writes these is enough (10_state.md R28, R31, R35; 60_exceptions.md R221, R224).
-/
namespace Sys2Proof.Machine

/-- The invariant does not look at IEN, WERR, CMD, the operand registers, the host program and its place, nor at the model's
own counters. -/
theorem State.Inv.of_frame {s t : State} (h : s.Inv)
    (ht : t = { s with
      ien := t.ien, werr := t.werr, cmd := t.cmd, xbase := t.xbase, xlen := t.xlen, ybase := t.ybase, ylen := t.ylen
      obase := t.obase, ocap := t.ocap, arg0 := t.arg0, arg1 := t.arg1, draws := t.draws, program := t.program
      hostPc := t.hostPc, delay := t.delay, schedule := t.schedule }) : t.Inv := by
  rw [ht]
  exact ⟨h.cfgWf, h.lmWf, h.lmRange, h.tempsWf, h.tempsNz, h.ecodeMax, h.errCode, h.busyClear, h.errResults, h.rnlenLe,
    h.rlenLe, h.rauxLimb⟩

/-! ### The engine (60_exceptions.md R224, R225) -/

theorem State.Inv.completeError {s : State} (h : s.Inv) (c : ErrorCode) : (s.completeError c).Inv where
  cfgWf := h.cfgWf
  lmWf := h.lmWf
  lmRange := h.lmRange
  tempsWf := h.tempsWf
  tempsNz := h.tempsNz
  ecodeMax := c.number_range.2
  errCode _ he := by
    have hpos := c.number_range.1
    rw [State.completeError_ecode] at he
    rw [he] at hpos
    exact absurd hpos (by decide)
  busyClear hb := by cases hb
  errResults _ := ⟨rfl, rfl, rfl⟩
  rnlenLe := le_rfl
  rlenLe := Nat.zero_le _
  rauxLimb := Nat.two_pow_pos _

theorem State.Inv.commit {s : State} (h : s.Inv) {d cap : Nat} {r : CmdResult} (hroom : r.len ≤ cap)
    (hdest : d + cap ≤ s.cfg.lmLimbs) (hlen : LengthsFit cap (s.commit d cap r)) (haux : r.aux < 2 ^ s.w) :
    (s.commit d cap r).Inv where
  cfgWf := h.cfgWf
  lmWf := State.wf_commit h.lmWf d cap r
  lmRange := State.inRange_commit h.lmRange r hroom hdest
  tempsWf := h.tempsWf
  tempsNz := h.tempsNz
  ecodeMax := Nat.zero_le _
  errCode he := by cases he
  busyClear hb := by cases hb
  errResults he := absurd rfl he
  rnlenLe := hlen.1
  rlenLe := hlen.2.trans (by rw [State.commit_cfg]; omega)
  rauxLimb := by
    rw [State.commit_raux, BitVec.toNat_ofNat, State.commit_w]
    exact (Nat.mod_le ..).trans_lt haux

theorem State.two_le_w (s : State) : 2 ≤ s.w := by unfold State.w; cases s.cfg.width <;> decide

theorem State.Inv.exec {s t : State} (h : s.Inv) {i : Instr} (he : exec i s = .next t) : t.Inv := by
  rcases exec_cases i s with ⟨c, e⟩ | ⟨k, -, e⟩ | ⟨o, r, hw, hin, ho, hr, hroom, e⟩
  · rw [e] at he
    cases he
    exact h.completeError c
  · rw [e] at he
    cases he
  · have hlen := lengthsFit_of_exec hw h.cfgWf hin ho e
    rw [e] at he
    cases he
    obtain ⟨hx, hx0, -, -, how, hoxl, -⟩ := readOperands_ok ho
    have hxlt : o.x < 2 ^ (o.w * o.xl) := by
      cases hrx : (rowOf i).readsX with
      | true => rw [how, hoxl]; exact Memory.read_lt (hx hrx)
      | false => rw [hx0 hrx]; positivity
    have hdest : destBase (rowOf i).dest s + destCap (rowOf i).dest s ≤ s.cfg.lmLimbs := by
      simp only [regionsInLm, inLm, Bool.and_eq_true, decide_eq_true_eq] at hin
      exact hin.2
    exact h.commit hroom hdest hlen (how ▸ ruleOf_aux_lt (how ▸ s.two_le_w) hxlt hr)

theorem State.Inv.engineStep {s t : State} (h : s.Inv) (he : engineStep s = .next t) : t.Inv := by
  unfold Machine.engineStep at he
  split at he
  · exact h.exec he
  · cases he
    exact h.completeError .eopc

/-! ### The register file (10_state.md R35, R36; 70_reset_and_hazards.md R251) -/

/-- A GO sets BUSY and clears DONE, ERR and ECODE; the delay is the model's own. -/
theorem State.go_eq (s : State) :
    s.go = { s with
      phase := .busy, done := false, err := false, ecode := 0
      delay := s.go.delay, schedule := s.go.schedule, draws := s.go.draws } := by
  unfold State.go
  split <;> rfl

theorem State.Inv.go {s : State} (h : s.Inv) : s.go.Inv := by
  rw [State.go_eq]
  exact ⟨h.cfgWf, h.lmWf, h.lmRange, h.tempsWf, h.tempsNz, Nat.zero_le _, fun he => (by cases he),
    fun _ => ⟨rfl, rfl, rfl⟩, fun he => absurd rfl he, h.rnlenLe, h.rlenLe, h.rauxLimb⟩

theorem State.Inv.resetCsrs {s : State} (h : s.Inv) : s.resetCsrs.Inv :=
  ⟨h.cfgWf, h.lmWf, h.lmRange, h.tempsWf, h.tempsNz, Nat.zero_le _, fun he => (by cases he), fun hb => (by cases hb),
    fun he => absurd rfl he, le_rfl, Nat.zero_le _, Nat.two_pow_pos _⟩

/-- Writing limbs in range keeps the invariant, which says nothing else of LM. -/
theorem State.Inv.setLm {s : State} (h : s.Inv) {m : Memory} (hwf : Memory.wf m = true)
    (hrange : Memory.inRange s.w s.cfg.lmLimbs m) : { s with lm := m }.Inv :=
  ⟨h.cfgWf, hwf, hrange, h.tempsWf, h.tempsNz, h.ecodeMax, h.errCode, h.busyClear, h.errResults, h.rnlenLe, h.rlenLe,
    h.rauxLimb⟩

/-- The part of a region that lies in LM does: it is empty where the region starts outside. -/
theorem inRange_drawRegion_clipped {s : State} (h : Memory.inRange s.w s.cfg.lmLimbs s.lm) (d len k : Nat) :
    Memory.inRange s.w s.cfg.lmLimbs (Memory.drawRegion s.w s.lm d (clipToLm s d len) k) := by
  rcases Nat.eq_zero_or_pos (clipToLm s d len) with h0 | hpos
  · rw [h0]
    exact h
  · refine Memory.inRange_drawRegion h ?_ k
    unfold clipToLm at *
    omega

theorem State.Inv.abandon {s : State} (h : s.Inv) : s.abandon.Inv := by
  unfold State.abandon
  split
  · exact h
  · exact (h.setLm (Memory.wf_drawRegion h.lmWf ..) (inRange_drawRegion_clipped h.lmRange _ _ _)).of_frame rfl

theorem State.Inv.softReset {s : State} (h : s.Inv) : (softReset s).Inv := by
  cases hp : s.phase with
  | idle => rw [softReset_idle hp]; exact h.resetCsrs
  | busy => rw [softReset_busy hp]; exact h.abandon.resetCsrs

theorem State.Inv.writeStatus {s : State} (h : s.Inv) (v : Word) : (writeStatus v s).Inv where
  cfgWf := h.cfgWf
  lmWf := h.lmWf
  lmRange := h.lmRange
  tempsWf := h.tempsWf
  tempsNz := h.tempsNz
  ecodeMax := h.ecodeMax
  errCode he := h.errCode (Bool.and_eq_true .. ▸ he).1
  busyClear hb := by
    obtain ⟨hdone, herr, hcode⟩ := h.busyClear hb
    exact ⟨by simp [hdone], by simp [herr], hcode⟩
  errResults := h.errResults
  rnlenLe := h.rnlenLe
  rlenLe := h.rlenLe
  rauxLimb := h.rauxLimb

/-- A write to a register other than CTRL and STATUS changes WERR, CMD and the operand registers at most. -/
theorem csrWrite_frame {n : Nat} (h1 : n ≠ 1) (h2 : n ≠ 2) (v : Word) (s : State) :
    csrWrite n v s = { s with
      werr := (csrWrite n v s).werr, cmd := (csrWrite n v s).cmd
      xbase := (csrWrite n v s).xbase, xlen := (csrWrite n v s).xlen
      ybase := (csrWrite n v s).ybase, ylen := (csrWrite n v s).ylen
      obase := (csrWrite n v s).obase, ocap := (csrWrite n v s).ocap
      arg0 := (csrWrite n v s).arg0, arg1 := (csrWrite n v s).arg1 } := by
  unfold csrWrite
  split
  · rfl
  · next r hr =>
    have hn := (csrOf_eq_some_iff n r).1 hr
    cases r with
    | ctrl => exact absurd hn h1
    | status => exact absurd hn h2
    | _ => split <;> rfl

theorem State.Inv.csrWrite {s : State} (h : s.Inv) (n : Nat) (v : Word) : (csrWrite n v s).Inv := by
  by_cases h1 : n = 1
  · subst h1
    cases hsrst : v.getLsbD 1 with
    | true => rw [csrWrite_ctrl_srst hsrst]; exact h.softReset
    | false =>
      cases hgo : v.getLsbD 0 with
      | false => rw [csrWrite_ctrl_ien hgo hsrst]; exact h.of_frame rfl
      | true =>
        cases hp : s.phase with
        | idle => rw [csrWrite_ctrl_go_idle hp hgo hsrst]; exact (h.of_frame rfl).go
        | busy => rw [csrWrite_ctrl_go_busy hp hgo hsrst]; exact h.of_frame rfl
  by_cases h2 : n = 2
  · subst h2
    rw [csrWrite_status]
    exact h.writeStatus v
  · rw [csrWrite_frame h1 h2]
    exact h.of_frame rfl

/-! ### The host (20_memory.md R60, 30_encoding.md R92) -/

theorem State.Inv.setTemp {s : State} (h : s.Inv) (k : Nat) (v : Word) : (s.setTemp k v).Inv where
  cfgWf := h.cfgWf
  lmWf := h.lmWf
  lmRange := h.lmRange
  tempsWf := State.wf_setTemp h.tempsWf k v
  tempsNz c hc := by
    rw [State.setTemp_temps] at hc
    split at hc
    · exact h.tempsNz c (Cells.mem_drop hc)
    · next hv =>
      rcases Cells.mem_put hc with rfl | hc
      · exact hv
      · exact h.tempsNz c hc
  ecodeMax := h.ecodeMax
  errCode := h.errCode
  busyClear := h.busyClear
  errResults := h.errResults
  rnlenLe := h.rnlenLe
  rlenLe := h.rlenLe
  rauxLimb := h.rauxLimb

theorem State.Inv.transact {s t : State} (h : s.Inv) {tr : Transaction} {v : Word} (ht : transact tr s = .ok (t, v)) :
    t.Inv := by
  rcases transact_cases ht with ⟨n, -, -, rfl, -⟩ | ⟨n, u, -, -, rfl, -⟩ | ⟨i, l, -, -, -, rfl, -⟩ |
    ⟨i, u, -, hi, rfl, -⟩
  · exact h
  · exact h.csrWrite n u
  · exact h
  · exact h.setLm (Memory.wf_setLimb h.lmWf ..) (Memory.inRange_setLimb h.lmRange hi _)

theorem State.Inv.movesOn {u t : State} (h : u.Inv) {v : Word} (ht : MovesOn u t v) : t.Inv := by
  rcases ht with rfl | ⟨k, rfl⟩
  · exact h.of_frame rfl
  · exact (h.setTemp k v).of_frame rfl

theorem State.Inv.tick {s : State} (h : s.Inv) : s.tick.Inv := by
  cases hp : s.phase with
  | idle => rw [State.tick_idle hp]; exact h
  | busy => rw [State.tick_busy hp]; exact h.of_frame rfl

/-- Settles O7: the engine's step, a transaction of the host, and a move of the host alone each keep the invariant. -/
theorem stepKeepsInv : Obligations.StepKeepsInv := by
  intro s t h hs
  rcases step_next_cases hs with ⟨-, he⟩ | ⟨-, ⟨op, tr, u, v, -, -, hu, ht⟩ | ⟨pc, rfl⟩⟩
  · exact h.engineStep he
  · exact (h.tick.transact hu).movesOn ht
  · exact h.tick.of_frame rfl

/-- Settles O6: no limb and no temporary is listed at power-on, and every register is 0. -/
theorem powerOnMeetsInv : Obligations.PowerOnMeetsInv := fun _ hcfg =>
  ⟨hcfg, rfl, fun _ hc => (by cases hc), rfl, fun _ hc => (by cases hc), Nat.zero_le _, fun he => (by cases he),
    fun hb => (by cases hb), fun he => absurd rfl he, le_rfl, Nat.zero_le _, Nat.two_pow_pos _⟩

end Sys2Proof.Machine
end

section
/-!
PROOFS. STATUS bit by bit, the register writes of the IDLE phase, GO, and the expansions of the assembler (10_state.md R23 to
R27, R30, R35; 30_encoding.md R92, R93).
-/
namespace Sys2Proof.Machine

/-! ### STATUS (10_state.md R23) -/

/-- ECODE stands at bits 15:8. -/
theorem getLsbD_ecode_shifted (c : BitVec 8) (k : Nat) :
    (c.setWidth 64 <<< 8).getLsbD k = if 8 ≤ k ∧ k < 16 then c.getLsbD (k - 8) else false := by
  rw [BitVec.getLsbD_shiftLeft, BitVec.getLsbD_setWidth]
  by_cases hlo : k < 8
  · simp [hlo]
  by_cases hhi : k < 16
  · rw [if_pos ⟨not_lt.1 hlo, hhi⟩]
    simp [hlo, show k < 64 by omega, show k - 8 < 64 by omega]
  · rw [if_neg (by omega), BitVec.getLsbD_of_ge c (k - 8) (by omega)]
    simp

/-- The flags stand at bits 0 to 3, below ECODE. -/
theorem State.statusWord_getLsbD (s : State) (k : Nat) :
    s.statusWord.getLsbD k =
      if k = 0 then decide (s.phase = .busy) else if k = 1 then s.done else if k = 2 then s.err
      else if k = 3 then s.werr else if 8 ≤ k ∧ k < 16 then s.ecode.getLsbD (k - 8) else false := by
  simp only [State.statusWord, BitVec.getLsbD_or, getLsbD_flagBit _ (show 0 < 64 by decide),
    getLsbD_flagBit _ (show 1 < 64 by decide), getLsbD_flagBit _ (show 2 < 64 by decide),
    getLsbD_flagBit _ (show 3 < 64 by decide), getLsbD_ecode_shifted, State.busy]
  split_ifs <;> simp_all

/-- Settles O9: the four flags and the code stand at places of their own. -/
theorem statusBitsAndWriteOneToClear : Obligations.StatusBitsAndWriteOneToClear := fun s v =>
  ⟨s.statusWord_getLsbD, by rw [csrWrite_status, writeStatus_eq]⟩

/-! ### Register writes in the IDLE phase (10_state.md R24 to R27, R30, R35) -/

/-- The registers that store a host write as it is. -/
def Csr.Stores (r : Csr) : Prop := 3 ≤ r.ctorIdx ∧ r.ctorIdx ≤ 11

theorem csrWrite_of_idle {s : State} (h : s.phase = .idle) {n : Nat} {r : Csr} (hr : csrOf n = some r) (v : Word) :
    csrWrite n v s = writeIdle r v s := by
  simp only [csrWrite, hr, h]

theorem Csr.value_writeIdle_same {r : Csr} (h : r.Stores) (v : Word) (s : State) : r.value (writeIdle r v s) = v := by
  cases r with
  | id | ctrl | status | rlen | rnlen | raux => exact absurd h (by unfold Csr.Stores; decide)
  | _ => rfl

theorem Csr.value_writeIdle_other {r r' : Csr} (h : r.Stores) (hne : r' ≠ r) (v : Word) (s : State) :
    r'.value (writeIdle r v s) = r'.value s := by
  cases r with
  | id | ctrl | status | rlen | rnlen | raux => exact absurd h (by unfold Csr.Stores; decide)
  | _ => cases r' <;> first | rfl | exact absurd rfl hne

/-- ID and the result registers ignore a write. -/
theorem writeIdle_readOnly {r : Csr} (h : r.ctorIdx = 0 ∨ 12 ≤ r.ctorIdx) (v : Word) (s : State) :
    writeIdle r v s = s := by
  cases r with
  | id | rlen | rnlen | raux => rfl
  | _ => exact absurd h (by decide)

/-- Settles O10: a storing register takes the value and no other register reads it; the rest ignore the write. -/
theorem idleRegisterWrites : Obligations.IdleRegisterWrites := by
  intro s n v h _
  cases hr : csrOf n with
  | none =>
    have hn := (csrOf_eq_none_iff n).1 hr
    exact ⟨fun hstores => by omega, fun _ => csrWrite_reserved hn v s⟩
  | some r =>
    have hn := (csrOf_eq_some_iff n r).1 hr
    refine ⟨fun hrange => ⟨?_, ?_, fun m hm => ?_⟩, fun hrange => ?_⟩
    · have hstores : r.Stores := by rwa [hn] at hrange
      rw [csrWrite_of_idle h hr, csrValue, hr]
      exact Csr.value_writeIdle_same hstores v s
    · rw [csrWrite_frame (by omega) (by omega)]
    · have hstores : r.Stores := by rwa [hn] at hrange
      rw [csrWrite_of_idle h hr]
      unfold csrValue
      cases hr' : csrOf m with
      | none => rfl
      | some r' =>
        have hne : r' ≠ r := by rintro rfl; exact hm (((csrOf_eq_some_iff m r').1 hr').trans hn.symm)
        exact Csr.value_writeIdle_other hstores hne v s
    · rw [csrWrite_of_idle h hr]
      exact writeIdle_readOnly (hn ▸ hrange) v s

/-- Settles O12: GO starts the command after IEN is stored. -/
theorem goStartsACommand : Obligations.GoStartsACommand := by
  intro s v hidle hgo hsrst
  rw [csrWrite_ctrl_go_idle hidle hgo hsrst]
  exact State.go_eq _

/-! ### The command word of the engine step (30_encoding.md R88, R93) -/

/-- Settles O4: the two conditions are those under which the engine moves. -/
theorem stepRunsTheDecodedCommand : Obligations.StepRunsTheDecodedCommand := fun s _ hbusy hmoves hdec =>
  step_eq_exec ((engineMoves_iff s).2 ⟨hbusy, hmoves⟩) hdec

/-- Settles O1: the words are decoded, and the two error words reach the engine step. -/
theorem specExampleWordsDecode : Obligations.SpecExampleWordsDecode := by
  refine ⟨rfl, rfl, rfl, rfl, rfl, rfl, rfl, rfl, rfl, rfl, rfl, rfl, rfl, rfl, rfl, fun s hm hcmd => ?eopc,
    fun s hm hcmd => ?erm⟩
  case eopc =>
    have hdec : decode s.cmd = .error .reservedBits := by rw [hcmd]; rfl
    exact step_of_not_decoded hm fun i hi => by rw [hdec] at hi; cases hi
  case erm =>
    have hdec : decode s.cmd = .ok (.shrRound .reserved6 false) := by rw [hcmd]; rfl
    rw [step_eq_exec hm hdec]
    exact raises_erm_of_illegal rfl s

/-! ### The assembler (30_encoding.md R92) -/

theorem pairWrites_eq (n : Nat) (p : Option (Word × Word)) :
    pairWrites n p = match p with | some (base, len) => [.csrw n base, .csrw (n + 1) len] | none => [] := by
  cases p <;> rfl

theorem argWrite_eq (n : Nat) (a : Option Word) :
    argWrite n a = match a with | some v => [.csrw n v] | none => [] := by
  cases a <;> rfl

/-- Settles O21: each part of a `cmd` line is given or left out by itself. -/
theorem pseudoInstructionExpansions : Obligations.PseudoInstructionExpansions := by
  refine ⟨fun op m neg => ⟨cmdWord_toNat_or .., ?noMode⟩, fun k op m neg x y o a b => ?cmd,
    fun k => ⟨rfl, rfl, rfl, rfl, rfl⟩⟩
  case noMode =>
    refine (cmdWord_toNat_or ..).trans ?_
    simp
  case cmd =>
    have append {l l' m m' : List Line} (hl : l = l') (hm : m = m') : l ++ m = l' ++ m' := by rw [hl, hm]
    exact append (append (append (append (append (pairWrites_eq 4 x) (pairWrites_eq 6 y)) (pairWrites_eq 8 o))
      (argWrite_eq 10 a)) (argWrite_eq 11 b)) rfl

end Sys2Proof.Machine
end

section
/-!
PROOFS. The host in both phases: what a read and a write make of their transaction, that limb transactions wait for the
engine and nothing else does, that a read changes nothing of the engine, and the byte map of the platform bus
(20_memory.md R60 to R62, R69; 30_encoding.md R92; 10_state.md R37).
-/
namespace Sys2Proof.Machine

/-! ### What a host read and a host write make of their transaction (10_state.md R37) -/

/-- No transaction touches the temporaries or the host's place. -/
theorem transact_host {tr : Transaction} {s t : State} {v : Word} (h : transact tr s = .ok (t, v)) :
    t.temps = s.temps ∧ t.hostPc = s.hostPc := by
  rcases transact_cases h with ⟨n, -, -, rfl, -⟩ | ⟨n, u, -, -, rfl, -⟩ | ⟨i, l, -, -, -, rfl, -⟩ | ⟨i, u, -, -, rfl, -⟩
  · exact ⟨rfl, rfl⟩
  · obtain ⟨-, -, hpc, htemps⟩ := csrWrite_host n u s
    exact ⟨htemps, hpc⟩
  · exact ⟨rfl, rfl⟩
  · exact ⟨rfl, rfl⟩

theorem hostWrite_of_ok {tr : Transaction} {s t : State} {v : Word} (h : transact tr s = .ok (t, v)) :
    hostWrite tr s = .next { t with hostPc := s.hostPc + 1 } := by
  rw [← (transact_host h).2]
  simp only [hostWrite, h, State.advance]

/-- A read that succeeds keeps its answer in its temporary, and every other temporary as it was. -/
theorem hostRead_of_ok {tr : Transaction} {s t : State} {v : Word} (hwf : Cells.wf s.temps = true)
    (h : transact tr s = .ok (t, v)) (k : Nat) :
    ∃ u, hostRead tr k s = .next u ∧ u = { t with hostPc := s.hostPc + 1, temps := u.temps } ∧ u.temp k = v ∧
      ∀ j, j ≠ k → u.temp j = s.temp j := by
  obtain ⟨htemps, hpc⟩ := transact_host h
  have htemp (j : Nat) : (t.setTemp k v).advance.temp j = if j = k then v else s.temp j := by
    have hother : t.temp j = s.temp j := by rw [State.temp, State.temp, htemps]
    rw [← hother]
    exact State.temp_setTemp (htemps ▸ hwf) k v j
  refine ⟨(t.setTemp k v).advance, by simp only [hostRead, h], ?_, ?_, fun j hj => ?_⟩
  · rw [← hpc]
    rfl
  · rw [htemp, if_pos rfl]
  · rw [htemp, if_neg hj]

theorem hostBranch_eq (taken : Bool) (target : Nat) (s : State) :
    hostBranch taken target s = .next { s with hostPc := if taken then target else s.hostPc + 1 } := by
  cases taken <;> rfl

theorem hostPerform_ifEq (k : Nat) (m c : Word) (p : Nat) (s : State) :
    hostPerform (.ifEq k m c p) s = .next { s with hostPc := if s.temp k &&& m = c then p else s.hostPc + 1 } := by
  rw [hostPerform, hostBranch_eq]
  simp only [beq_iff_eq]

theorem hostPerform_ifNe (k : Nat) (m c : Word) (p : Nat) (s : State) :
    hostPerform (.ifNe k m c p) s = .next { s with hostPc := if s.temp k &&& m = c then s.hostPc + 1 else p } := by
  rw [hostPerform, hostBranch_eq]
  simp only [bne_iff_ne, ne_eq, ite_not]

theorem hostPerform_busr {s : State} {addr width : Nat} {tr : Transaction} (h : busRead? s.cfg addr width = some tr)
    (k : Nat) : hostPerform (.busr addr width k) s = hostRead tr k s := by
  simp only [hostPerform, h]

theorem hostPerform_busw {s : State} {addr : Nat} {bytes : List Byte} {tr : Transaction}
    (h : busWrite? s.cfg addr bytes = some tr) : hostPerform (.busw addr bytes) s = hostWrite tr s := by
  simp only [hostPerform, h]

theorem hostPerform_busr_none {s : State} {addr width : Nat} (h : busRead? s.cfg addr width = none) (k : Nat) :
    hostPerform (.busr addr width k) s = .fault (.busErrorAccess addr width) := by
  simp only [hostPerform, h]

theorem hostPerform_busw_none {s : State} {addr : Nat} {bytes : List Byte} (h : busWrite? s.cfg addr bytes = none) :
    hostPerform (.busw addr bytes) s = .fault (.busErrorAccess addr bytes.length) := by
  simp only [hostPerform, h]

theorem step_of_programEnd {s : State} (hidle : s.phase = .idle) (h : s.hostOp = none) : step s = .next s := by
  have hm : s.engineMoves = false := by simp [State.engineMoves, State.busy, hidle]
  simp [step, hm, hostStep, h]

/-- Settles O20: in the IDLE phase a step performs the host's operation, and a transaction that succeeds is kept as it is. -/
theorem hostOperationsWhileIdle : Obligations.HostOperationsWhileIdle := by
  intro s hwf
  refine ⟨fun tr t v h => ⟨hostWrite_of_ok h, hostRead_of_ok hwf h⟩, fun tr f h => ⟨hostWrite_fault h, hostRead_fault h⟩,
    fun hidle => ?_⟩
  have perform {op : HostOp} (hop : s.hostOp = some op) : step s = hostPerform op s := step_eq_hostPerform hidle hop
  refine ⟨fun n v hn hop => ?csrw, fun n k hn hop => ?csrr, fun i v hi hop => ?lmw, fun i k v hi hv hop => ?lmr,
    fun addr width k tr hop htr => (perform hop).trans (hostPerform_busr htr k),
    fun addr bytes tr hop htr => (perform hop).trans (hostPerform_busw htr),
    fun k m c p hop => (perform hop).trans (hostPerform_ifEq k m c p s),
    fun k m c p hop => (perform hop).trans (hostPerform_ifNe k m c p s),
    fun n v hop => perform hop, fun n k hop => perform hop, fun i v hop => perform hop, fun i k hop => perform hop,
    fun hop => perform hop, fun hop => step_of_programEnd hidle hop⟩
  case csrw => exact (perform hop).trans (hostWrite_of_ok (transact_csrWrite hn v s))
  case csrr =>
    obtain ⟨u, hu, hframe, hval, -⟩ := hostRead_of_ok hwf (transact_csrRead hn s) k
    exact ⟨u, (perform hop).trans hu, hval, by rw [hframe]⟩
  case lmw =>
    refine ⟨_, (perform hop).trans (hostWrite_of_ok (transact_lmWrite hi v)), ?_, rfl⟩
    exact (State.limb?_setLimb s i v.toNat i).trans (if_pos rfl)
  case lmr =>
    obtain ⟨u, hu, hframe, hval, -⟩ := hostRead_of_ok hwf (transact_lmRead hi hv) k
    have hlt : v < 2 ^ 64 := (Memory.limb?_lt hv).trans_le (Nat.pow_le_pow_right two_pos s.w_le)
    refine ⟨u, (perform hop).trans hu, ?_, by rw [hframe]⟩
    rw [hval, BitVec.toNat_ofNat, Nat.mod_eq_of_lt hlt]

/-! ### Limb transactions wait for the engine (20_memory.md R62) -/

/-- While BUSY a host at a limb transaction lets the engine step run first, and performs it on the state that step left. -/
theorem limbTransaction_waits {s : State} {op : HostOp} {tr : Transaction} (hbusy : s.phase = .busy)
    (hop : s.hostOp = some op) (htr : op.transaction? s.cfg = some tr) (hlm : tr.onLm = true) :
    step s = engineStep s ∧ ∀ t, step s = .next t → t.cfg = s.cfg ∧ step t = hostPerform op t := by
  have hm : s.engineMoves = true := (engineMoves_iff s).2 ⟨hbusy, .inl (hostWaits_of_onLm hop htr hlm)⟩
  have hstep : step s = engineStep s := if_pos hm
  refine ⟨hstep, fun t ht => ?_⟩
  have hframe := engineStep_frame (hstep ▸ ht)
  exact ⟨by rw [hframe], step_eq_hostPerform (by rw [hframe]) (by rw [hframe]; exact hop)⟩

/-- An operation that makes no limb transaction and does not end the program is performed at once while the engine step is
still to come. -/
theorem step_eq_hostPerform_of_busy {s : State} {op : HostOp} (hbusy : s.phase = .busy) (hdelay : 0 < s.delay)
    (hop : s.hostOp = some op) (hlm : op.onLm s.cfg = false) (hstop : op ≠ .stop) :
    step s = hostPerform op { s with delay := s.delay - 1 } := by
  have hwaits : s.hostWaits = false := by
    simp only [State.hostWaits, hop]
    cases op with
    | stop => exact absurd rfl hstop
    | _ => exact hlm
  have hm : s.engineMoves = false := by
    rw [← Bool.not_eq_true, engineMoves_iff]
    simp [hwaits, hdelay.ne']
  simp [step, hm, hostStep, hop, State.tick_busy hbusy]

/-- The delay is no register. -/
theorem csrValue_delay (n : Nat) (s : State) (d : Nat) : csrValue n { s with delay := d } = csrValue n s := by
  unfold csrValue
  cases csrOf n with
  | none => rfl
  | some r => cases r <;> rfl

/-- Settles O17: a limb transaction waits, and each other operation is performed on the state with one operation less to
come. -/
theorem limbTransactionsWaitWhileBusy : Obligations.LimbTransactionsWaitWhileBusy := by
  intro s hbusy
  refine ⟨fun i k hop => ?lmr, fun i v hop => ?lmw, fun addr width k i hop hbus => ?busr,
    fun addr bytes i v hop hbus => ?busw, fun hdelay => ?atOnce⟩
  case lmr =>
    obtain ⟨hstep, hthen⟩ := limbTransaction_waits hbusy hop rfl rfl
    exact ⟨hstep, fun t ht => (hthen t ht).2⟩
  case lmw =>
    obtain ⟨hstep, hthen⟩ := limbTransaction_waits hbusy hop rfl rfl
    exact ⟨hstep, fun t ht => (hthen t ht).2⟩
  case busr =>
    obtain ⟨hstep, hthen⟩ := limbTransaction_waits hbusy hop hbus rfl
    refine ⟨hstep, fun t ht => ?_⟩
    obtain ⟨hcfg, hperform⟩ := hthen t ht
    exact hperform.trans (hostPerform_busr (hcfg ▸ hbus) k)
  case busw =>
    obtain ⟨hstep, hthen⟩ := limbTransaction_waits hbusy hop hbus rfl
    refine ⟨hstep, fun t ht => ?_⟩
    obtain ⟨hcfg, hperform⟩ := hthen t ht
    exact hperform.trans (hostPerform_busw (hcfg ▸ hbus))
  case atOnce =>
    have perform {op : HostOp} (hop : s.hostOp = some op) (hlm : op.onLm s.cfg = false) (hstop : op ≠ .stop) :
        step s = hostPerform op { s with delay := s.delay - 1 } :=
      step_eq_hostPerform_of_busy hbusy hdelay hop hlm hstop
    refine ⟨fun n k hop => perform hop rfl nofun, fun n v hop => perform hop rfl nofun, fun n k hn hwf hop => ?csrr,
      fun n v hn hop => ?csrw, fun k m c p hop => ?ifEq, fun k m c p hop => ?ifNe, fun addr width k n hop hbus => ?busr,
      fun addr bytes n v hop hbus => ?busw, fun addr width k hop hbus => ?busrNone, fun addr bytes hop hbus => ?buswNone⟩
    case csrr =>
      obtain ⟨u, hu, hframe, hval, hother⟩ :=
        hostRead_of_ok (s := { s with delay := s.delay - 1 }) hwf (transact_csrRead hn _) k
      exact ⟨u, (perform hop rfl nofun).trans hu, hframe, hval.trans (csrValue_delay n s _), hother⟩
    case csrw => exact (perform hop rfl nofun).trans (hostWrite_of_ok (transact_csrWrite hn v _))
    case ifEq => exact (perform hop rfl nofun).trans (hostPerform_ifEq k m c p _)
    case ifNe => exact (perform hop rfl nofun).trans (hostPerform_ifNe k m c p _)
    case busr =>
      exact (perform hop (by simp [HostOp.onLm, hbus, Transaction.onLm]) nofun).trans
        (hostPerform_busr (s := { s with delay := s.delay - 1 }) hbus k)
    case busw => exact (perform hop (by simp [HostOp.onLm, hbus, Transaction.onLm]) nofun).trans (hostPerform_busw hbus)
    case busrNone =>
      exact (perform hop (by simp [HostOp.onLm, hbus]) nofun).trans
        (hostPerform_busr_none (s := { s with delay := s.delay - 1 }) hbus k)
    case buswNone => exact (perform hop (by simp [HostOp.onLm, hbus]) nofun).trans (hostPerform_busw_none hbus)

/-! ### A read changes nothing of the engine (20_memory.md R69) -/

theorem busRead?_isRead {c : Config} {addr width : Nat} {tr : Transaction} (h : busRead? c addr width = some tr) :
    (∃ n, tr = .csrRead n) ∨ ∃ i, tr = .lmRead i := by
  unfold busRead? at h
  split at h <;> cases h
  · exact .inl ⟨_, rfl⟩
  · exact .inr ⟨_, rfl⟩

/-- A read transaction leaves the state as it is. -/
theorem transact_read_state {tr : Transaction} (hread : (∃ n, tr = .csrRead n) ∨ ∃ i, tr = .lmRead i) {s t : State}
    {v : Word} (h : transact tr s = .ok (t, v)) : t = s := by
  rcases transact_cases h with ⟨n, -, -, rfl, -⟩ | ⟨n, u, rfl, -⟩ | ⟨i, l, -, -, -, rfl, -⟩ | ⟨i, u, rfl, -⟩
  · rfl
  · simp at hread
  · rfl
  · simp at hread

/-- A host read that succeeds changes its temporary and the host's place. -/
theorem hostRead_frame {tr : Transaction} (hread : (∃ n, tr = .csrRead n) ∨ ∃ i, tr = .lmRead i) {s t : State} {k : Nat}
    (hwf : Cells.wf s.temps = true) (h : hostRead tr k s = .next t) :
    t = { s with hostPc := s.hostPc + 1, temps := t.temps } ∧ ∀ j, j ≠ k → t.temp j = s.temp j := by
  obtain ⟨u, v, hu, -⟩ := hostRead_next h
  obtain rfl := transact_read_state hread hu
  obtain ⟨t', ht', hframe, -, hother⟩ := hostRead_of_ok hwf hu k
  rw [h] at ht'
  cases ht'
  exact ⟨hframe, hother⟩

theorem State.tick_eq (s : State) : s.tick = { s with delay := s.tick.delay } := by
  unfold State.tick
  split <;> rfl

/-- Settles O18: each of the three operations is a host read, or a byte access that stops the run. -/
theorem readsHaveNoSideEffect : Obligations.ReadsHaveNoSideEffect := by
  intro s t n a k w hwf hm hop hstep
  have perform {op : HostOp} (hop : s.hostOp = some op) : hostPerform op s.tick = .next t := by
    simpa [step, hm, hostStep, hop] using hstep
  have hread : ∃ tr, ((∃ n, tr = .csrRead n) ∨ ∃ i, tr = .lmRead i) ∧ hostRead tr k s.tick = .next t := by
    rcases hop with hop | hop | hop
    · exact ⟨_, .inl ⟨n, rfl⟩, perform hop⟩
    · exact ⟨_, .inr ⟨n, rfl⟩, perform hop⟩
    · have h := perform hop
      cases hbus : busRead? s.tick.cfg a w with
      | none => rw [hostPerform_busr_none hbus] at h; cases h
      | some tr => rw [hostPerform_busr hbus] at h; exact ⟨tr, busRead?_isRead hbus, h⟩
  obtain ⟨tr, hisRead, htr⟩ := hread
  obtain ⟨hframe, hother⟩ := hostRead_frame hisRead (s.tick_temps ▸ hwf) htr
  refine ⟨?_, fun j hj => (hother j hj).trans (by rw [State.temp, State.temp, State.tick_temps])⟩
  rw [hframe, State.tick_eq]

/-! ### The byte map of the platform bus (20_memory.md R61) -/

/-- A register stands at `CSR_BASE + 8 n`. -/
theorem busCsr?_eq_some_iff {c : Config} {addr width n : Nat} :
    busCsr? c addr width = some n ↔ width = 8 ∧ addr % 8 = 0 ∧ n ≤ 255 ∧ addr = c.csrBase + 8 * n := by
  unfold busCsr?
  split
  · simp only [Option.some.injEq]
    omega
  · simp only [reduceCtorEq, false_iff]
    omega

/-- A limb has 4 or 8 bytes. -/
theorem limbBytes_cases (l : LimbWidth) : l.bits / 8 = 4 ∨ l.bits / 8 = 8 := by cases l <;> decide

/-- A limb stands at `LM_BASE + (W/8) i`. -/
theorem busLimb?_eq_some_iff {c : Config} {addr width i : Nat} :
    busLimb? c addr width = some i ↔
      width = c.width.bits / 8 ∧ addr % (c.width.bits / 8) = 0 ∧ i < c.lmLimbs ∧
        addr = c.lmBase + c.width.bits / 8 * i := by
  unfold busLimb?
  dsimp only
  rcases limbBytes_cases c.width with hk | hk <;> rw [hk] <;> split
  all_goals simp only [Option.some.injEq, reduceCtorEq, false_iff]
  all_goals omega

/-- The two windows share no address. -/
def WindowsApart (c : Config) : Prop :=
  c.csrBase + 2048 ≤ c.lmBase ∨ c.lmBase + c.width.bits / 8 * c.lmLimbs ≤ c.csrBase

/-- An access selects a register or a limb, not both. -/
theorem not_busCsr?_and_busLimb? {c : Config} (h : WindowsApart c) {addr width n i : Nat}
    (hcsr : busCsr? c addr width = some n) (hlimb : busLimb? c addr width = some i) : False := by
  obtain ⟨-, -, hn, haddr⟩ := busCsr?_eq_some_iff.1 hcsr
  obtain ⟨-, -, hi, haddr'⟩ := busLimb?_eq_some_iff.1 hlimb
  unfold WindowsApart at h
  rcases limbBytes_cases c.width with hk | hk <;> rw [hk] at h haddr' <;> omega

theorem busRead?_eq_csrRead_iff {c : Config} (h : WindowsApart c) {addr width n : Nat} :
    busRead? c addr width = some (.csrRead n) ↔ busCsr? c addr width = some n := by
  unfold busRead?
  cases hcsr : busCsr? c addr width <;> cases hlimb : busLimb? c addr width <;> simp
  exact (not_busCsr?_and_busLimb? h hcsr hlimb).elim

theorem busRead?_eq_lmRead_iff {c : Config} (h : WindowsApart c) {addr width i : Nat} :
    busRead? c addr width = some (.lmRead i) ↔ busLimb? c addr width = some i := by
  unfold busRead?
  cases hcsr : busCsr? c addr width <;> cases hlimb : busLimb? c addr width <;> simp
  exact (not_busCsr?_and_busLimb? h hcsr hlimb).elim

/-- A byte write selects what a byte read of its width selects, and writes the little-endian value. -/
theorem busWrite?_eq_csrWrite_iff {c : Config} {addr n : Nat} {bytes : List Byte} {v : Word} :
    busWrite? c addr bytes = some (.csrWrite n v) ↔
      busRead? c addr bytes.length = some (.csrRead n) ∧ v = BitVec.ofNat 64 (leValue bytes) := by
  unfold busWrite? busRead?
  cases busCsr? c addr bytes.length <;> cases busLimb? c addr bytes.length <;> simp [eq_comm]

theorem busWrite?_eq_lmWrite_iff {c : Config} {addr i : Nat} {bytes : List Byte} {v : Word} :
    busWrite? c addr bytes = some (.lmWrite i v) ↔
      busRead? c addr bytes.length = some (.lmRead i) ∧ v = BitVec.ofNat 64 (leValue bytes) := by
  unfold busWrite? busRead?
  cases busCsr? c addr bytes.length <;> cases busLimb? c addr bytes.length <;> simp [eq_comm]

/-- Eight bytes at most make a 64-bit value. -/
theorem toNat_ofNat_leValue {bytes : List Byte} (h : bytes.length ≤ 8) :
    (BitVec.ofNat 64 (leValue bytes)).toNat = leValue bytes := by
  rw [BitVec.toNat_ofNat]
  exact Nat.mod_eq_of_lt ((leValue_lt bytes).trans_le (Nat.pow_le_pow_right two_pos (by omega)))

/-- Byte `j` of the written value is the `j`-th byte of the access. -/
theorem extractLsb'_leValue {bytes : List Byte} (h : bytes.length ≤ 8) (j : Nat) (hj : j < bytes.length) :
    (BitVec.ofNat 64 (leValue bytes)).extractLsb' (8 * j) 8 = bytes[j] := by
  apply BitVec.eq_of_toNat_eq
  rw [BitVec.extractLsb'_toNat, toNat_ofNat_leValue h, Nat.shiftRight_eq_div_pow, leValue_byte bytes j hj]

/-- Settles O19: an access is legal where its address is one of a register or of a limb, and any other one stops the run. -/
theorem platformByteMap : Obligations.PlatformByteMap := by
  intro c addr width bytes hapart
  have hcsr {width n : Nat} := busRead?_eq_csrRead_iff hapart (addr := addr) (width := width) (n := n)
  have hlimb {width i : Nat} := busRead?_eq_lmRead_iff hapart (addr := addr) (width := width) (i := i)
  refine ⟨fun n => hcsr.trans busCsr?_eq_some_iff, fun i => hlimb.trans busLimb?_eq_some_iff,
    fun n v => busWrite?_eq_csrWrite_iff, fun i v => busWrite?_eq_lmWrite_iff, fun n v h => ?csrBytes,
    fun i v h => ?limbBytes, fun s k hcfg hidle hop hnone => ?readFault, fun s hcfg hidle hop hnone => ?writeFault⟩
  case csrBytes =>
    obtain ⟨hread, rfl⟩ := busWrite?_eq_csrWrite_iff.1 h
    obtain ⟨hlen, -⟩ := busCsr?_eq_some_iff.1 (hcsr.1 hread)
    exact ⟨hlen, extractLsb'_leValue hlen.le⟩
  case limbBytes =>
    obtain ⟨hread, rfl⟩ := busWrite?_eq_lmWrite_iff.1 h
    obtain ⟨hlen, -⟩ := busLimb?_eq_some_iff.1 (hlimb.1 hread)
    have hle : bytes.length ≤ 8 := by have := limbBytes_cases c.width; omega
    have hbits : 8 * bytes.length = c.width.bits := by rw [hlen]; cases c.width <;> rfl
    refine ⟨hlen, ?_, extractLsb'_leValue hle⟩
    rw [toNat_ofNat_leValue hle, ← hbits]
    exact leValue_lt bytes
  case readFault =>
    subst hcfg
    exact (step_eq_hostPerform hidle hop).trans (hostPerform_busr_none hnone k)
  case writeFault =>
    subst hcfg
    exact (step_eq_hostPerform hidle hop).trans (hostPerform_busw_none hnone)

end Sys2Proof.Machine
end
